-- ==== Sys2Proof/Word.lean ====
section
/-!
DEFINITION. The word types of the block: bytes, 32-bit registers, bit strings (00_scope.md R10, R11; 10_state.md R19).
-/

namespace Sys2Proof

/-- One byte of buffer memory, and one element of a byte string (R11). -/
abbrev Byte := BitVec 8

/-- One register of the register map, `REG_W = 32` bits (R9, R19), and one buffer-memory address, `ADDR_W = 32` bits. -/
abbrev Word := BitVec 32

/-- A bit string (R11): `false` is the bit 0, `true` the bit 1. -/
abbrev Bits := List Bool

end Sys2Proof
end

