-- ==== Sys2Proof/Config.lean ====
section
/-!
DEFINITION. What an implementation of the block fixes (00_scope.md R9): the numbers the spec gives as named
parameters, the two parameters it leaves OPEN (carried by every state, see `Platform`), and the one free value.
-/

namespace Sys2Proof

/-- The two parameters of R9 whose origin is OPEN, "an argument of the model" (D8, U7).
Every state carries its platform, no step changes it, and a statement about every state holds for every platform. -/
structure Platform where
  /-- `MEM_SIZE`, the size of buffer memory in bytes (R9, R38). -/
  memSize : Nat
  /-- `REG_BASE`, the platform address of the register window (R9, R17). -/
  regBase : Nat
  deriving DecidableEq, Repr

/-- The platform of `State.reset`: the `MEM_SIZE` of the spec's own host programs (95_test_vectors.md section 3) and
`REG_BASE` 0. DESIGN CHOICE, unsafe (log entry 1): the spec leaves both OPEN. -/
def Config.resetPlatform : Platform := { memSize := 0x10000, regBase := 0 }

/-- `RLE_MAX_RUN` (R9): the largest count in one RLE record. -/
def Config.rleMaxRun : Nat := 255

/-- `LZW_DICT_CAP` (R9, D36, C2): the number of entries at which the dictionary stops growing. -/
def Config.lzwDictCap : Nat := 65536

/-- `TREE_MAX_INTERNAL` (R9, D28): the largest number of internal nodes of a tree the deserializer accepts. -/
def Config.treeMaxInternal : Nat := 255

/-- The number of bytes of one Huffman header field, `HUF_HDR_W` (R9, R180, D24). -/
def Config.hufHdrBytes : Nat := 8

/-- The size in bytes of the register window (R17). -/
def Config.windowBytes : Nat := 4096

/-- What a byte of buffer memory that nothing has written reads as. DESIGN CHOICE, unsafe (log entry 2): the spec
gives buffer memory no power-on contents; its host programs start from bytes 00 (95_test_vectors.md section 3). -/
def Config.unlistedByte : Byte := 0

/-- The free value of the block: draw number `n` of an unspecified byte (R104, R217, R222; U1, U2, U4). It has no
body, so nothing can be proved of its value; safe (log entry 3). -/
opaque Config.freeByte : Nat → Byte

end Sys2Proof
end

