-- ==== Sys2Proof/Syntax.lean ====
section
/-!
DEFINITION. The commands of the block (30_encoding.md R71, opcode_table.json): one constructor per row.
-/

namespace Sys2Proof

/-- The eleven commands. A command has no operand fields: every operand is in the operand registers (R70, R74). -/
inductive Instr where
  /-- RLE_ENC, R120. -/
  | rleEnc
  /-- RLE_DEC, R121. -/
  | rleDec
  /-- HUF_FREQ, R130. -/
  | hufFreq
  /-- HUF_BUILD, R133. -/
  | hufBuild
  /-- HUF_CODEGEN, R136. -/
  | hufCodegen
  /-- HUF_PACK, R139. -/
  | hufPack
  /-- HUF_UNPACK, R142. -/
  | hufUnpack
  /-- HUF_ENC, R176. -/
  | hufEnc
  /-- HUF_DEC, R177. -/
  | hufDec
  /-- LZW_ENC, R188. -/
  | lzwEnc
  /-- LZW_DEC, R190. -/
  | lzwDec
  deriving DecidableEq, Repr

end Sys2Proof
end

