-- ==== Sys2Proof/WellFormed.lean ====
section
/-!
DEFINITION. Well-formedness: of a platform (00_scope.md R9), of a command word (30_encoding.md R70), of a
register access (10_state.md R18), and of a command. Each check is decidable; Tests/Slice0.lean holds a term that
each one refuses.
-/

namespace Sys2Proof

/-- `1 <= MEM_SIZE <= 2^32` (R9). `REG_BASE` is unconstrained. -/
abbrev Platform.WellFormed (p : Platform) : Prop := 1 ≤ p.memSize ∧ p.memSize ≤ 2 ^ 32

/-- The two fields of a command word (R70). -/
structure CommandWord where
  /-- Bits [31:8], which must be 0. -/
  reserved : BitVec 24
  /-- Bits [7:0], which select the command. -/
  opcode : BitVec 8
  deriving DecidableEq, Repr

/-- The reserved bits of a command word are all 0 (R70). -/
abbrev CommandWord.WellFormed (c : CommandWord) : Prop := c.reserved = 0

/-- One host access to the register window (R18, R84): a byte address of the platform and a width in bytes. -/
structure BusAccess where
  addr : Nat
  width : Nat
  deriving DecidableEq, Repr

/-- The access lies in the 4096-byte window at `REG_BASE` (R17). -/
abbrev BusAccess.InWindow (p : Platform) (b : BusAccess) : Prop :=
  p.regBase ≤ b.addr ∧ b.addr < p.regBase + Config.windowBytes

/-- The byte offset of the access in the window (R17, R84). -/
def BusAccess.offset (p : Platform) (b : BusAccess) : Nat := b.addr - p.regBase

/-- The one form of access the block gives a meaning: 32 bits at a 32-bit-aligned offset of the window (R18). -/
abbrev BusAccess.WellFormed (p : Platform) (b : BusAccess) : Prop :=
  b.InWindow p ∧ b.width = 4 ∧ b.offset p % 4 = 0

/-- A command carries no field (R70, R74), so no command is ill-formed. -/
def Instr.wellFormed : Instr → Bool
  | .rleEnc => true
  | .rleDec => true
  | .hufFreq => true
  | .hufBuild => true
  | .hufCodegen => true
  | .hufPack => true
  | .hufUnpack => true
  | .hufEnc => true
  | .hufDec => true
  | .lzwEnc => true
  | .lzwDec => true

end Sys2Proof
end

