-- ==== Sys2Proof/Decode.lean ====
section
/-!
DEFINITION. Decoding and encoding of command words (30_encoding.md R70 to R73). Every 32-bit word either selects a
command or is refused under a name.
-/

namespace Sys2Proof

/-- Why a word selects no command (R72). -/
inductive DecodeError where
  /-- Bits [31:8] are not all 0. -/
  | reservedBits
  /-- The OPCODE is not in the opcode map. -/
  | unknownOpcode
  deriving DecidableEq, Repr

/-- The opcode map of R71. -/
def opcodeMap : List (BitVec 8 × Instr) :=
  [ (0x01, .rleEnc), (0x02, .rleDec),
    (0x10, .hufFreq), (0x11, .hufBuild), (0x12, .hufCodegen), (0x13, .hufPack), (0x14, .hufUnpack),
    (0x15, .hufEnc), (0x16, .hufDec),
    (0x20, .lzwEnc), (0x21, .lzwDec) ]

/-- The fields of a 32-bit command word (R70). -/
def splitCommand (w : Word) : CommandWord :=
  { reserved := w.extractLsb' 8 24, opcode := w.extractLsb' 0 8 }

/-- The command word with the given fields (R70). -/
def joinCommand (c : CommandWord) : Word := c.reserved ++ c.opcode

/-- The command a word selects (R71), or why it selects none (R72). -/
def decode (w : Word) : Except DecodeError Instr :=
  if (splitCommand w).WellFormed then
    match opcodeMap.lookup (splitCommand w).opcode with
    | some i => .ok i
    | none => .error .unknownOpcode
  else .error .reservedBits

/-- The OPCODE of each command, from the rows of opcode_table.json. -/
def opcodeOf : Instr → BitVec 8
  | .rleEnc => 0x01
  | .rleDec => 0x02
  | .hufFreq => 0x10
  | .hufBuild => 0x11
  | .hufCodegen => 0x12
  | .hufPack => 0x13
  | .hufUnpack => 0x14
  | .hufEnc => 0x15
  | .hufDec => 0x16
  | .lzwEnc => 0x20
  | .lzwDec => 0x21

/-- The command word of a command (R70, R71): reserved bits 0. -/
def encode (i : Instr) : Word := joinCommand { reserved := 0, opcode := opcodeOf i }

/-- The command word `w` as the table numbers its bits (one 32-bit word): what `decode` reads from it. A number that
does not fit in `nbits` bits, or not in the 32 bits of CMD, is no word of the table. -/
def decodeTableWord (nbits w : Nat) : Option Instr :=
  if w < 2 ^ nbits ∧ w < 2 ^ 32 then (decode (BitVec.ofNat 32 w)).toOption else none

/-! The decoding of every constructor, at the word of 30_encoding.md R71. -/

theorem decode_rleEnc : decode 0x00000001 = .ok .rleEnc := by decide
theorem decode_rleDec : decode 0x00000002 = .ok .rleDec := by decide
theorem decode_hufFreq : decode 0x00000010 = .ok .hufFreq := by decide
theorem decode_hufBuild : decode 0x00000011 = .ok .hufBuild := by decide
theorem decode_hufCodegen : decode 0x00000012 = .ok .hufCodegen := by decide
theorem decode_hufPack : decode 0x00000013 = .ok .hufPack := by decide
theorem decode_hufUnpack : decode 0x00000014 = .ok .hufUnpack := by decide
theorem decode_hufEnc : decode 0x00000015 = .ok .hufEnc := by decide
theorem decode_hufDec : decode 0x00000016 = .ok .hufDec := by decide
theorem decode_lzwEnc : decode 0x00000020 = .ok .lzwEnc := by decide
theorem decode_lzwDec : decode 0x00000021 = .ok .lzwDec := by decide

end Sys2Proof
end

