-- ==== Sys2Proof/Machine/State.lean ====
section
/-!
DEFINITION. The state of the block as plain data: the register map of 10_state.md R19, buffer memory
(20_memory.md R38), the platform's parameters (00_scope.md R9), and the model's own fields (the schedule of the
agents, the data a host read returned, the number of draws made).
-/

namespace Sys2Proof.Machine

/-- Buffer memory: (address, byte) pairs with rising addresses, no entry equal to what an unlisted address reads as. -/
abbrev Memory := List Host.Cell

/-- The canonical form of memory: addresses strictly rising, and no entry equal to `Config.unlistedByte`. -/
abbrev Memory.wf (m : Memory) : Prop :=
  m.Pairwise (fun c d => c.1 < d.1) ∧ ∀ c ∈ m, c.2 ≠ Config.unlistedByte

/-- The named registers of the register map (R19). -/
inductive Reg where
  | ctrl | status | cmd | errCode
  | srcAddr | srcLen | dstAddr | dstCap
  | treeAddr | treeLen | inBitsLo | inBitsHi
  | resultLen | resultAux | outBitsLo | outBitsHi
  deriving DecidableEq, Repr

/-- The error codes of 60_exceptions.md R200, less E_NONE (a command that succeeds). -/
inductive ErrCode where
  /-- E_BAD_CMD (R72). -/
  | badCmd
  /-- E_RANGE (R47). -/
  | range
  /-- E_OVERLAP (R48). -/
  | overlap
  /-- E_DST_FULL (R103). -/
  | dstFull
  /-- E_RLE_ODD (R121). -/
  | rleOdd
  /-- E_HDR_SHORT (R178). -/
  | hdrShort
  /-- E_TREE_TRUNC (R163). -/
  | treeTrunc
  /-- E_TREE_MARKER (R164). -/
  | treeMarker
  /-- E_TREE_NULL (R165). -/
  | treeNull
  /-- E_TREE_DUP (R166). -/
  | treeDup
  /-- E_TREE_LARGE (R167). -/
  | treeLarge
  /-- E_TREE_SIZE (R168). -/
  | treeSize
  /-- E_TREE_EMPTY (R142). -/
  | treeEmpty
  /-- E_BITS_SHORT (R142). -/
  | bitsShort
  /-- E_PATH_INCOMPLETE (R144). -/
  | pathIncomplete
  /-- E_PATH_INVALID (R144). -/
  | pathInvalid
  /-- E_NO_CODE (R139). -/
  | noCode
  /-- E_LZW_ODD (R190). -/
  | lzwOdd
  /-- E_LZW_CODE (R192). -/
  | lzwCode
  deriving DecidableEq, Repr

/-- What a command that succeeds returns (R13): the output string, RESULT_AUX and OUT_BITS. -/
structure Output where
  out : List Byte
  aux : Nat
  bits : Nat
  deriving DecidableEq, Repr

/-- The outcome of a command (R13): `Ok(out, aux, bits)` or `Err(code)`. -/
abbrev Result := Except ErrCode Output

/-- One move of an agent (R16): a bus action of the host, a write to buffer memory by any agent (R222), the reset
input (R215), or the engine's step (R101). -/
inductive Action where
  /-- The engine takes its step if it is enabled (R101). -/
  | engine
  /-- The reset input is asserted (R215). -/
  | reset
  /-- The host reads the register window (R18). -/
  | regRead (access : BusAccess)
  /-- The host writes the register window (R18); the data of a 32-bit access. -/
  | regWrite (access : BusAccess) (data : Word)
  /-- The host reads one byte of buffer memory (R38, R222). -/
  | memRead (addr : Word)
  /-- The host, another instance or another bus master writes one byte of buffer memory (R38, R222). -/
  | memWrite (addr : Word) (data : Byte)
  /-- The pseudo-instruction `WAIT` (R85): the host repeats `RD STATUS` until DONE reads 1. -/
  | wait
  deriving DecidableEq, Repr

/-- The data of the host's latest read. -/
inductive Readback where
  /-- No read has happened. -/
  | nothing
  /-- A register read at this offset of the window returned this value. -/
  | register (offset : Nat) (value : Word)
  /-- A buffer-memory read at this address returned this byte. -/
  | byte (addr : Word) (value : Byte)
  deriving DecidableEq, Repr

/-- Why the machine stops with a fault. No command raises one: a command's errors are its completion (R204). -/
inductive Fault where
  /-- Raised by `Action.memWrite` when it writes a byte of the running command's source, tree or destination buffer
  while BUSY (R222, U5). Safe: the spec gives such a run no meaning and asks for a fault. -/
  | lockedBufferWrite (addr : Word)
  /-- Raised by `Action.memRead` and `Action.memWrite` at an address at or above MEM_SIZE, which does not exist (R38).
  Safe: the run stops. -/
  | noSuchAddress (addr : Word)
  deriving DecidableEq, Repr

/-- Why the model gives a move no meaning. -/
inductive Refusal where
  /-- An instruction of the opcode table that has no meaning yet. No arm of `exec` answers it. Safe. -/
  | notModelled (mnemonic : String)
  /-- Raised by `Action.regRead` and `Action.regWrite` for an access of the window that is not 32 bits wide at a
  32-bit-aligned offset (R18, U6). Safe: the spec asks a model to refuse it. -/
  | registerAccess (access : BusAccess)
  /-- Raised by `Action.regRead` and `Action.regWrite` for an address outside the register window: the spec defines
  no device there (R211). Safe: the run stops. -/
  | outsideWindow (access : BusAccess)
  deriving DecidableEq, Repr

/-- The state of the block. -/
structure State where
  /-- MEM_SIZE and REG_BASE (R9), which no step changes. -/
  platform : Platform
  /-- CTRL bit 1, IE (R20). -/
  ie : Bool
  /-- STATUS bit 0, BUSY (R21). -/
  busy : Bool
  /-- STATUS bit 1, DONE (R21). -/
  done : Bool
  /-- STATUS bit 2, ERR (R21). -/
  err : Bool
  /-- CMD (R22). -/
  cmd : Word
  /-- ERR_CODE bits [7:0] (R23). -/
  errCode : Byte
  /-- SRC_ADDR (R24). -/
  srcAddr : Word
  /-- SRC_LEN (R24). -/
  srcLen : Word
  /-- DST_ADDR (R25). -/
  dstAddr : Word
  /-- DST_CAP (R25). -/
  dstCap : Word
  /-- TREE_ADDR (R26). -/
  treeAddr : Word
  /-- TREE_LEN (R26). -/
  treeLen : Word
  /-- IN_BITS_LO (R27). -/
  inBitsLo : Word
  /-- IN_BITS_HI (R27). -/
  inBitsHi : Word
  /-- RESULT_LEN (R28). -/
  resultLen : Word
  /-- RESULT_AUX (R29). -/
  resultAux : Word
  /-- OUT_BITS_LO (R30). -/
  outBitsLo : Word
  /-- OUT_BITS_HI (R30). -/
  outBitsHi : Word
  /-- Buffer memory (R38). -/
  mem : Memory
  /-- The model's own: how many draws of `Config.freeByte` have been made (log entry 3). -/
  drawCount : Nat
  /-- The model's own: the moves of the agents still to come, first first (log entry 4). -/
  schedule : List Action
  /-- The model's own: what the host's latest read returned (log entry 5). -/
  readback : Readback
  /-- The model's own: the host has read STATUS with DONE = 1 since the last command started (R227, log entry 16). -/
  seenDone : Bool
  deriving DecidableEq, Repr

/-- The reset state of R216 on a given platform, with buffer memory as at power-on (log entry 2) and no move
scheduled. -/
def State.resetOn (p : Platform) : State where
  platform := p
  ie := false
  busy := false
  done := false
  err := false
  cmd := 0
  errCode := 0
  srcAddr := 0
  srcLen := 0
  dstAddr := 0
  dstCap := 0
  treeAddr := 0
  treeLen := 0
  inBitsLo := 0
  inBitsHi := 0
  resultLen := 0
  resultAux := 0
  outBitsLo := 0
  outBitsHi := 0
  mem := []
  drawCount := 0
  schedule := []
  readback := .nothing
  seenDone := false

/-- The machine right after reset (R216). -/
def State.reset : State := State.resetOn Config.resetPlatform

end Sys2Proof.Machine
end

