-- ==== Sys2Proof/Machine/Flags.lean ====
section
/-!
DEFINITION. The block's only flags, STATUS.BUSY, DONE and ERR, CTRL.IE, and the interrupt output derived from them
(10_state.md R20, R21, R34; 60_exceptions.md R206, R207).
-/

namespace Sys2Proof.Machine

/-- The value a read of STATUS returns: BUSY, DONE and ERR in bits 0, 1 and 2, every other bit 0 (R21). -/
def State.statusWord (s : State) : Word :=
  (if s.busy then 0x1 else 0) ||| (if s.done then 0x2 else 0) ||| (if s.err then 0x4 else 0)

/-- The value a read of CTRL returns: START reads 0, IE in bit 1, every other bit 0 (R20). -/
def State.ctrlWord (s : State) : Word := if s.ie then 0x2 else 0

/-- The interrupt output, `IRQ = CTRL.IE AND STATUS.DONE` (R207). -/
def State.irq (s : State) : Bool := s.ie && s.done

/-- The W1C effect of a write of `w` to STATUS while BUSY = 0 (R21): a 1 in bit 1 clears DONE, a 1 in bit 2 clears
ERR, and no other bit does anything. This is the host's acknowledgement (R206). -/
def State.acknowledge (s : State) (w : Word) : State :=
  { s with done := s.done && !w.getLsbD 1, err := s.err && !w.getLsbD 2 }

/-- The flags at the completion of a command (R101): BUSY 0, DONE 1, ERR set exactly when ERR_CODE is not 0. -/
def State.setCompletionFlags (s : State) : State :=
  { s with busy := false, done := true, err := s.errCode != 0 }

end Sys2Proof.Machine
end

