-- ==== Sys2Proof/Machine/Ops.lean ====
section
/-!
DEFINITION. The named operations: byte order (00_scope.md R12), buffer memory (20_memory.md R38), draws, START
(40_command.md R100), and the one shared completion of a command, which also records an error (R101, R104;
60_exceptions.md R204).
-/

namespace Sys2Proof.Machine

/-! ### Byte order -/

/-- `LE(s)`, the value of a byte string read little-endian (R12). -/
def leValue : List Byte → Nat
  | [] => 0
  | b :: bs => b.toNat + 256 * leValue bs

/-- `toLE_n(v)`, the `n`-byte little-endian string of `v` (R12). -/
def toLE : Nat → Nat → List Byte
  | 0, _ => []
  | n + 1, v => BitVec.ofNat 8 v :: toLE n (v / 256)

/-! ### Buffer memory -/

/-- The byte at an address. -/
def Memory.read (m : Memory) (a : Nat) : Byte :=
  match m.lookup a with
  | some b => b
  | none => Config.unlistedByte

/-- `MemRead(addr, n)` (R12). -/
def Memory.readBytes (m : Memory) (a n : Nat) : List Byte :=
  (List.range n).map fun i => m.read (a + i)

/-- The entries that hold a byte string from an address on, less those equal to what an unlisted address reads as. -/
def cellsFrom : Nat → List Byte → Memory
  | _, [] => []
  | a, b :: bs => if b = Config.unlistedByte then cellsFrom (a + 1) bs else (a, b) :: cellsFrom (a + 1) bs

/-- `MemWrite(addr, len(bytes), bytes)` (R12). -/
def Memory.writeBytes (m : Memory) (a : Nat) (bytes : List Byte) : Memory :=
  m.filter (fun c => c.1 < a) ++ cellsFrom a bytes ++ m.filter (fun c => a + bytes.length ≤ c.1)

/-- The draws numbered `k, k + 1, ..., k + n - 1`: `n` unspecified bytes, each a separate draw (U1). -/
def drawBytes (k n : Nat) : List Byte :=
  (List.range n).map fun i => Config.freeByte (k + i)

/-- Gives each of the `n` bytes from address `a` on an unspecified value (R104, R217). -/
def State.drawInto (s : State) (a n : Nat) : State :=
  { s with mem := s.mem.writeBytes a (drawBytes s.drawCount n), drawCount := s.drawCount + n }

/-! ### START -/

/-- What a START does to the flags and the result registers (R100). The host has not observed the completion of the
command it starts (R227). -/
def State.start (s : State) : State :=
  { s with
    busy := true, done := false, err := false
    errCode := 0, resultLen := 0, resultAux := 0, outBitsLo := 0, outBitsHi := 0
    seenDone := false }

/-! ### Completion -/

/-- ERR_CODE bits [7:0] of each error (R200). -/
def errorByte : ErrCode → Byte
  | .badCmd => 0x01
  | .range => 0x02
  | .overlap => 0x03
  | .dstFull => 0x04
  | .rleOdd => 0x10
  | .hdrShort => 0x11
  | .treeTrunc => 0x12
  | .treeMarker => 0x13
  | .treeNull => 0x14
  | .treeDup => 0x15
  | .treeLarge => 0x16
  | .treeSize => 0x17
  | .treeEmpty => 0x18
  | .bitsShort => 0x19
  | .pathIncomplete => 0x1A
  | .pathInvalid => 0x1B
  | .noCode => 0x1C
  | .lzwOdd => 0x1D
  | .lzwCode => 0x1E

/-- The errors after which no byte of buffer memory has been written: codes 0x01 to 0x03 (R104, R204). -/
def leavesMemory : ErrCode → Bool
  | .badCmd => true
  | .range => true
  | .overlap => true
  | .dstFull => false
  | .rleOdd => false
  | .hdrShort => false
  | .treeTrunc => false
  | .treeMarker => false
  | .treeNull => false
  | .treeDup => false
  | .treeLarge => false
  | .treeSize => false
  | .treeEmpty => false
  | .bitsShort => false
  | .pathIncomplete => false
  | .pathInvalid => false
  | .noCode => false
  | .lzwOdd => false
  | .lzwCode => false

/-- `Commit(Ok(out, aux, bits))` (R104): the output goes to the destination buffer's first bytes, the rest of the
buffer is unchanged. -/
def State.commitOk (s : State) (o : Output) : State :=
  { s with
    mem := s.mem.writeBytes s.dstAddr.toNat o.out
    resultLen := BitVec.ofNat 32 o.out.length
    resultAux := BitVec.ofNat 32 o.aux
    outBitsLo := BitVec.ofNat 32 o.bits
    outBitsHi := BitVec.ofNat 32 (o.bits / 2 ^ 32)
    errCode := 0 }

/-- The registers of the error record (R104, R204). -/
def State.recordError (s : State) (e : ErrCode) : State :=
  { s with resultLen := 0, resultAux := 0, outBitsLo := 0, outBitsHi := 0, errCode := errorByte e }

/-- `Commit(Err(code))` (R104): the error record, and unspecified destination bytes unless the error is one of the
first three. -/
def State.commitErr (s : State) (e : ErrCode) : State :=
  if leavesMemory e then s.recordError e
  else (s.drawInto s.dstAddr.toNat s.dstCap.toNat).recordError e

/-- `Commit(r)` (R104). -/
def State.commit (s : State) : Result → State
  | .ok o => s.commitOk o
  | .error e => s.commitErr e

/-- The end of the engine's step (R101): the outcome is committed, then the flags are set. Every command ends here,
with success or with an error. -/
def State.complete (s : State) (r : Result) : State := (s.commit r).setCompletionFlags

end Sys2Proof.Machine
end

