-- ==== Sys2Proof/Machine/Operands.lean ====
section
/-!
DEFINITION. The operands of a command (30_encoding.md R74): the three buffers, the conditions on them (20_memory.md
R47, R48), IN_BITS, and `Run()`, which checks them before it reads memory (40_command.md R102).
-/

namespace Sys2Proof.Machine

/-- A buffer: start address and length in bytes (R47). -/
structure Buffer where
  start : Nat
  len : Nat
  deriving DecidableEq, Repr

/-- The source buffer (R24). -/
def State.src (s : State) : Buffer := ⟨s.srcAddr.toNat, s.srcLen.toNat⟩

/-- The destination buffer (R25). -/
def State.dst (s : State) : Buffer := ⟨s.dstAddr.toNat, s.dstCap.toNat⟩

/-- The tree buffer (R26). -/
def State.tree (s : State) : Buffer := ⟨s.treeAddr.toNat, s.treeLen.toNat⟩

/-- IN_BITS (R27, R42). -/
def State.inBits (s : State) : Nat := s.inBitsHi.toNat * 2 ^ 32 + s.inBitsLo.toNat

/-- OUT_BITS (R30, R42). -/
def State.outBits (s : State) : Nat := s.outBitsHi.toNat * 2 ^ 32 + s.outBitsLo.toNat

/-- `InRange(a, n)` (R47), in unbounded arithmetic. -/
abbrev Buffer.InRange (b : Buffer) (memSize : Nat) : Prop := b.len = 0 ∨ b.start + b.len ≤ memSize

/-- `Overlap(a1, n1, a2, n2)` (R48). -/
abbrev Buffer.Overlaps (b c : Buffer) : Prop :=
  0 < b.len ∧ 0 < c.len ∧ b.start < c.start + c.len ∧ c.start < b.start + b.len

/-- An address is one of the buffer's bytes. -/
abbrev Buffer.Contains (b : Buffer) (a : Nat) : Prop := b.start ≤ a ∧ a < b.start + b.len

/-- The bytes of a buffer (R44: one `MemRead` of the whole buffer). -/
def State.bufferBytes (s : State) (b : Buffer) : List Byte := s.mem.readBytes b.start b.len

/-- The commands that use the tree buffer (R26, R102). -/
def usesTree : Instr → Bool
  | .rleEnc => false
  | .rleDec => false
  | .hufFreq => false
  | .hufBuild => false
  | .hufCodegen => false
  | .hufPack => true
  | .hufUnpack => true
  | .hufEnc => false
  | .hufDec => false
  | .lzwEnc => false
  | .lzwDec => false

/-- The capacity check of R102 and R103: it comes after the whole computation, so a failed computation reports its own
error whatever the capacity. -/
def checkCapacity (cap : Nat) : Result → Result
  | .error e => .error e
  | .ok o => if cap < o.out.length then .error .dstFull else .ok o

/-- `Run()` of R102 after the command word has selected a command: the checks in the order of R203, then the
command's function `f` on the source bytes, the tree bytes and IN_BITS, then the capacity check (R103).
`tree` says whether the command uses the tree buffer. -/
def State.run (s : State) (tree : Bool) (f : List Byte → List Byte → Nat → Result) : Result :=
  if ¬ s.src.InRange s.platform.memSize then .error .range
  else if tree = true ∧ ¬ s.tree.InRange s.platform.memSize then .error .range
  else if ¬ s.dst.InRange s.platform.memSize then .error .range
  else if s.dst.Overlaps s.src then .error .overlap
  else if tree = true ∧ s.dst.Overlaps s.tree then .error .overlap
  else
    checkCapacity s.dst.len (f (s.bufferBytes s.src) (if tree then s.bufferBytes s.tree else []) s.inBits)

/-- The engine's step for a selected command (R101): `Run()`, `Commit`, flags. A command always completes. -/
def State.performCommand (s : State) (tree : Bool) (f : List Byte → List Byte → Nat → Result) :
    Host.Outcome State Fault Refusal :=
  .next (s.complete (s.run tree f))

end Sys2Proof.Machine
end

