-- ==== Sys2Proof/Machine/TreeSerializer.lean ====
section
/-!
DEFINITION. Huffman trees, the tree serializer and the checking deserializer (43_tree_serializer.md).
-/

namespace Sys2Proof.Machine

/-- A Huffman tree (R37): an owned variant with no absent child, so that no walk can meet one (I9). "No tree" is
`Option.none`. -/
inductive Tree where
  | leaf (symbol : Byte)
  | node (left right : Tree)
  deriving DecidableEq, Repr

/-- `Leaves(t)` (R132). -/
def leafCount : Tree → Nat
  | .leaf _ => 1
  | .node l r => leafCount l + leafCount r

/-- `Leaves` of a tree or of no tree (R132). -/
def leafCountOpt : Option Tree → Nat
  | none => 0
  | some t => leafCount t

/-- `Ser(t)` (R160). -/
def ser : Tree → List Byte
  | .leaf s => [0x01, s]
  | .node l r => 0x02 :: (ser l ++ ser r)

/-- What the deserializer carries from one node to the next (R162): the bytes from `pos` on, the number of internal
markers read, and the symbols seen. -/
structure DeserState where
  rest : List Byte
  internals : Nat
  seen : List Byte
  deriving DecidableEq, Repr

/-- `Node()` (R162) from a state whose remaining bytes are `rest`, for a number of nested calls that `fuel` bounds.
Each call consumes a marker before it calls itself, so fuel equal to the number of bytes is never too little: it runs
out only where `rest` is empty, which is E_TREE_TRUNC. -/
def deserNode : Nat → DeserState → Except ErrCode (Tree × DeserState)
  | 0, _ => .error .treeTrunc
  | fuel + 1, d =>
    match d.rest with
    | [] => .error .treeTrunc
    | m :: rest =>
      if m = 0x01 then
        match rest with
        | [] => .error .treeTrunc
        | s :: rest =>
          if s ∈ d.seen then .error .treeDup
          else .ok (.leaf s, { d with rest := rest, seen := s :: d.seen })
      else if m = 0x02 then
        if Config.treeMaxInternal < d.internals + 1 then .error .treeLarge
        else
          match deserNode fuel { d with rest := rest, internals := d.internals + 1 } with
          | .error e => .error e
          | .ok (l, d) =>
            match deserNode fuel d with
            | .error e => .error e
            | .ok (r, d) => .ok (.node l r, d)
      else if m = 0x00 then .error .treeNull
      else .error .treeMarker

/-- `Deser(T)` (R162): one tree, and no byte after it (R168). -/
def deser (T : List Byte) : Except ErrCode Tree :=
  match deserNode T.length { rest := T, internals := 0, seen := [] } with
  | .error e => .error e
  | .ok (t, d) => if d.rest = [] then .ok t else .error .treeSize

/-- `LoadTree(T)` (R171): no tree for no bytes. -/
def loadTree (T : List Byte) : Except ErrCode (Option Tree) :=
  match T with
  | [] => .ok none
  | b :: bs =>
    match deser (b :: bs) with
    | .error e => .error e
    | .ok t => .ok (some t)

end Sys2Proof.Machine
end

