-- ==== Sys2Proof/Machine/Huffman.lean ====
section
/-!
DEFINITION. The Huffman tree builder, code generator, bit-packer and unpacker (42_huffman.md).
-/

namespace Sys2Proof.Machine

/-! ### Frequency table -/

/-- The 256 byte values in ascending order (R131, R134). -/
def allSymbols : List Byte := (List.range 256).map (BitVec.ofNat 8)

/-- `Freq(S)[s]` (R131). -/
def freq (S : List Byte) (s : Byte) : Nat := S.count s

/-- `Distinct(Freq(S))` (R132). -/
def distinct (S : List Byte) : Nat := (allSymbols.filter fun s => 0 < freq S s).length

/-- `Exec_HUF_FREQ(S)` (R130): the table of R82. -/
def fnHufFreq (S : List Byte) : Result :=
  .ok ⟨allSymbols.flatMap fun s => toLE 4 (freq S s), distinct S, 0⟩

/-! ### Tree builder -/

/-- An entry of the builder's pool (R134). -/
structure PoolEntry where
  weight : Nat
  seq : Nat
  node : Tree
  deriving DecidableEq, Repr

/-- `e` comes before `f` in the lexicographic order of `(weight, seq)` (R134, D21). -/
def PoolEntry.before (e f : PoolEntry) : Bool :=
  decide (e.weight < f.weight) || (decide (e.weight = f.weight) && decide (e.seq < f.seq))

/-- The least entry of a pool that is not empty, and the other entries (R134). -/
def takeLeast (e : PoolEntry) : List PoolEntry → PoolEntry × List PoolEntry
  | [] => (e, [])
  | f :: fs =>
    if f.before e then ((takeLeast f fs).1, e :: (takeLeast f fs).2)
    else ((takeLeast e fs).1, f :: (takeLeast e fs).2)

/-- The merge loop of R134 from sequence number `q` on. Each round leaves one entry fewer, so `rounds` equal to the
pool's length is never too little. No tree comes from an empty pool. -/
def mergePool : Nat → Nat → List PoolEntry → Option Tree
  | _, _, [] => none
  | _, _, [e] => some e.node
  | 0, _, _ :: _ :: _ => none
  | rounds + 1, q, e :: f :: fs =>
    match takeLeast e (f :: fs) with
    | (_, []) => none
    | (a, x :: xs) =>
      match takeLeast x xs with
      | (b, others) => mergePool rounds (q + 1) (others ++ [⟨a.weight + b.weight, q, .node a.node b.node⟩])

/-- The pool of leaves (R134): the symbols present, in ascending order, numbered from 0. -/
def leafPool (S : List Byte) : List PoolEntry :=
  ((allSymbols.filter fun s => 0 < freq S s).zipIdx).map fun (s, q) => ⟨freq S s, q, .leaf s⟩

/-- `Build(S)` (R134): no tree exactly for empty input, one leaf for one distinct symbol. -/
def build (S : List Byte) : Option Tree :=
  mergePool (leafPool S).length (leafPool S).length (leafPool S)

/-- `Exec_HUF_BUILD(S)` (R133). -/
def fnHufBuild (S : List Byte) : Result :=
  match build S with
  | none => .ok ⟨[], 0, 0⟩
  | some t => .ok ⟨ser t, leafCount t, 0⟩

/-! ### Code generator -/

/-- `Walk(t, p)` (R137): each leaf's symbol with its path, in pre-order. -/
def walkCodes : Tree → Bits → List (Byte × Bits)
  | .leaf s, p => [(s, p)]
  | .node l r, p => walkCodes l (p ++ [false]) ++ walkCodes r (p ++ [true])

/-- `Codes(t)` (R137): the entries of the code table that are not ABSENT. A tree that is one leaf has the code `0`. -/
def codes : Tree → List (Byte × Bits)
  | .leaf s => [(s, [false])]
  | .node l r => walkCodes (.node l r) []

/-- `C[s]` for the table `C` of a tree: its code, or `none` for ABSENT (R137). -/
def codeOf (t : Tree) (s : Byte) : Option Bits := (codes t).lookup s

/-! ### Packed bit strings (R79) -/

/-- The byte of up to 8 bits, most significant first, the missing ones 0 (R79). -/
def byteOfBits (b : Bits) : Byte :=
  BitVec.ofNat 8 (((List.range 8).map fun k => if b.getD k false then 2 ^ (7 - k) else 0).sum)

/-- The first `n` bytes of a packed bit string, 8 bits each (R79). -/
def packGroups : Nat → Bits → List Byte
  | 0, _ => []
  | n + 1, b => byteOfBits (b.take 8) :: packGroups n (b.drop 8)

/-- `PackBits(b)`, `ceil(len(b)/8)` bytes (R79). -/
def packBits (b : Bits) : List Byte := packGroups ((b.length + 7) / 8) b

/-- The 8 bits of a byte, most significant first (R79). -/
def bitsOfByte (p : Byte) : Bits := (List.range 8).map fun k => p.getLsbD (7 - k)

/-- `UnpackBits(p, n)` for `n <= 8 * len(p)` (R79). -/
def unpackBits (p : List Byte) (n : Nat) : Bits := (p.flatMap bitsOfByte).take n

/-! ### Code table -/

/-- The 33-byte entry of a code, or of a symbol that has none (R83, D22). -/
def codeEntry : Option Bits → List Byte
  | none => List.replicate 33 0
  | some c => BitVec.ofNat 8 c.length :: (packBits c ++ List.replicate (32 - (packBits c).length) 0)

/-- `Exec_HUF_CODEGEN(S)` (R136): the table of R83. -/
def fnHufCodegen (S : List Byte) : Result :=
  match loadTree S with
  | .error e => .error e
  | .ok none => .ok ⟨List.replicate 8448 0, 0, 0⟩
  | .ok (some t) => .ok ⟨allSymbols.flatMap fun s => codeEntry (codeOf t s), leafCount t, 0⟩

/-! ### Bit-packer -/

/-- The codes of an input's bytes, one after the other, or `none` if a byte has no code (R139, R140). -/
def encodeBits (t : Tree) : List Byte → Option Bits
  | [] => some []
  | b :: bs =>
    match codeOf t b, encodeBits t bs with
    | some c, some rest => some (c ++ rest)
    | _, _ => none

/-- `Exec_HUF_PACK(S, TB)` (R139): the tree is loaded first, even for empty input (D34). -/
def fnHufPack (S TB : List Byte) : Result :=
  match loadTree TB with
  | .error e => .error e
  | .ok t? =>
    if S = [] then .ok ⟨[], 0, 0⟩
    else
      match t? with
      | none => .error .noCode
      | some t =>
        match encodeBits t S with
        | none => .error .noCode
        | some bits => .ok ⟨packBits bits, 0, bits.length⟩

/-! ### Bit-unpacker -/

/-- `DecodeBits` of a tree that is one leaf (R143): each 0 gives its symbol, a 1 is E_PATH_INVALID. -/
def decodeLeafBits (s : Byte) : Bits → Except ErrCode (List Byte)
  | [] => .ok []
  | true :: _ => .error .pathInvalid
  | false :: bs =>
    match decodeLeafBits s bs with
    | .error e => .error e
    | .ok out => .ok (s :: out)

/-- The walk of `DecodeBits` in a tree with root `node l r` (R143): `n` is the current node and `atRoot` says that the
walk stands at the root. The walk never stands on a leaf between two bits; the leaf arm repeats the root's step
there only to make the function total. -/
def decodeWalk (l r : Tree) (n : Tree) (atRoot : Bool) : Bits → Except ErrCode (List Byte)
  | [] => if atRoot then .ok [] else .error .pathIncomplete
  | b :: bs =>
    let next :=
      match n with
      | .leaf _ => if b then r else l
      | .node nl nr => if b then nr else nl
    match next with
    | .leaf s =>
      match decodeWalk l r (.node l r) true bs with
      | .error e => .error e
      | .ok out => .ok (s :: out)
    | .node nl nr => decodeWalk l r (.node nl nr) false bs

/-- `DecodeBits(t, bits)` (R143). -/
def decodeBits : Tree → Bits → Except ErrCode (List Byte)
  | .leaf s, bits => decodeLeafBits s bits
  | .node l r, bits => decodeWalk l r (.node l r) true bits

/-- `DecodePayload(P, T, n)` (R142), with the checks in the order of R141. -/
def decodePayload (P T : List Byte) (n : Nat) : Except ErrCode (List Byte) :=
  match loadTree T with
  | .error e => .error e
  | .ok none => if n = 0 then .ok [] else .error .treeEmpty
  | .ok (some t) =>
    if 8 * P.length < n then .error .bitsShort
    else decodeBits t (unpackBits P n)

/-- `Exec_HUF_UNPACK(S, TB, NB)` (R142). -/
def fnHufUnpack (S TB : List Byte) (NB : Nat) : Result :=
  match decodePayload S TB NB with
  | .error e => .error e
  | .ok out => .ok ⟨out, 0, 0⟩

/-! ### The commands -/

/-- HUF_FREQ (R130). -/
def execHufFreq (s : State) : Host.Outcome State Fault Refusal :=
  s.performCommand false fun S _ _ => fnHufFreq S

/-- HUF_BUILD (R133). -/
def execHufBuild (s : State) : Host.Outcome State Fault Refusal :=
  s.performCommand false fun S _ _ => fnHufBuild S

/-- HUF_CODEGEN (R136). -/
def execHufCodegen (s : State) : Host.Outcome State Fault Refusal :=
  s.performCommand false fun S _ _ => fnHufCodegen S

/-- HUF_PACK (R139). -/
def execHufPack (s : State) : Host.Outcome State Fault Refusal :=
  s.performCommand true fun S TB _ => fnHufPack S TB

/-- HUF_UNPACK (R142). -/
def execHufUnpack (s : State) : Host.Outcome State Fault Refusal :=
  s.performCommand true fun S TB NB => fnHufUnpack S TB NB

end Sys2Proof.Machine
end

