-- ==== Sys2Proof/Machine/Container.lean ====
section
/-!
DEFINITION. The Huffman container commands (44_huffman_container.md), with the format of 30_encoding.md R80.
-/

namespace Sys2Proof.Machine

/-- `Exec_HUF_ENC(S)` (R176). `build` gives no tree exactly for empty input. A built tree has a code for every input
byte, so the arm without one is never taken. -/
def fnHufEnc (S : List Byte) : Result :=
  match build S with
  | none => .ok ⟨[], 0, 0⟩
  | some t =>
    match encodeBits t S with
    | none => .error .noCode
    | some bits =>
      .ok ⟨toLE Config.hufHdrBytes bits.length ++ toLE Config.hufHdrBytes (ser t).length ++ ser t ++ packBits bits,
        (ser t).length, bits.length⟩

/-- `Exec_HUF_DEC(S)` (R177), with the header checks of R178 on unbounded numbers. -/
def fnHufDec (S : List Byte) : Result :=
  if S = [] then .ok ⟨[], 0, 0⟩
  else if S.length < 2 * Config.hufHdrBytes then .error .hdrShort
  else
    let n := leValue (S.take Config.hufHdrBytes)
    let ts := leValue ((S.drop Config.hufHdrBytes).take Config.hufHdrBytes)
    let body := S.drop (2 * Config.hufHdrBytes)
    if S.length - 2 * Config.hufHdrBytes < ts then .error .hdrShort
    else
      match decodePayload (body.drop ts) (body.take ts) n with
      | .error e => .error e
      | .ok out => .ok ⟨out, ts, n⟩

/-- HUF_ENC (R176). -/
def execHufEnc (s : State) : Host.Outcome State Fault Refusal :=
  s.performCommand false fun S _ _ => fnHufEnc S

/-- HUF_DEC (R177). -/
def execHufDec (s : State) : Host.Outcome State Fault Refusal :=
  s.performCommand false fun S _ _ => fnHufDec S

end Sys2Proof.Machine
end

