-- ==== Sys2Proof/Machine/Lzw.lean ====
section
/-!
DEFINITION. The LZW dictionary, encoder and decoder (45_lzw.md).
-/

namespace Sys2Proof.Machine

/-- The dictionary (R185): the phrases of the codes 256, 257, ... in code order. The 256 single-byte phrases under
the codes 0 to 255 are always there and never change, so they are not listed. -/
abbrev Dict := List (List Byte)

/-- NEXT_CODE (R185, R186). -/
def nextCode (d : Dict) : Nat := 256 + d.length

/-- Insertion under `next`, which does nothing once the dictionary is full (R186). -/
def insertPhrase (d : Dict) (p : List Byte) : Dict :=
  if nextCode d < Config.lzwDictCap then d ++ [p] else d

/-- The code of a phrase, if it is one (R188: `D[p]`). -/
def codeOfPhrase (d : Dict) (p : List Byte) : Option Nat :=
  match p with
  | [v] => some v.toNat
  | _ => (d.idxOf? p).map (256 + ·)

/-- The phrase of a code, if it is assigned (R190: `E[c]`). -/
def phraseOfCode (d : Dict) (c : Nat) : Option (List Byte) :=
  if c < 256 then some [BitVec.ofNat 8 c] else d[c - 256]?

/-- The encoder's loop (R188) from a dictionary and a current phrase: the codes still to emit and the final
dictionary. The current phrase is always a phrase of the dictionary or empty; the default 0 of its code is never
used. -/
def lzwEncodeFrom (d : Dict) (cur : List Byte) : List Byte → List Nat × Dict
  | [] => (if cur = [] then [] else [(codeOfPhrase d cur).getD 0], d)
  | b :: bs =>
    if (codeOfPhrase d (cur ++ [b])).isSome then lzwEncodeFrom d (cur ++ [b]) bs
    else
      ((codeOfPhrase d cur).getD 0 :: (lzwEncodeFrom (insertPhrase d (cur ++ [b])) [b] bs).1,
        (lzwEncodeFrom (insertPhrase d (cur ++ [b])) [b] bs).2)

/-- `Exec_LZW_ENC(S)` (R188). -/
def fnLzwEnc (S : List Byte) : Result :=
  match lzwEncodeFrom [] [] S with
  | (codes, d) => .ok ⟨codes.flatMap (toLE 2), nextCode d, 0⟩

/-- The current phrase for a code (R190): the entry of an assigned code, the KwKwK phrase for the next code after a
previous phrase (R191), or E_LZW_CODE (R192). -/
def currentPhrase (d : Dict) (prev : List Byte) (c : Nat) : Except ErrCode (List Byte) :=
  match phraseOfCode d c, prev with
  | some p, _ => .ok p
  | none, [] => .error .lzwCode
  | none, f :: fs => if c = nextCode d then .ok (f :: fs ++ [f]) else .error .lzwCode

/-- The insertion of one decoder round (R190): the previous phrase, if there is one, with the current one's first
byte. -/
def decoderInsert (d : Dict) (prev cur : List Byte) : Dict :=
  if prev = [] then d else insertPhrase d (prev ++ cur.take 1)

/-- The decoder's loop (R190) over the codes of a stream: the output still to come and the final dictionary. The
stream has an even number of bytes. -/
def lzwDecodeFrom (d : Dict) (prev : List Byte) : List Byte → Except ErrCode (List Byte × Dict)
  | lo :: hi :: rest =>
    match currentPhrase d prev (leValue [lo, hi]) with
    | .error e => .error e
    | .ok cur =>
      match lzwDecodeFrom (decoderInsert d prev cur) cur rest with
      | .error e => .error e
      | .ok (out, d') => .ok (cur ++ out, d')
  | _ => .ok ([], d)

/-- `Exec_LZW_DEC(S)` (R190): the length check comes before any decoding. -/
def fnLzwDec (S : List Byte) : Result :=
  if S.length % 2 = 1 then .error .lzwOdd
  else
    match lzwDecodeFrom [] [] S with
    | .error e => .error e
    | .ok (out, d) => .ok ⟨out, nextCode d, 0⟩

/-- LZW_ENC (R188). -/
def execLzwEnc (s : State) : Host.Outcome State Fault Refusal :=
  s.performCommand false fun S _ _ => fnLzwEnc S

/-- LZW_DEC (R190). -/
def execLzwDec (s : State) : Host.Outcome State Fault Refusal :=
  s.performCommand false fun S _ _ => fnLzwDec S

end Sys2Proof.Machine
end

