-- ==== Sys2Proof/Machine/Rle.lean ====
section
/-!
DEFINITION. The RLE encoder and decoder (41_rle.md).
-/

namespace Sys2Proof.Machine

/-- The records for the rest of the input, given a run of `n` bytes `v` already read (R120). -/
def rleEncodeFrom (v : Byte) (n : Nat) : List Byte → List Byte
  | [] => [BitVec.ofNat 8 n, v]
  | b :: bs =>
    if b = v ∧ n < Config.rleMaxRun then rleEncodeFrom v (n + 1) bs
    else BitVec.ofNat 8 n :: v :: rleEncodeFrom b 1 bs

/-- The record stream of an input (R77, R120). -/
def rleEncode : List Byte → List Byte
  | [] => []
  | v :: bs => rleEncodeFrom v 1 bs

/-- The bytes the records of a stream stand for (R121): a record with count 0 adds nothing. -/
def expandRecords : List Byte → List Byte
  | n :: v :: rest => List.replicate n.toNat v ++ expandRecords rest
  | _ => []

/-- `Exec_RLE_ENC(S)` (R120). -/
def fnRleEnc (S : List Byte) : Result := .ok ⟨rleEncode S, 0, 0⟩

/-- `Exec_RLE_DEC(S)` (R121): the length check comes before any decoding. -/
def fnRleDec (S : List Byte) : Result :=
  if S.length % 2 = 1 then .error .rleOdd else .ok ⟨expandRecords S, 0, 0⟩

/-- RLE_ENC (R120). -/
def execRleEnc (s : State) : Host.Outcome State Fault Refusal :=
  s.performCommand false fun S _ _ => fnRleEnc S

/-- RLE_DEC (R121). -/
def execRleDec (s : State) : Host.Outcome State Fault Refusal :=
  s.performCommand false fun S _ _ => fnRleDec S

end Sys2Proof.Machine
end

