-- ==== Sys2Proof/Machine/Dispatch.lean ====
section
/-!
DEFINITION. The dispatch of the engine's step by command (40_command.md R105). `exec i s` is the engine's whole step
for the command `i` in a state where it is enabled: `Run()`, `Commit` and the flags (R101). Whether the step is enabled
(STATUS.BUSY = 1) is Machine/Engine.lean's matter.
-/

namespace Sys2Proof.Machine

def exec (i : Instr) (s : State) : Host.Outcome State Fault Refusal :=
  match i with
  | .rleEnc => Sys2Proof.Machine.execRleEnc s
  | .rleDec => Sys2Proof.Machine.execRleDec s
  | .hufFreq => Sys2Proof.Machine.execHufFreq s
  | .hufBuild => Sys2Proof.Machine.execHufBuild s
  | .hufCodegen => Sys2Proof.Machine.execHufCodegen s
  | .hufPack => Sys2Proof.Machine.execHufPack s
  | .hufUnpack => Sys2Proof.Machine.execHufUnpack s
  | .hufEnc => Sys2Proof.Machine.execHufEnc s
  | .hufDec => Sys2Proof.Machine.execHufDec s
  | .lzwEnc => Sys2Proof.Machine.execLzwEnc s
  | .lzwDec => Sys2Proof.Machine.execLzwDec s

end Sys2Proof.Machine
end

