-- ==== Sys2Proof/Machine/Engine.lean ====
section
/-!
DEFINITION. The engine's turn (40_command.md R101, R102): the command it runs is the value of CMD, which no write can
change while BUSY (10_state.md R31, 20_memory.md R54).
-/

namespace Sys2Proof.Machine

/-- The completion of a START whose CMD encodes no command (R72, R102): E_BAD_CMD, no buffer memory touched. -/
def State.completeBadCommand (s : State) : State := s.complete (.error .badCmd)

/-- The engine's step (R101), enabled exactly when BUSY = 1; a turn given to it while it is not enabled changes
nothing. -/
def engineTurn (s : State) : Host.Outcome State Fault Refusal :=
  if s.busy then
    match decode s.cmd with
    | .ok i => exec i s
    | .error _ => .next s.completeBadCommand
  else .next s

end Sys2Proof.Machine
end

