-- ==== Sys2Proof/Machine/Bus.lean ====
section
/-!
DEFINITION. What the agents outside the engine do to the block: register reads and writes (10_state.md R17 to R31),
accesses to buffer memory (70_reset_and_hazards.md R222, R223) and reset (R215 to R217).
-/

namespace Sys2Proof.Machine

/-! ### The register window -/

/-- The byte offset of each register (R19). -/
def regOffset : Reg → Nat
  | .ctrl => 0x00
  | .status => 0x04
  | .cmd => 0x08
  | .errCode => 0x0C
  | .srcAddr => 0x10
  | .srcLen => 0x14
  | .dstAddr => 0x18
  | .dstCap => 0x1C
  | .treeAddr => 0x20
  | .treeLen => 0x24
  | .inBitsLo => 0x28
  | .inBitsHi => 0x2C
  | .resultLen => 0x30
  | .resultAux => 0x34
  | .outBitsLo => 0x38
  | .outBitsHi => 0x3C

/-- Every register of the map, in the order of its offset (R19). -/
def allRegs : List Reg :=
  [.ctrl, .status, .cmd, .errCode, .srcAddr, .srcLen, .dstAddr, .dstCap,
    .treeAddr, .treeLen, .inBitsLo, .inBitsHi, .resultLen, .resultAux, .outBitsLo, .outBitsHi]

/-- The register at an offset of the window, or none where the offset is RAZ/WI (R17, R19). -/
def regAt (offset : Nat) : Option Reg := allRegs.find? fun r => regOffset r = offset

/-- The value a read of a register returns (R19 to R30). -/
def State.regValue (s : State) : Reg → Word
  | .ctrl => s.ctrlWord
  | .status => s.statusWord
  | .cmd => s.cmd
  | .errCode => s.errCode.zeroExtend 32
  | .srcAddr => s.srcAddr
  | .srcLen => s.srcLen
  | .dstAddr => s.dstAddr
  | .dstCap => s.dstCap
  | .treeAddr => s.treeAddr
  | .treeLen => s.treeLen
  | .inBitsLo => s.inBitsLo
  | .inBitsHi => s.inBitsHi
  | .resultLen => s.resultLen
  | .resultAux => s.resultAux
  | .outBitsLo => s.outBitsLo
  | .outBitsHi => s.outBitsHi

/-- The value a 32-bit read at an aligned offset of the window returns: 0 where the offset is RAZ/WI (R17). -/
def State.windowValue (s : State) (offset : Nat) : Word :=
  match regAt offset with
  | some r => s.regValue r
  | none => 0

/-- A write of `w` to CTRL while BUSY = 0 (R20, R100): IE takes bit 1, then bit 0 starts the command in CMD. -/
def State.writeCtrl (s : State) (w : Word) : State :=
  if w.getLsbD 0 then { s with ie := w.getLsbD 1 }.start else { s with ie := w.getLsbD 1 }

/-- A write of `w` to a register while BUSY = 0 (R19 to R30): RO registers ignore it. -/
def State.writeReg (s : State) (w : Word) : Reg → State
  | .ctrl => s.writeCtrl w
  | .status => s.acknowledge w
  | .cmd => { s with cmd := w }
  | .errCode => s
  | .srcAddr => { s with srcAddr := w }
  | .srcLen => { s with srcLen := w }
  | .dstAddr => { s with dstAddr := w }
  | .dstCap => { s with dstCap := w }
  | .treeAddr => { s with treeAddr := w }
  | .treeLen => { s with treeLen := w }
  | .inBitsLo => { s with inBitsLo := w }
  | .inBitsHi => { s with inBitsHi := w }
  | .resultLen => s
  | .resultAux => s
  | .outBitsLo => s
  | .outBitsHi => s

/-- A 32-bit write at an aligned offset of the window: lost while BUSY = 1 (R31), ignored at a RAZ/WI offset (R17). -/
def State.writeWindow (s : State) (offset : Nat) (w : Word) : State :=
  if s.busy then s
  else
    match regAt offset with
    | some r => s.writeReg w r
    | none => s

/-- The host has read a value at an offset of the window: what it knows, and whether it has observed DONE = 1 in STATUS
since the last START (R21, R227). -/
def State.hostSaw (s : State) (offset : Nat) (value : Word) : State :=
  { s with
    readback := .register offset value
    seenDone := s.seenDone || (decide (offset = regOffset .status) && value.getLsbD 1) }

/-- A host read of the register window (R17, R18): no side effect on the block (R31). -/
def hostRegRead (access : BusAccess) (s : State) : Host.Outcome State Fault Refusal :=
  if ¬ access.InWindow s.platform then .refused (.outsideWindow access)
  else if ¬ access.WellFormed s.platform then .refused (.registerAccess access)
  else .next (s.hostSaw (access.offset s.platform) (s.windowValue (access.offset s.platform)))

/-- A host write of the register window (R17, R18). -/
def hostRegWrite (access : BusAccess) (w : Word) (s : State) : Host.Outcome State Fault Refusal :=
  if ¬ access.InWindow s.platform then .refused (.outsideWindow access)
  else if ¬ access.WellFormed s.platform then .refused (.registerAccess access)
  else .next (s.writeWindow (access.offset s.platform) w)

/-! ### Buffer memory -/

/-- The running command uses the tree buffer: CMD holds the word of HUF_PACK or HUF_UNPACK (R26, R74). -/
def State.cmdUsesTree (s : State) : Bool :=
  match decode s.cmd with
  | .ok i => usesTree i
  | .error _ => false

/-- No agent may write this address now (R222): BUSY is 1 and the address is a byte of the source, the destination or,
if the command uses it, the tree buffer. -/
abbrev State.Locked (s : State) (a : Nat) : Prop :=
  s.busy = true ∧ (s.src.Contains a ∨ s.dst.Contains a ∨ (s.cmdUsesTree = true ∧ s.tree.Contains a))

/-- A host read of one byte of buffer memory: its content, but a draw for a destination byte while BUSY (R222, U4). -/
def hostMemRead (addr : Word) (s : State) : Host.Outcome State Fault Refusal :=
  if s.platform.memSize ≤ addr.toNat then .fault (.noSuchAddress addr)
  else if s.busy = true ∧ s.dst.Contains addr.toNat then
    .next { s with readback := .byte addr (Config.freeByte s.drawCount), drawCount := s.drawCount + 1 }
  else .next { s with readback := .byte addr (s.mem.read addr.toNat) }

/-- A write of one byte of buffer memory by any agent outside the engine: a fault in a locked buffer (R222), allowed
elsewhere (R223). -/
def hostMemWrite (addr : Word) (b : Byte) (s : State) : Host.Outcome State Fault Refusal :=
  if s.platform.memSize ≤ addr.toNat then .fault (.noSuchAddress addr)
  else if s.Locked addr.toNat then .fault (.lockedBufferWrite addr)
  else .next { s with mem := s.mem.writeBytes addr.toNat [b] }

/-! ### Reset -/

/-- The number of destination bytes that exist: the part of the buffer below MEM_SIZE. -/
def State.dstBytesInMemory (s : State) : Nat := min s.dst.len (s.platform.memSize - s.dst.start)

/-- Every register at its reset value (R215, R216); buffer memory, the platform and the model's own fields as they
are. -/
def State.resetRegisters (s : State) : State :=
  { State.resetOn s.platform with
    mem := s.mem, drawCount := s.drawCount
    schedule := s.schedule, readback := s.readback, seenDone := s.seenDone }

/-- The reset input (R215 to R217): a command it abandons leaves unspecified bytes in its destination buffer. -/
def State.applyReset (s : State) : State :=
  if s.busy then (s.drawInto s.dst.start s.dstBytesInMemory).resetRegisters else s.resetRegisters

/-! ### Actions -/

/-- One poll of `WAIT` (R85): a read of STATUS. While DONE reads 0 the host polls again, and the engine has its turn
before that (R225). -/
def pollStatus (s : State) : State :=
  if s.done then s.hostSaw (regOffset .status) s.statusWord
  else { s with schedule := .engine :: .wait :: s.schedule }.hostSaw (regOffset .status) s.statusWord

/-- One move of an agent. -/
def perform (a : Action) (s : State) : Host.Outcome State Fault Refusal :=
  match a with
  | .engine => engineTurn s
  | .reset => .next s.applyReset
  | .regRead access => hostRegRead access s
  | .regWrite access w => hostRegWrite access w s
  | .memRead addr => hostMemRead addr s
  | .memWrite addr b => hostMemWrite addr b s
  | .wait => .next (pollStatus s)

/-- The next move of the machine: the schedule's first, or the engine's turn when the schedule is empty (R225). With
an empty schedule and BUSY = 0 the block is idle and nothing changes (R216). -/
def moveNext (s : State) : Host.Outcome State Fault Refusal :=
  match s.schedule with
  | [] => engineTurn s
  | a :: rest => perform a { s with schedule := rest }

/-- A command word placed to run next: CMD holds it, a START has been written (R100), and no other agent moves before
the engine. -/
def State.placeCommand (s : State) (w : Word) : State := { s with cmd := w, schedule := [] }.start

end Sys2Proof.Machine
end

