-- ==== Sys2Proof/Machine/HostProgram.lean ====
section
/-!
DEFINITION. Host programs (30_encoding.md R84, R85): the lines of the spec's syntax and the bus actions they stand for.
-/

namespace Sys2Proof.Machine

/-- The three buffers that `SETBUF` names (R85). -/
inductive BufferName where
  | src | dst | tree
  deriving DecidableEq, Repr

/-- A line of a host program (R84) or a pseudo-instruction (R85). -/
inductive HostLine where
  /-- `WR <REG>, <v>`. -/
  | wr (r : Reg) (v : Word)
  /-- `RD <REG>`. -/
  | rd (r : Reg)
  /-- `MEM <addr>: <b0> <b1> ...`: bytes in buffer memory before the program runs. -/
  | mem (addr : Nat) (bytes : List Byte)
  /-- `START <MNEMONIC>`. -/
  | start (i : Instr)
  /-- `STARTI <MNEMONIC>`: START with the completion interrupt enabled. -/
  | starti (i : Instr)
  /-- `WAIT`. -/
  | wait
  /-- `ACK`. -/
  | ack
  /-- `SETBUF <buffer>, <a>, <n>`. -/
  | setbuf (which : BufferName) (a n : Word)
  deriving DecidableEq, Repr

/-- The bus access of `WR` and `RD` (R84): 32 bits at `REG_BASE + offset(REG)`. -/
def regAccess (p : Platform) (r : Reg) : BusAccess := ⟨p.regBase + regOffset r, 4⟩

/-- `WR <REG>, <v>` as a move of the host (R84). -/
def wrAction (p : Platform) (r : Reg) (v : Word) : Action := .regWrite (regAccess p r) v

/-- The two registers of a buffer (R85). -/
def bufferRegs : BufferName → Reg × Reg
  | .src => (.srcAddr, .srcLen)
  | .dst => (.dstAddr, .dstCap)
  | .tree => (.treeAddr, .treeLen)

/-- The bus actions of a line (R84, R85). A `MEM` directive has none. -/
def lineActions (p : Platform) : HostLine → List Action
  | .wr r v => [wrAction p r v]
  | .rd r => [.regRead (regAccess p r)]
  | .mem _ _ => []
  | .start i => [wrAction p .cmd (encode i), wrAction p .ctrl 0x1]
  | .starti i => [wrAction p .cmd (encode i), wrAction p .ctrl 0x3]
  | .wait => [.wait]
  | .ack => [wrAction p .status 0x6]
  | .setbuf which a n => [wrAction p (bufferRegs which).1 a, wrAction p (bufferRegs which).2 n]

/-- The memory that the `MEM` directives of a program lay down (R84). -/
def programMemory (m : Memory) : List HostLine → Memory
  | [] => m
  | .mem a bytes :: rest => programMemory (m.writeBytes a bytes) rest
  | .wr _ _ :: rest => programMemory m rest
  | .rd _ :: rest => programMemory m rest
  | .start _ :: rest => programMemory m rest
  | .starti _ :: rest => programMemory m rest
  | .wait :: rest => programMemory m rest
  | .ack :: rest => programMemory m rest
  | .setbuf _ _ _ :: rest => programMemory m rest

/-- A state in which the host is about to run a program (R84): its `MEM` bytes in place, its bus actions next in the
schedule, none of its commands' completion observed yet (R227). -/
def State.loadProgram (s : State) (lines : List HostLine) : State :=
  { s with
    mem := programMemory s.mem lines
    schedule := lines.flatMap (lineActions s.platform) ++ s.schedule
    seenDone := false }

end Sys2Proof.Machine
end

