-- ==== Sys2Proof/Machine/Step.lean ====
section
/-!
DEFINITION. One step of the machine: one move of the host, the engine or the reset input (10_state.md R16).
-/

namespace Sys2Proof.Machine

/-- One step: the next move of the schedule, or the engine's turn. -/
def step (s : State) : Host.Outcome State Fault Refusal := moveNext s

/-- The state with the instruction whose table bits are `w` placed where the engine takes its next command: CMD, with
BUSY set as a START sets it. The bits above `nbits` are 0. -/
def State.withFetchWord (s : State) (nbits w : Nat) : State :=
  s.placeCommand (BitVec.ofNat 32 (w % 2 ^ nbits))

end Sys2Proof.Machine
end

