-- ==== Sys2Proof/Safety.lean ====
section
/-!
DEFINITION. What statements about the machine are phrased with: the machine's invariant, the conditions on a command's
buffers, what a completed command leaves, what a step may not change, the end of a run (70_reset_and_hazards.md R227).
-/

namespace Sys2Proof.Machine

/-! ### The function of each command -/

/-- The table of R105: the function each command applies to its source bytes, tree bytes and IN_BITS. -/
def commandFunction : Instr → List Byte → List Byte → Nat → Result
  | .rleEnc, S, _, _ => fnRleEnc S
  | .rleDec, S, _, _ => fnRleDec S
  | .hufFreq, S, _, _ => fnHufFreq S
  | .hufBuild, S, _, _ => fnHufBuild S
  | .hufCodegen, S, _, _ => fnHufCodegen S
  | .hufPack, S, TB, _ => fnHufPack S TB
  | .hufUnpack, S, TB, NB => fnHufUnpack S TB NB
  | .hufEnc, S, _, _ => fnHufEnc S
  | .hufDec, S, _, _ => fnHufDec S
  | .lzwEnc, S, _, _ => fnLzwEnc S
  | .lzwDec, S, _, _ => fnLzwDec S

/-- The source bytes of a state (R44). -/
def State.srcBytes (s : State) : List Byte := s.bufferBytes s.src

/-- The tree bytes of a state (R44). -/
def State.treeBytes (s : State) : List Byte := s.bufferBytes s.tree

/-- The outcome of a command's function on the operands a state holds (R102, R105): the tree bytes only where the
command uses them. -/
def State.functionResult (s : State) (i : Instr) : Result :=
  commandFunction i s.srcBytes (if usesTree i then s.treeBytes else []) s.inBits

/-! ### The checks of R102 -/

/-- Every buffer a command uses is in range (R47). -/
abbrev State.BuffersInRange (s : State) (i : Instr) : Prop :=
  s.src.InRange s.platform.memSize ∧ (usesTree i = true → s.tree.InRange s.platform.memSize) ∧
    s.dst.InRange s.platform.memSize

/-- The destination overlaps no buffer the command reads (R48). -/
abbrev State.DestinationApart (s : State) (i : Instr) : Prop :=
  ¬ s.dst.Overlaps s.src ∧ (usesTree i = true → ¬ s.dst.Overlaps s.tree)

/-- The buffers pass every check that comes before a command reads memory (R102). -/
abbrev State.BuffersPass (s : State) (i : Instr) : Prop := s.BuffersInRange i ∧ s.DestinationApart i

/-! ### What a step leaves -/

/-- Nothing but the flags, the error code, the result registers, buffer memory and the count of draws differs. -/
abbrev State.SameOperands (s t : State) : Prop :=
  t.platform = s.platform ∧ t.ie = s.ie ∧ t.cmd = s.cmd ∧
    t.srcAddr = s.srcAddr ∧ t.srcLen = s.srcLen ∧ t.dstAddr = s.dstAddr ∧ t.dstCap = s.dstCap ∧
    t.treeAddr = s.treeAddr ∧ t.treeLen = s.treeLen ∧ t.inBitsLo = s.inBitsLo ∧ t.inBitsHi = s.inBitsHi ∧
    t.schedule = s.schedule ∧ t.readback = s.readback ∧ t.seenDone = s.seenDone

/-- The result registers and ERR_CODE are the same (R51). -/
abbrev State.SameResults (s t : State) : Prop :=
  t.errCode = s.errCode ∧ t.resultLen = s.resultLen ∧ t.resultAux = s.resultAux ∧
    t.outBitsLo = s.outBitsLo ∧ t.outBitsHi = s.outBitsHi

/-- Every byte of buffer memory outside the `n` bytes from address `a` on reads the same. -/
def State.SameMemoryOutside (s t : State) (a n : Nat) : Prop :=
  ∀ x, ¬ (a ≤ x ∧ x < a + n) → t.mem.read x = s.mem.read x

/-- `t` is `s` after a command that succeeded with `o` (R75, R101, R104): the output in the first bytes of the
destination buffer, every other byte unchanged, the results as numbers, and the operands as they were. -/
def State.CompletedWith (s t : State) (o : Output) : Prop :=
  t.busy = false ∧ t.done = true ∧ t.err = false ∧ t.errCode = 0 ∧
    t.resultLen.toNat = o.out.length ∧ t.resultAux.toNat = o.aux ∧ t.outBits = o.bits ∧
    t.mem.readBytes s.dst.start o.out.length = o.out ∧
    s.SameMemoryOutside t s.dst.start o.out.length ∧ s.SameOperands t

/-- `t` is `s` after a command that failed with `e` (R104, R204): the error record, no result, memory unchanged outside
the destination buffer, and everywhere if the error is one of the first three. -/
def State.FailedWith (s t : State) (e : ErrCode) : Prop :=
  t.busy = false ∧ t.done = true ∧ t.err = true ∧ t.errCode = errorByte e ∧
    t.resultLen = 0 ∧ t.resultAux = 0 ∧ t.outBits = 0 ∧
    (leavesMemory e = true → t.mem = s.mem) ∧
    s.SameMemoryOutside t s.dst.start s.dst.len ∧ s.SameOperands t

/-! ### The next move -/

/-- The next move is a write, while BUSY = 0, of a register at this offset of the window with this bit 1: at offset 0x00
with bit 0 a START (R100), at offset 0x04 with bit 1 or 2 a W1C of DONE or of ERR (R21). -/
def State.NextSetsBit (s : State) (offset bit : Nat) : Prop :=
  s.busy = false ∧ ∃ acc w rest, s.schedule = .regWrite acc w :: rest ∧ acc.WellFormed s.platform ∧
    acc.offset s.platform = offset ∧ w.getLsbD bit = true

/-- The next move is the engine's turn: it is scheduled, or nothing is (log entry 4). -/
abbrev State.NextIsEngine (s : State) : Prop := s.schedule = [] ∨ s.schedule.head? = some .engine

/-! ### The invariant -/

/-- ERR_CODE holds one of the codes of R200. -/
abbrev State.ErrCodeListed (s : State) : Prop := s.errCode = 0 ∨ ∃ e : ErrCode, s.errCode = errorByte e

/-- The result registers read 0. -/
abbrev State.NoResult (s : State) : Prop :=
  s.resultLen = 0 ∧ s.resultAux = 0 ∧ s.outBitsLo = 0 ∧ s.outBitsHi = 0

/-- What holds of the block in every state a run reaches: the platform is one R9 allows, memory is in canonical form
and inside MEM_SIZE (R38), a running command has nothing to report yet (R21, R28 to R30, R100) and none that the host has observed (R227), an error code goes with
no result (R204), ERR goes with an error code (R21, R23), and ERR_CODE is one of the listed codes (R200). -/
structure State.Inv (s : State) : Prop where
  platform : s.platform.WellFormed
  memory : s.mem.wf
  inMemory : ∀ c ∈ s.mem, c.1 < s.platform.memSize
  running : s.busy = true → s.done = false ∧ s.err = false ∧ s.errCode = 0 ∧ s.NoResult
  unobserved : s.busy = true → s.seenDone = false
  failed : s.errCode ≠ 0 → s.NoResult
  reported : s.err = true → s.errCode ≠ 0
  listed : s.ErrCodeListed

/-! ### RLE records -/

/-- The records `(count, value)` of a record stream (R77). -/
def rleRecords : List Byte → List (Byte × Byte)
  | n :: v :: rest => (n, v) :: rleRecords rest
  | _ => []

/-- A stream of the form the encoder writes (R77, R120): whole records, no count 0, and two records of one value in
succession only after a count of 255. -/
def RleMaximal (stream : List Byte) : Prop :=
  stream.length % 2 = 0 ∧ (∀ r ∈ rleRecords stream, r.1 ≠ 0) ∧
    (rleRecords stream).IsChain fun r q => r.2 = q.2 → r.1 = 255

/-! ### Codes -/

/-- The codes of a message's bytes, one after the other (R140), each of which has one. -/
def messageBits (t : Tree) (msg : List Byte) : Bits := msg.flatMap fun b => (codeOf t b).getD []

/-- Every byte of the message has a code (R139). -/
def AllCoded (t : Tree) (msg : List Byte) : Prop := ∀ b ∈ msg, codeOf t b ≠ none

/-- A tree `LoadTree` accepts or `Build` makes (R138). -/
def LegalTree (t : Tree) : Prop := (∃ T, loadTree T = .ok (some t)) ∨ ∃ S, build S = some t

/-! ### Trees -/

/-- The leaf symbols of a tree in pre-order. -/
def treeSymbols : Tree → List Byte
  | .leaf s => [s]
  | .node l r => treeSymbols l ++ treeSymbols r

/-- The number of internal nodes of a tree (R170). -/
def internalCount : Tree → Nat
  | .leaf _ => 0
  | .node l r => internalCount l + internalCount r + 1

/-- The largest number of internal nodes on a path from the root to a leaf (R170). -/
def treeDepth : Tree → Nat
  | .leaf _ => 0
  | .node l r => max (treeDepth l) (treeDepth r) + 1

/-- The symbol of the leaf that a path from the root leads to, 0 to the left and 1 to the right (R4, R137, R143); none
where the path ends above a leaf or goes past one. -/
def leafAt : Tree → Bits → Option Byte
  | .leaf s, [] => some s
  | .leaf _, _ :: _ => none
  | .node _ _, [] => none
  | .node l _, false :: p => leafAt l p
  | .node _ r, true :: p => leafAt r p

/-- `e` is less than `f` in the lexicographic order of `(weight, seq)` (R134). -/
abbrev PoolEntry.Less (e f : PoolEntry) : Prop := e.weight < f.weight ∨ (e.weight = f.weight ∧ e.seq < f.seq)

/-- The loop of R134 from sequence number `q` on takes a pool to a tree: while there are two entries, the least one `a`
and the least other one `b` are replaced by one of their weights' sum, with `a` on the left. -/
inductive Merges : Nat → List PoolEntry → Tree → Prop where
  | last (q : Nat) (e : PoolEntry) : Merges q [e] e.node
  | round {q : Nat} {pool : List PoolEntry} {t : Tree} (a b : PoolEntry) (others : List PoolEntry)
      (all : (a :: b :: others).Perm pool) (first : ∀ f ∈ b :: others, a.Less f) (second : ∀ f ∈ others, b.Less f)
      (rest : Merges (q + 1) (others ++ [⟨a.weight + b.weight, q, .node a.node b.node⟩]) t) : Merges q pool t

/-! ### Serialized trees that have begun

Where `Deser` expects a marker (R162) it has read some internal markers whose node is not complete, the outermost first,
each with no subtree yet (`none`) or with its whole left one (`some l`). -/

/-- The bytes read so far. -/
def openBytes : List (Option Tree) → List Byte
  | [] => []
  | none :: os => 0x02 :: openBytes os
  | some l :: os => 0x02 :: (ser l ++ openBytes os)

/-- The symbols of the leaves read so far. -/
def openSymbols : List (Option Tree) → List Byte
  | [] => []
  | none :: os => openSymbols os
  | some l :: os => treeSymbols l ++ openSymbols os

/-- The number of internal markers read so far. -/
def openInternals : List (Option Tree) → Nat
  | [] => 0
  | none :: os => 1 + openInternals os
  | some l :: os => 1 + internalCount l + openInternals os

/-! ### LZW code streams -/

/-- The code at position `j` of a stream decodes to the phrase `p`: what the decoder's output gains by it (R190). -/
def LzwPhraseAt (S : List Byte) (j : Nat) (p : List Byte) : Prop :=
  2 * (j + 1) ≤ S.length ∧ ∃ o n n', fnLzwDec (S.take (2 * j)) = .ok ⟨o, n, 0⟩ ∧
    fnLzwDec (S.take (2 * (j + 1))) = .ok ⟨o ++ p, n', 0⟩

/-- The phrases under the codes 256, 257, ... when the encoder emits the code of the phrase at position `j` of `ps`:
each phrase emitted before, with the first byte of the one after it, up to the dictionary's cap (R186, R188). -/
def lzwInserted (ps : List (List Byte)) (j : Nat) : List (List Byte) :=
  (List.range (min j (65536 - 256))).map fun i => ps.getD i [] ++ (ps.getD (i + 1) []).take 1

/-- `p` is the phrase of code `c` in a dictionary with these inserted phrases (R185). -/
def IsLzwEntry (inserted : List (List Byte)) (c : Nat) (p : List Byte) : Prop :=
  (∃ v : Byte, p = [v] ∧ c = v.toNat) ∨ (256 ≤ c ∧ inserted[c - 256]? = some p)

/-- The stream is the greedy one of R188: its codes are those of phrases that make up the input, each in the dictionary
when its code is emitted, while the phrase with the input's next byte is not. -/
def LzwGreedy (input stream : List Byte) : Prop :=
  ∃ ps : List (List Byte), ps.flatten = input ∧ stream.length = 2 * ps.length ∧
    ∀ j < ps.length, IsLzwEntry (lzwInserted ps j) (leValue ((stream.drop (2 * j)).take 2)) (ps.getD j []) ∧
      (j + 1 < ps.length → ∀ c, ¬ IsLzwEntry (lzwInserted ps j) c (ps.getD j [] ++ (ps.getD (j + 1) []).take 1))

/-! ### Runs -/

/-- What is observed at the end of a run (R227): buffer memory and the registers. -/
structure Observation where
  memory : Memory
  registers : List (Reg × Word)
  deriving DecidableEq, Repr

/-- The observation of a state (R227). -/
def State.observe (s : State) : Observation :=
  { memory := s.mem, registers := allRegs.map fun r => (r, s.regValue r) }

/-- The action is a write of START (R100). -/
def Action.isStart (p : Platform) : Action → Bool
  | .engine => false
  | .reset => false
  | .regRead _ => false
  | .regWrite acc w => decide (acc.WellFormed p) && decide (acc.offset p = regOffset .ctrl) && w.getLsbD 0
  | .memRead _ => false
  | .memWrite _ _ => false
  | .wait => false

/-- A run has ended (R227): the host has observed DONE = 1 for the last command it started, and it starts no other. What
else it does after that (it reads results, say) is no matter. -/
abbrev State.RunEnded (s : State) : Prop :=
  s.seenDone = true ∧ ∀ a ∈ s.schedule, a.isStart s.platform = false

/-- The run from a state ends with an observation (R227): without a fault or a refusal a state is reached in which the
run has ended, and the observation is that of the first such state. -/
def State.RunEndsWith (s : State) (o : Observation) : Prop :=
  ∃ k t, Sys2Proof.core.run k s = .next t ∧ t.RunEnded ∧ t.observe = o ∧
    ∀ j < k, ∀ u, Sys2Proof.core.run j s = .next u → ¬ u.RunEnded

/-- A safe run of `k` steps from a state: no step of it stops with a fault or a refusal (R222, R18). -/
def State.SafeFor (s : State) (k : Nat) : Prop := ∃ t, Sys2Proof.core.run k s = .next t

end Sys2Proof.Machine
end

