-- ==== Sys2Proof/Laws/State.lean ====
section
/-!
SUPPORT. One lemma per field per update of the state, true by unfolding, so that no proof unfolds a record update.
-/

namespace Sys2Proof.Machine

@[simp] theorem State.start_platform (s : State) : s.start.platform = s.platform := rfl
@[simp] theorem State.start_ie (s : State) : s.start.ie = s.ie := rfl
@[simp] theorem State.start_busy (s : State) : s.start.busy = true := rfl
@[simp] theorem State.start_done (s : State) : s.start.done = false := rfl
@[simp] theorem State.start_err (s : State) : s.start.err = false := rfl
@[simp] theorem State.start_cmd (s : State) : s.start.cmd = s.cmd := rfl
@[simp] theorem State.start_errCode (s : State) : s.start.errCode = 0 := rfl
@[simp] theorem State.start_srcAddr (s : State) : s.start.srcAddr = s.srcAddr := rfl
@[simp] theorem State.start_srcLen (s : State) : s.start.srcLen = s.srcLen := rfl
@[simp] theorem State.start_dstAddr (s : State) : s.start.dstAddr = s.dstAddr := rfl
@[simp] theorem State.start_dstCap (s : State) : s.start.dstCap = s.dstCap := rfl
@[simp] theorem State.start_treeAddr (s : State) : s.start.treeAddr = s.treeAddr := rfl
@[simp] theorem State.start_treeLen (s : State) : s.start.treeLen = s.treeLen := rfl
@[simp] theorem State.start_inBitsLo (s : State) : s.start.inBitsLo = s.inBitsLo := rfl
@[simp] theorem State.start_inBitsHi (s : State) : s.start.inBitsHi = s.inBitsHi := rfl
@[simp] theorem State.start_resultLen (s : State) : s.start.resultLen = 0 := rfl
@[simp] theorem State.start_resultAux (s : State) : s.start.resultAux = 0 := rfl
@[simp] theorem State.start_outBitsLo (s : State) : s.start.outBitsLo = 0 := rfl
@[simp] theorem State.start_outBitsHi (s : State) : s.start.outBitsHi = 0 := rfl
@[simp] theorem State.start_mem (s : State) : s.start.mem = s.mem := rfl
@[simp] theorem State.start_drawCount (s : State) : s.start.drawCount = s.drawCount := rfl
@[simp] theorem State.start_schedule (s : State) : s.start.schedule = s.schedule := rfl
@[simp] theorem State.start_readback (s : State) : s.start.readback = s.readback := rfl
@[simp] theorem State.start_seenDone (s : State) : s.start.seenDone = false := rfl

@[simp] theorem State.acknowledge_platform (s : State) (w : Word) : (s.acknowledge w).platform = s.platform := rfl
@[simp] theorem State.acknowledge_ie (s : State) (w : Word) : (s.acknowledge w).ie = s.ie := rfl
@[simp] theorem State.acknowledge_busy (s : State) (w : Word) : (s.acknowledge w).busy = s.busy := rfl
@[simp] theorem State.acknowledge_done (s : State) (w : Word) : (s.acknowledge w).done = (s.done && !w.getLsbD 1) := rfl
@[simp] theorem State.acknowledge_err (s : State) (w : Word) : (s.acknowledge w).err = (s.err && !w.getLsbD 2) := rfl
@[simp] theorem State.acknowledge_cmd (s : State) (w : Word) : (s.acknowledge w).cmd = s.cmd := rfl
@[simp] theorem State.acknowledge_errCode (s : State) (w : Word) : (s.acknowledge w).errCode = s.errCode := rfl
@[simp] theorem State.acknowledge_srcAddr (s : State) (w : Word) : (s.acknowledge w).srcAddr = s.srcAddr := rfl
@[simp] theorem State.acknowledge_srcLen (s : State) (w : Word) : (s.acknowledge w).srcLen = s.srcLen := rfl
@[simp] theorem State.acknowledge_dstAddr (s : State) (w : Word) : (s.acknowledge w).dstAddr = s.dstAddr := rfl
@[simp] theorem State.acknowledge_dstCap (s : State) (w : Word) : (s.acknowledge w).dstCap = s.dstCap := rfl
@[simp] theorem State.acknowledge_treeAddr (s : State) (w : Word) : (s.acknowledge w).treeAddr = s.treeAddr := rfl
@[simp] theorem State.acknowledge_treeLen (s : State) (w : Word) : (s.acknowledge w).treeLen = s.treeLen := rfl
@[simp] theorem State.acknowledge_inBitsLo (s : State) (w : Word) : (s.acknowledge w).inBitsLo = s.inBitsLo := rfl
@[simp] theorem State.acknowledge_inBitsHi (s : State) (w : Word) : (s.acknowledge w).inBitsHi = s.inBitsHi := rfl
@[simp] theorem State.acknowledge_resultLen (s : State) (w : Word) : (s.acknowledge w).resultLen = s.resultLen := rfl
@[simp] theorem State.acknowledge_resultAux (s : State) (w : Word) : (s.acknowledge w).resultAux = s.resultAux := rfl
@[simp] theorem State.acknowledge_outBitsLo (s : State) (w : Word) : (s.acknowledge w).outBitsLo = s.outBitsLo := rfl
@[simp] theorem State.acknowledge_outBitsHi (s : State) (w : Word) : (s.acknowledge w).outBitsHi = s.outBitsHi := rfl
@[simp] theorem State.acknowledge_mem (s : State) (w : Word) : (s.acknowledge w).mem = s.mem := rfl
@[simp] theorem State.acknowledge_drawCount (s : State) (w : Word) : (s.acknowledge w).drawCount = s.drawCount := rfl
@[simp] theorem State.acknowledge_schedule (s : State) (w : Word) : (s.acknowledge w).schedule = s.schedule := rfl
@[simp] theorem State.acknowledge_readback (s : State) (w : Word) : (s.acknowledge w).readback = s.readback := rfl
@[simp] theorem State.acknowledge_seenDone (s : State) (w : Word) : (s.acknowledge w).seenDone = s.seenDone := rfl

@[simp] theorem State.setCompletionFlags_platform (s : State) : s.setCompletionFlags.platform = s.platform := rfl
@[simp] theorem State.setCompletionFlags_ie (s : State) : s.setCompletionFlags.ie = s.ie := rfl
@[simp] theorem State.setCompletionFlags_busy (s : State) : s.setCompletionFlags.busy = false := rfl
@[simp] theorem State.setCompletionFlags_done (s : State) : s.setCompletionFlags.done = true := rfl
@[simp] theorem State.setCompletionFlags_err (s : State) : s.setCompletionFlags.err = (s.errCode != 0) := rfl
@[simp] theorem State.setCompletionFlags_cmd (s : State) : s.setCompletionFlags.cmd = s.cmd := rfl
@[simp] theorem State.setCompletionFlags_errCode (s : State) : s.setCompletionFlags.errCode = s.errCode := rfl
@[simp] theorem State.setCompletionFlags_srcAddr (s : State) : s.setCompletionFlags.srcAddr = s.srcAddr := rfl
@[simp] theorem State.setCompletionFlags_srcLen (s : State) : s.setCompletionFlags.srcLen = s.srcLen := rfl
@[simp] theorem State.setCompletionFlags_dstAddr (s : State) : s.setCompletionFlags.dstAddr = s.dstAddr := rfl
@[simp] theorem State.setCompletionFlags_dstCap (s : State) : s.setCompletionFlags.dstCap = s.dstCap := rfl
@[simp] theorem State.setCompletionFlags_treeAddr (s : State) : s.setCompletionFlags.treeAddr = s.treeAddr := rfl
@[simp] theorem State.setCompletionFlags_treeLen (s : State) : s.setCompletionFlags.treeLen = s.treeLen := rfl
@[simp] theorem State.setCompletionFlags_inBitsLo (s : State) : s.setCompletionFlags.inBitsLo = s.inBitsLo := rfl
@[simp] theorem State.setCompletionFlags_inBitsHi (s : State) : s.setCompletionFlags.inBitsHi = s.inBitsHi := rfl
@[simp] theorem State.setCompletionFlags_resultLen (s : State) : s.setCompletionFlags.resultLen = s.resultLen := rfl
@[simp] theorem State.setCompletionFlags_resultAux (s : State) : s.setCompletionFlags.resultAux = s.resultAux := rfl
@[simp] theorem State.setCompletionFlags_outBitsLo (s : State) : s.setCompletionFlags.outBitsLo = s.outBitsLo := rfl
@[simp] theorem State.setCompletionFlags_outBitsHi (s : State) : s.setCompletionFlags.outBitsHi = s.outBitsHi := rfl
@[simp] theorem State.setCompletionFlags_mem (s : State) : s.setCompletionFlags.mem = s.mem := rfl
@[simp] theorem State.setCompletionFlags_drawCount (s : State) : s.setCompletionFlags.drawCount = s.drawCount := rfl
@[simp] theorem State.setCompletionFlags_schedule (s : State) : s.setCompletionFlags.schedule = s.schedule := rfl
@[simp] theorem State.setCompletionFlags_readback (s : State) : s.setCompletionFlags.readback = s.readback := rfl
@[simp] theorem State.setCompletionFlags_seenDone (s : State) : s.setCompletionFlags.seenDone = s.seenDone := rfl

@[simp] theorem State.drawInto_platform (s : State) (a n : Nat) : (s.drawInto a n).platform = s.platform := rfl
@[simp] theorem State.drawInto_ie (s : State) (a n : Nat) : (s.drawInto a n).ie = s.ie := rfl
@[simp] theorem State.drawInto_busy (s : State) (a n : Nat) : (s.drawInto a n).busy = s.busy := rfl
@[simp] theorem State.drawInto_done (s : State) (a n : Nat) : (s.drawInto a n).done = s.done := rfl
@[simp] theorem State.drawInto_err (s : State) (a n : Nat) : (s.drawInto a n).err = s.err := rfl
@[simp] theorem State.drawInto_cmd (s : State) (a n : Nat) : (s.drawInto a n).cmd = s.cmd := rfl
@[simp] theorem State.drawInto_errCode (s : State) (a n : Nat) : (s.drawInto a n).errCode = s.errCode := rfl
@[simp] theorem State.drawInto_srcAddr (s : State) (a n : Nat) : (s.drawInto a n).srcAddr = s.srcAddr := rfl
@[simp] theorem State.drawInto_srcLen (s : State) (a n : Nat) : (s.drawInto a n).srcLen = s.srcLen := rfl
@[simp] theorem State.drawInto_dstAddr (s : State) (a n : Nat) : (s.drawInto a n).dstAddr = s.dstAddr := rfl
@[simp] theorem State.drawInto_dstCap (s : State) (a n : Nat) : (s.drawInto a n).dstCap = s.dstCap := rfl
@[simp] theorem State.drawInto_treeAddr (s : State) (a n : Nat) : (s.drawInto a n).treeAddr = s.treeAddr := rfl
@[simp] theorem State.drawInto_treeLen (s : State) (a n : Nat) : (s.drawInto a n).treeLen = s.treeLen := rfl
@[simp] theorem State.drawInto_inBitsLo (s : State) (a n : Nat) : (s.drawInto a n).inBitsLo = s.inBitsLo := rfl
@[simp] theorem State.drawInto_inBitsHi (s : State) (a n : Nat) : (s.drawInto a n).inBitsHi = s.inBitsHi := rfl
@[simp] theorem State.drawInto_resultLen (s : State) (a n : Nat) : (s.drawInto a n).resultLen = s.resultLen := rfl
@[simp] theorem State.drawInto_resultAux (s : State) (a n : Nat) : (s.drawInto a n).resultAux = s.resultAux := rfl
@[simp] theorem State.drawInto_outBitsLo (s : State) (a n : Nat) : (s.drawInto a n).outBitsLo = s.outBitsLo := rfl
@[simp] theorem State.drawInto_outBitsHi (s : State) (a n : Nat) : (s.drawInto a n).outBitsHi = s.outBitsHi := rfl
@[simp] theorem State.drawInto_mem (s : State) (a n : Nat) : (s.drawInto a n).mem = s.mem.writeBytes a (drawBytes s.drawCount n) := rfl
@[simp] theorem State.drawInto_drawCount (s : State) (a n : Nat) : (s.drawInto a n).drawCount = s.drawCount + n := rfl
@[simp] theorem State.drawInto_schedule (s : State) (a n : Nat) : (s.drawInto a n).schedule = s.schedule := rfl
@[simp] theorem State.drawInto_readback (s : State) (a n : Nat) : (s.drawInto a n).readback = s.readback := rfl
@[simp] theorem State.drawInto_seenDone (s : State) (a n : Nat) : (s.drawInto a n).seenDone = s.seenDone := rfl

@[simp] theorem State.commitOk_platform (s : State) (o : Output) : (s.commitOk o).platform = s.platform := rfl
@[simp] theorem State.commitOk_ie (s : State) (o : Output) : (s.commitOk o).ie = s.ie := rfl
@[simp] theorem State.commitOk_busy (s : State) (o : Output) : (s.commitOk o).busy = s.busy := rfl
@[simp] theorem State.commitOk_done (s : State) (o : Output) : (s.commitOk o).done = s.done := rfl
@[simp] theorem State.commitOk_err (s : State) (o : Output) : (s.commitOk o).err = s.err := rfl
@[simp] theorem State.commitOk_cmd (s : State) (o : Output) : (s.commitOk o).cmd = s.cmd := rfl
@[simp] theorem State.commitOk_errCode (s : State) (o : Output) : (s.commitOk o).errCode = 0 := rfl
@[simp] theorem State.commitOk_srcAddr (s : State) (o : Output) : (s.commitOk o).srcAddr = s.srcAddr := rfl
@[simp] theorem State.commitOk_srcLen (s : State) (o : Output) : (s.commitOk o).srcLen = s.srcLen := rfl
@[simp] theorem State.commitOk_dstAddr (s : State) (o : Output) : (s.commitOk o).dstAddr = s.dstAddr := rfl
@[simp] theorem State.commitOk_dstCap (s : State) (o : Output) : (s.commitOk o).dstCap = s.dstCap := rfl
@[simp] theorem State.commitOk_treeAddr (s : State) (o : Output) : (s.commitOk o).treeAddr = s.treeAddr := rfl
@[simp] theorem State.commitOk_treeLen (s : State) (o : Output) : (s.commitOk o).treeLen = s.treeLen := rfl
@[simp] theorem State.commitOk_inBitsLo (s : State) (o : Output) : (s.commitOk o).inBitsLo = s.inBitsLo := rfl
@[simp] theorem State.commitOk_inBitsHi (s : State) (o : Output) : (s.commitOk o).inBitsHi = s.inBitsHi := rfl
@[simp] theorem State.commitOk_resultLen (s : State) (o : Output) : (s.commitOk o).resultLen = BitVec.ofNat 32 o.out.length := rfl
@[simp] theorem State.commitOk_resultAux (s : State) (o : Output) : (s.commitOk o).resultAux = BitVec.ofNat 32 o.aux := rfl
@[simp] theorem State.commitOk_outBitsLo (s : State) (o : Output) : (s.commitOk o).outBitsLo = BitVec.ofNat 32 o.bits := rfl
@[simp] theorem State.commitOk_outBitsHi (s : State) (o : Output) : (s.commitOk o).outBitsHi = BitVec.ofNat 32 (o.bits / 2 ^ 32) := rfl
@[simp] theorem State.commitOk_mem (s : State) (o : Output) : (s.commitOk o).mem = s.mem.writeBytes s.dstAddr.toNat o.out := rfl
@[simp] theorem State.commitOk_drawCount (s : State) (o : Output) : (s.commitOk o).drawCount = s.drawCount := rfl
@[simp] theorem State.commitOk_schedule (s : State) (o : Output) : (s.commitOk o).schedule = s.schedule := rfl
@[simp] theorem State.commitOk_readback (s : State) (o : Output) : (s.commitOk o).readback = s.readback := rfl
@[simp] theorem State.commitOk_seenDone (s : State) (o : Output) : (s.commitOk o).seenDone = s.seenDone := rfl

@[simp] theorem State.recordError_platform (s : State) (e : ErrCode) : (s.recordError e).platform = s.platform := rfl
@[simp] theorem State.recordError_ie (s : State) (e : ErrCode) : (s.recordError e).ie = s.ie := rfl
@[simp] theorem State.recordError_busy (s : State) (e : ErrCode) : (s.recordError e).busy = s.busy := rfl
@[simp] theorem State.recordError_done (s : State) (e : ErrCode) : (s.recordError e).done = s.done := rfl
@[simp] theorem State.recordError_err (s : State) (e : ErrCode) : (s.recordError e).err = s.err := rfl
@[simp] theorem State.recordError_cmd (s : State) (e : ErrCode) : (s.recordError e).cmd = s.cmd := rfl
@[simp] theorem State.recordError_errCode (s : State) (e : ErrCode) : (s.recordError e).errCode = errorByte e := rfl
@[simp] theorem State.recordError_srcAddr (s : State) (e : ErrCode) : (s.recordError e).srcAddr = s.srcAddr := rfl
@[simp] theorem State.recordError_srcLen (s : State) (e : ErrCode) : (s.recordError e).srcLen = s.srcLen := rfl
@[simp] theorem State.recordError_dstAddr (s : State) (e : ErrCode) : (s.recordError e).dstAddr = s.dstAddr := rfl
@[simp] theorem State.recordError_dstCap (s : State) (e : ErrCode) : (s.recordError e).dstCap = s.dstCap := rfl
@[simp] theorem State.recordError_treeAddr (s : State) (e : ErrCode) : (s.recordError e).treeAddr = s.treeAddr := rfl
@[simp] theorem State.recordError_treeLen (s : State) (e : ErrCode) : (s.recordError e).treeLen = s.treeLen := rfl
@[simp] theorem State.recordError_inBitsLo (s : State) (e : ErrCode) : (s.recordError e).inBitsLo = s.inBitsLo := rfl
@[simp] theorem State.recordError_inBitsHi (s : State) (e : ErrCode) : (s.recordError e).inBitsHi = s.inBitsHi := rfl
@[simp] theorem State.recordError_resultLen (s : State) (e : ErrCode) : (s.recordError e).resultLen = 0 := rfl
@[simp] theorem State.recordError_resultAux (s : State) (e : ErrCode) : (s.recordError e).resultAux = 0 := rfl
@[simp] theorem State.recordError_outBitsLo (s : State) (e : ErrCode) : (s.recordError e).outBitsLo = 0 := rfl
@[simp] theorem State.recordError_outBitsHi (s : State) (e : ErrCode) : (s.recordError e).outBitsHi = 0 := rfl
@[simp] theorem State.recordError_mem (s : State) (e : ErrCode) : (s.recordError e).mem = s.mem := rfl
@[simp] theorem State.recordError_drawCount (s : State) (e : ErrCode) : (s.recordError e).drawCount = s.drawCount := rfl
@[simp] theorem State.recordError_schedule (s : State) (e : ErrCode) : (s.recordError e).schedule = s.schedule := rfl
@[simp] theorem State.recordError_readback (s : State) (e : ErrCode) : (s.recordError e).readback = s.readback := rfl
@[simp] theorem State.recordError_seenDone (s : State) (e : ErrCode) : (s.recordError e).seenDone = s.seenDone := rfl

@[simp] theorem State.resetRegisters_platform (s : State) : s.resetRegisters.platform = s.platform := rfl
@[simp] theorem State.resetRegisters_ie (s : State) : s.resetRegisters.ie = false := rfl
@[simp] theorem State.resetRegisters_busy (s : State) : s.resetRegisters.busy = false := rfl
@[simp] theorem State.resetRegisters_done (s : State) : s.resetRegisters.done = false := rfl
@[simp] theorem State.resetRegisters_err (s : State) : s.resetRegisters.err = false := rfl
@[simp] theorem State.resetRegisters_cmd (s : State) : s.resetRegisters.cmd = 0 := rfl
@[simp] theorem State.resetRegisters_errCode (s : State) : s.resetRegisters.errCode = 0 := rfl
@[simp] theorem State.resetRegisters_srcAddr (s : State) : s.resetRegisters.srcAddr = 0 := rfl
@[simp] theorem State.resetRegisters_srcLen (s : State) : s.resetRegisters.srcLen = 0 := rfl
@[simp] theorem State.resetRegisters_dstAddr (s : State) : s.resetRegisters.dstAddr = 0 := rfl
@[simp] theorem State.resetRegisters_dstCap (s : State) : s.resetRegisters.dstCap = 0 := rfl
@[simp] theorem State.resetRegisters_treeAddr (s : State) : s.resetRegisters.treeAddr = 0 := rfl
@[simp] theorem State.resetRegisters_treeLen (s : State) : s.resetRegisters.treeLen = 0 := rfl
@[simp] theorem State.resetRegisters_inBitsLo (s : State) : s.resetRegisters.inBitsLo = 0 := rfl
@[simp] theorem State.resetRegisters_inBitsHi (s : State) : s.resetRegisters.inBitsHi = 0 := rfl
@[simp] theorem State.resetRegisters_resultLen (s : State) : s.resetRegisters.resultLen = 0 := rfl
@[simp] theorem State.resetRegisters_resultAux (s : State) : s.resetRegisters.resultAux = 0 := rfl
@[simp] theorem State.resetRegisters_outBitsLo (s : State) : s.resetRegisters.outBitsLo = 0 := rfl
@[simp] theorem State.resetRegisters_outBitsHi (s : State) : s.resetRegisters.outBitsHi = 0 := rfl
@[simp] theorem State.resetRegisters_mem (s : State) : s.resetRegisters.mem = s.mem := rfl
@[simp] theorem State.resetRegisters_drawCount (s : State) : s.resetRegisters.drawCount = s.drawCount := rfl
@[simp] theorem State.resetRegisters_schedule (s : State) : s.resetRegisters.schedule = s.schedule := rfl
@[simp] theorem State.resetRegisters_readback (s : State) : s.resetRegisters.readback = s.readback := rfl
@[simp] theorem State.resetRegisters_seenDone (s : State) : s.resetRegisters.seenDone = s.seenDone := rfl

@[simp] theorem State.hostSaw_platform (s : State) (k : Nat) (w : Word) : (s.hostSaw k w).platform = s.platform := rfl
@[simp] theorem State.hostSaw_ie (s : State) (k : Nat) (w : Word) : (s.hostSaw k w).ie = s.ie := rfl
@[simp] theorem State.hostSaw_busy (s : State) (k : Nat) (w : Word) : (s.hostSaw k w).busy = s.busy := rfl
@[simp] theorem State.hostSaw_done (s : State) (k : Nat) (w : Word) : (s.hostSaw k w).done = s.done := rfl
@[simp] theorem State.hostSaw_err (s : State) (k : Nat) (w : Word) : (s.hostSaw k w).err = s.err := rfl
@[simp] theorem State.hostSaw_cmd (s : State) (k : Nat) (w : Word) : (s.hostSaw k w).cmd = s.cmd := rfl
@[simp] theorem State.hostSaw_errCode (s : State) (k : Nat) (w : Word) : (s.hostSaw k w).errCode = s.errCode := rfl
@[simp] theorem State.hostSaw_srcAddr (s : State) (k : Nat) (w : Word) : (s.hostSaw k w).srcAddr = s.srcAddr := rfl
@[simp] theorem State.hostSaw_srcLen (s : State) (k : Nat) (w : Word) : (s.hostSaw k w).srcLen = s.srcLen := rfl
@[simp] theorem State.hostSaw_dstAddr (s : State) (k : Nat) (w : Word) : (s.hostSaw k w).dstAddr = s.dstAddr := rfl
@[simp] theorem State.hostSaw_dstCap (s : State) (k : Nat) (w : Word) : (s.hostSaw k w).dstCap = s.dstCap := rfl
@[simp] theorem State.hostSaw_treeAddr (s : State) (k : Nat) (w : Word) : (s.hostSaw k w).treeAddr = s.treeAddr := rfl
@[simp] theorem State.hostSaw_treeLen (s : State) (k : Nat) (w : Word) : (s.hostSaw k w).treeLen = s.treeLen := rfl
@[simp] theorem State.hostSaw_inBitsLo (s : State) (k : Nat) (w : Word) : (s.hostSaw k w).inBitsLo = s.inBitsLo := rfl
@[simp] theorem State.hostSaw_inBitsHi (s : State) (k : Nat) (w : Word) : (s.hostSaw k w).inBitsHi = s.inBitsHi := rfl
@[simp] theorem State.hostSaw_resultLen (s : State) (k : Nat) (w : Word) : (s.hostSaw k w).resultLen = s.resultLen := rfl
@[simp] theorem State.hostSaw_resultAux (s : State) (k : Nat) (w : Word) : (s.hostSaw k w).resultAux = s.resultAux := rfl
@[simp] theorem State.hostSaw_outBitsLo (s : State) (k : Nat) (w : Word) : (s.hostSaw k w).outBitsLo = s.outBitsLo := rfl
@[simp] theorem State.hostSaw_outBitsHi (s : State) (k : Nat) (w : Word) : (s.hostSaw k w).outBitsHi = s.outBitsHi := rfl
@[simp] theorem State.hostSaw_mem (s : State) (k : Nat) (w : Word) : (s.hostSaw k w).mem = s.mem := rfl
@[simp] theorem State.hostSaw_drawCount (s : State) (k : Nat) (w : Word) : (s.hostSaw k w).drawCount = s.drawCount := rfl
@[simp] theorem State.hostSaw_schedule (s : State) (k : Nat) (w : Word) : (s.hostSaw k w).schedule = s.schedule := rfl
@[simp] theorem State.hostSaw_readback (s : State) (k : Nat) (w : Word) : (s.hostSaw k w).readback = .register k w := rfl
@[simp] theorem State.hostSaw_seenDone (s : State) (k : Nat) (w : Word) :
    (s.hostSaw k w).seenDone = (s.seenDone || (decide (k = regOffset .status) && w.getLsbD 1)) := rfl
@[simp] theorem State.hostSaw_regValue (s : State) (k : Nat) (w : Word) (r : Reg) :
    (s.hostSaw k w).regValue r = s.regValue r := by cases r <;> rfl
@[simp] theorem State.hostSaw_observe (s : State) (k : Nat) (w : Word) : (s.hostSaw k w).observe = s.observe := by
  simp [State.observe]

@[simp] theorem State.start_src (s : State) : s.start.src = s.src := rfl
@[simp] theorem State.start_dst (s : State) : s.start.dst = s.dst := rfl
@[simp] theorem State.start_tree (s : State) : s.start.tree = s.tree := rfl
@[simp] theorem State.start_inBits (s : State) : s.start.inBits = s.inBits := rfl

@[simp] theorem State.acknowledge_src (s : State) (w : Word) : (s.acknowledge w).src = s.src := rfl
@[simp] theorem State.acknowledge_dst (s : State) (w : Word) : (s.acknowledge w).dst = s.dst := rfl
@[simp] theorem State.acknowledge_tree (s : State) (w : Word) : (s.acknowledge w).tree = s.tree := rfl
@[simp] theorem State.acknowledge_inBits (s : State) (w : Word) : (s.acknowledge w).inBits = s.inBits := rfl

@[simp] theorem State.setCompletionFlags_src (s : State) : s.setCompletionFlags.src = s.src := rfl
@[simp] theorem State.setCompletionFlags_dst (s : State) : s.setCompletionFlags.dst = s.dst := rfl
@[simp] theorem State.setCompletionFlags_tree (s : State) : s.setCompletionFlags.tree = s.tree := rfl
@[simp] theorem State.setCompletionFlags_inBits (s : State) : s.setCompletionFlags.inBits = s.inBits := rfl

@[simp] theorem State.drawInto_src (s : State) (a n : Nat) : (s.drawInto a n).src = s.src := rfl
@[simp] theorem State.drawInto_dst (s : State) (a n : Nat) : (s.drawInto a n).dst = s.dst := rfl
@[simp] theorem State.drawInto_tree (s : State) (a n : Nat) : (s.drawInto a n).tree = s.tree := rfl
@[simp] theorem State.drawInto_inBits (s : State) (a n : Nat) : (s.drawInto a n).inBits = s.inBits := rfl

@[simp] theorem State.commitOk_src (s : State) (o : Output) : (s.commitOk o).src = s.src := rfl
@[simp] theorem State.commitOk_dst (s : State) (o : Output) : (s.commitOk o).dst = s.dst := rfl
@[simp] theorem State.commitOk_tree (s : State) (o : Output) : (s.commitOk o).tree = s.tree := rfl
@[simp] theorem State.commitOk_inBits (s : State) (o : Output) : (s.commitOk o).inBits = s.inBits := rfl

@[simp] theorem State.recordError_src (s : State) (e : ErrCode) : (s.recordError e).src = s.src := rfl
@[simp] theorem State.recordError_dst (s : State) (e : ErrCode) : (s.recordError e).dst = s.dst := rfl
@[simp] theorem State.recordError_tree (s : State) (e : ErrCode) : (s.recordError e).tree = s.tree := rfl
@[simp] theorem State.recordError_inBits (s : State) (e : ErrCode) : (s.recordError e).inBits = s.inBits := rfl


end Sys2Proof.Machine
end

