-- ==== Sys2Proof/Laws/Memory.lean ====
section
/-!
SUPPORT. The laws of buffer memory: what a read returns after a write, that every operation keeps the canonical form
and stays inside MEM_SIZE, and that memories in canonical form with equal bytes are equal.
-/

namespace Sys2Proof.Machine

/-! ### Reading -/

@[simp] theorem Memory.read_nil (a : Nat) : Memory.read [] a = Config.unlistedByte := rfl

theorem Memory.read_cons (c : Host.Cell) (m : Memory) (a : Nat) :
    Memory.read (c :: m) a = if a = c.1 then c.2 else m.read a := by
  obtain ⟨k, b⟩ := c
  by_cases h : a = k
  · subst h; simp [Memory.read, List.lookup]
  · have : (a == k) = false := by simpa using h
    simp [Memory.read, List.lookup, this, h]

/-- A memory without the address reads as unlisted there. -/
theorem Memory.read_of_absent {m : Memory} {a : Nat} (h : ∀ c ∈ m, c.1 ≠ a) : m.read a = Config.unlistedByte := by
  induction m with
  | nil => rfl
  | cons c m ih =>
    rw [Memory.read_cons, if_neg (fun e => h c (by simp) e.symm)]
    exact ih fun d hd => h d (by simp [hd])

/-- In a concatenation the left part decides where it lists the address, the right part elsewhere. -/
theorem Memory.read_append_right {m n : Memory} {a : Nat} (h : ∀ c ∈ m, c.1 ≠ a) : Memory.read (m ++ n) a = n.read a := by
  induction m with
  | nil => rfl
  | cons c m ih =>
    rw [List.cons_append, Memory.read_cons, if_neg (fun e => h c (by simp) e.symm)]
    exact ih fun d hd => h d (by simp [hd])

theorem Memory.read_append_left {m n : Memory} {a : Nat} (h : ∀ c ∈ n, c.1 ≠ a) : Memory.read (m ++ n) a = m.read a := by
  induction m with
  | nil => simpa using Memory.read_of_absent h
  | cons c m ih => rw [List.cons_append, Memory.read_cons, Memory.read_cons, ih]

/-- Keeping the cells whose address satisfies `p` keeps the reads at such addresses. -/
theorem Memory.read_filter {m : Memory} {a : Nat} {p : Nat → Bool} (h : p a = true) :
    Memory.read (m.filter fun c => p c.1) a = m.read a := by
  induction m with
  | nil => rfl
  | cons c m ih =>
    by_cases hc : p c.1 = true
    · rw [List.filter_cons_of_pos (p := fun c : Host.Cell => p c.1) hc, Memory.read_cons, Memory.read_cons, ih]
    · rw [List.filter_cons_of_neg (p := fun c : Host.Cell => p c.1) hc, Memory.read_cons, if_neg (fun e => hc (by rw [← e]; exact h)), ih]

/-! ### The cells of a byte string -/

theorem cellsFrom_mem {bytes : List Byte} {a : Nat} {c : Host.Cell} (h : c ∈ cellsFrom a bytes) :
    a ≤ c.1 ∧ c.1 < a + bytes.length ∧ c.2 ≠ Config.unlistedByte := by
  induction bytes generalizing a with
  | nil => simp [cellsFrom] at h
  | cons b bs ih =>
    simp only [cellsFrom] at h
    split at h
    · obtain ⟨h₁, h₂, h₃⟩ := ih h
      exact ⟨by omega, by simp only [List.length_cons]; omega, h₃⟩
    · rcases List.mem_cons.1 h with rfl | h
      · simp_all
      · obtain ⟨h₁, h₂, h₃⟩ := ih h
        exact ⟨by omega, by simp only [List.length_cons]; omega, h₃⟩

theorem cellsFrom_read {bytes : List Byte} {a i : Nat} (h : i < bytes.length) :
    Memory.read (cellsFrom a bytes) (a + i) = bytes[i] := by
  induction bytes generalizing a i with
  | nil => simp at h
  | cons b bs ih =>
    simp only [cellsFrom]
    cases i with
    | zero =>
      split
      · next hb => simpa [hb] using Memory.read_of_absent fun c hc e => by have := cellsFrom_mem hc; omega
      · rw [Memory.read_cons]; simp
    | succ i =>
      have hi : i < bs.length := by simpa using h
      have hr := ih (a := a + 1) hi
      rw [show a + 1 + i = a + (i + 1) by omega] at hr
      split
      · simpa using hr
      · rw [Memory.read_cons, if_neg (by simp)]; simpa using hr

theorem cellsFrom_sorted (bytes : List Byte) (a : Nat) : (cellsFrom a bytes).Pairwise fun c d => c.1 < d.1 := by
  induction bytes generalizing a with
  | nil => simp [cellsFrom]
  | cons b bs ih =>
    simp only [cellsFrom]
    split
    · exact ih _
    · exact List.pairwise_cons.2 ⟨fun c hc => by have := cellsFrom_mem hc; simp only; omega, ih _⟩

/-! ### Writing -/

/-- A read inside the written bytes gives the byte written there. -/
theorem Memory.read_writeBytes_inside {m : Memory} {a i : Nat} {bytes : List Byte} (h : i < bytes.length) :
    (m.writeBytes a bytes).read (a + i) = bytes[i] := by
  rw [Memory.writeBytes, Memory.read_append_left, Memory.read_append_right, cellsFrom_read h]
  · intro c hc; have := (List.mem_filter.1 hc).2; simp only [decide_eq_true_eq] at this; omega
  · intro c hc; have := (List.mem_filter.1 hc).2; simp only [decide_eq_true_eq] at this; omega

/-- A read outside the written bytes gives what it gave before. -/
theorem Memory.read_writeBytes_outside {m : Memory} {a x : Nat} {bytes : List Byte}
    (h : ¬ (a ≤ x ∧ x < a + bytes.length)) : (m.writeBytes a bytes).read x = m.read x := by
  have hcells : ∀ c ∈ cellsFrom a bytes, c.1 ≠ x := fun c hc e => h (by have := cellsFrom_mem hc; omega)
  rw [Memory.writeBytes]
  by_cases hx : x < a
  · rw [List.append_assoc, Memory.read_append_left]
    · exact Memory.read_filter (p := fun k => decide (k < a)) (by simpa using hx)
    · intro c hc e
      rcases List.mem_append.1 hc with hc | hc
      · exact hcells c hc e
      · have := (List.mem_filter.1 hc).2; simp only [decide_eq_true_eq] at this; omega
  · rw [Memory.read_append_right]
    · exact Memory.read_filter (p := fun k => decide (a + bytes.length ≤ k)) (by simp; omega)
    · intro c hc e
      rcases List.mem_append.1 hc with hc | hc
      · have := (List.mem_filter.1 hc).2; simp only [decide_eq_true_eq] at this; omega
      · exact hcells c hc e

@[simp] theorem Memory.readBytes_length (m : Memory) (a n : Nat) : (m.readBytes a n).length = n := by
  simp [Memory.readBytes]

/-- Reading back exactly the bytes written. -/
theorem Memory.readBytes_writeBytes_same (m : Memory) (a : Nat) (bytes : List Byte) :
    (m.writeBytes a bytes).readBytes a bytes.length = bytes := by
  apply List.ext_getElem (by simp)
  intro i h₁ h₂
  simp only [Memory.readBytes, List.getElem_map, List.getElem_range]
  exact Memory.read_writeBytes_inside h₂

/-- Two memories that read alike over a range give the same bytes there. -/
theorem Memory.readBytes_congr {m n : Memory} {a k : Nat} (h : ∀ x, a ≤ x → x < a + k → m.read x = n.read x) :
    m.readBytes a k = n.readBytes a k := by
  simp only [Memory.readBytes]
  exact List.map_congr_left fun i hi => h _ (by omega) (by have := List.mem_range.1 hi; omega)

/-! ### The canonical form -/

theorem Memory.nil_wf : Memory.wf [] := by decide

/-- A write keeps the canonical form. -/
theorem Memory.writeBytes_wf {m : Memory} (h : m.wf) (a : Nat) (bytes : List Byte) : (m.writeBytes a bytes).wf := by
  obtain ⟨hs, hv⟩ := h
  constructor
  · refine List.pairwise_append.2 ⟨List.pairwise_append.2 ⟨hs.filter _, cellsFrom_sorted bytes a, ?_⟩, hs.filter _, ?_⟩
    · intro c hc d hd
      have h₁ := (List.mem_filter.1 hc).2
      have h₂ := cellsFrom_mem hd
      simp only [decide_eq_true_eq] at h₁; omega
    · intro c hc d hd
      have h₁ := (List.mem_filter.1 hd).2
      simp only [decide_eq_true_eq] at h₁
      rcases List.mem_append.1 hc with hc | hc
      · have h₂ := (List.mem_filter.1 hc).2; simp only [decide_eq_true_eq] at h₂; omega
      · have h₂ := cellsFrom_mem hc; omega
  · intro c hc
    rcases List.mem_append.1 hc with hc | hc
    · rcases List.mem_append.1 hc with hc | hc
      · exact hv c (List.mem_filter.1 hc).1
      · exact (cellsFrom_mem hc).2.2
    · exact hv c (List.mem_filter.1 hc).1

/-- A write below `k` lists no address at or above `k`. -/
theorem Memory.writeBytes_below {m : Memory} {k : Nat} (h : ∀ c ∈ m, c.1 < k) {a : Nat} {bytes : List Byte}
    (hb : bytes = [] ∨ a + bytes.length ≤ k) : ∀ c ∈ m.writeBytes a bytes, c.1 < k := by
  intro c hc
  rcases List.mem_append.1 hc with hc | hc
  · rcases List.mem_append.1 hc with hc | hc
    · exact h c (List.mem_filter.1 hc).1
    · have := cellsFrom_mem hc
      rcases hb with rfl | hb
      · simp at this; omega
      · omega
  · exact h c (List.mem_filter.1 hc).1

/-- In canonical form the byte listed at an address is what is read there, so the listed addresses are those that do
not read as unlisted. -/
theorem Memory.read_of_mem {m : Memory} (h : m.wf) {c : Host.Cell} (hc : c ∈ m) : m.read c.1 = c.2 := by
  induction m with
  | nil => simp at hc
  | cons d m ih =>
    obtain ⟨hs, hv⟩ := h
    obtain ⟨hd, hs⟩ := List.pairwise_cons.1 hs
    rw [Memory.read_cons]
    rcases List.mem_cons.1 hc with rfl | hc
    · simp
    · rw [if_neg (by have := hd c hc; omega)]
      exact ih ⟨hs, fun e he => hv e (by simp [he])⟩ hc

theorem Memory.mem_of_read {m : Memory} {a : Nat} (h : m.read a ≠ Config.unlistedByte) : (a, m.read a) ∈ m := by
  induction m with
  | nil => simp at h
  | cons d m ih =>
    rw [Memory.read_cons] at h ⊢
    split
    · next e => subst e; simp
    · next e => rw [if_neg e] at h; exact List.mem_cons_of_mem _ (ih h)

/-- Memories in canonical form that read alike everywhere are equal. -/
theorem Memory.ext {m n : Memory} (hm : m.wf) (hn : n.wf) (h : ∀ a, m.read a = n.read a) : m = n := by
  have key : ∀ c : Host.Cell, c ∈ m ↔ c ∈ n := fun c => by
    constructor
    · intro hc
      have e := Memory.read_of_mem hm hc
      have := Memory.mem_of_read (m := n) (a := c.1) (by rw [← h, e]; exact hm.2 c hc)
      rwa [← h, e] at this
    · intro hc
      have e := Memory.read_of_mem hn hc
      have := Memory.mem_of_read (m := m) (a := c.1) (by rw [h, e]; exact hn.2 c hc)
      rwa [h, e] at this
  exact List.Perm.eq_of_pairwise (le := fun c d : Host.Cell => c.1 < d.1) (fun c d _ _ h₁ h₂ => absurd h₁ (by omega)) hm.1 hn.1
    ((List.perm_ext_iff_of_nodup (hm.1.imp fun {c d} h e => by subst e; omega)
      (hn.1.imp fun {c d} h e => by subst e; omega)).2 key)

end Sys2Proof.Machine
end

