-- ==== Sys2Proof/Laws/Ops.lean ====
section
/-!
SUPPORT. What the shared operations can do, said once: byte order, draws, the completion of a command, `Run()`, the
engine's turn, and one move of the machine.
-/

namespace Sys2Proof.Machine

/-! ### Byte order -/

@[simp] theorem toLE_length (n v : Nat) : (toLE n v).length = n := by
  induction n generalizing v with
  | zero => rfl
  | succ n ih => simp [toLE, ih]

/-- `LE(toLE_n(v)) = v` for `v < 256^n` (R12). -/
theorem leValue_toLE {n v : Nat} (h : v < 256 ^ n) : leValue (toLE n v) = v := by
  induction n generalizing v with
  | zero => simp only [Nat.pow_zero] at h; simp [toLE, leValue]; omega
  | succ n ih =>
    have : v / 256 < 256 ^ n := Nat.div_lt_of_lt_mul (by rw [Nat.pow_succ] at h; omega)
    simp only [toLE, leValue, ih this, BitVec.toNat_ofNat]
    omega

/-- A byte string of length `n` has a value below `256^n` (R12). -/
theorem leValue_lt (s : List Byte) : leValue s < 256 ^ s.length := by
  induction s with
  | nil => simp [leValue]
  | cons b bs ih =>
    have := b.isLt
    simp only [leValue, List.length_cons, Nat.pow_succ]
    omega

/-- A little-endian string is determined by its value (R12). -/
theorem toLE_leValue (s : List Byte) : toLE s.length (leValue s) = s := by
  induction s with
  | nil => rfl
  | cons b bs ih =>
    have hb := b.isLt
    simp only [List.length_cons, toLE, leValue]
    rw [show (b.toNat + 256 * leValue bs) / 256 = leValue bs by omega, ih]
    congr 1
    apply BitVec.eq_of_toNat_eq
    simp only [BitVec.toNat_ofNat]
    omega

@[simp] theorem drawBytes_length (k n : Nat) : (drawBytes k n).length = n := by simp [drawBytes]

/-! ### Completion -/

/-- The error codes are different from one another and none is E_NONE (R200). -/
theorem errorByte_injective {e e' : ErrCode} (h : errorByte e = errorByte e') : e = e' := by
  revert h; cases e <;> cases e' <;> decide

@[simp] theorem errorByte_ne_zero (e : ErrCode) : errorByte e ≠ 0 := by cases e <;> decide

/-- What a completion leaves of everything but flags, results, memory and draws (R104). -/
theorem State.complete_sameOperands (s : State) (r : Result) : s.SameOperands (s.complete r) := by
  cases r with
  | ok o => exact ⟨rfl, rfl, rfl, rfl, rfl, rfl, rfl, rfl, rfl, rfl, rfl, rfl, rfl, rfl⟩
  | error e =>
    simp only [State.complete, State.commit, State.commitErr]
    split <;> exact ⟨rfl, rfl, rfl, rfl, rfl, rfl, rfl, rfl, rfl, rfl, rfl, rfl, rfl, rfl⟩

/-- A success, spelled out (R104), where its numbers fit the result registers. -/
theorem State.complete_ok (s : State) {o : Output} (hl : o.out.length < 2 ^ 32) (ha : o.aux < 2 ^ 32)
    (hb : o.bits < 2 ^ 64) : s.CompletedWith (s.complete (.ok o)) o := by
  refine ⟨rfl, rfl, rfl, rfl, ?_, ?_, ?_, Memory.readBytes_writeBytes_same _ _ _, ?_, s.complete_sameOperands _⟩
  · simpa [State.complete, State.commit] using Nat.mod_eq_of_lt hl
  · simpa [State.complete, State.commit] using Nat.mod_eq_of_lt ha
  · simp only [State.complete, State.commit, State.outBits, State.setCompletionFlags_outBitsHi,
      State.setCompletionFlags_outBitsLo, State.commitOk_outBitsHi, State.commitOk_outBitsLo, BitVec.toNat_ofNat]
    omega
  · intro x hx
    exact Memory.read_writeBytes_outside hx

/-- A failure, spelled out (R104, R204). -/
theorem State.complete_error (s : State) (e : ErrCode) : s.FailedWith (s.complete (.error e)) e := by
  have hb := errorByte_ne_zero e
  cases h : leavesMemory e
  · refine ⟨rfl, rfl, ?_, ?_, ?_, ?_, ?_, fun h' => absurd (h.symm.trans h') (by decide), ?_, s.complete_sameOperands _⟩ <;>
      simp only [State.complete, State.commit, State.commitErr, h]
    · simpa using hb
    · rfl
    · rfl
    · rfl
    · simp [State.outBits]
    · intro x hx
      exact Memory.read_writeBytes_outside (by simpa [State.dst] using hx)
  · refine ⟨rfl, rfl, ?_, ?_, ?_, ?_, ?_, fun _ => ?_, ?_, s.complete_sameOperands _⟩ <;>
      simp only [State.complete, State.commit, State.commitErr, h]
    · simpa using hb
    · rfl
    · rfl
    · rfl
    · simp [State.outBits]
    · rfl
    · intro x _
      rfl

/-- Every completion clears BUSY and sets DONE (R101). -/
@[simp] theorem State.complete_busy (s : State) (r : Result) : (s.complete r).busy = false := rfl
@[simp] theorem State.complete_done (s : State) (r : Result) : (s.complete r).done = true := rfl

/-! ### `Run()` -/

/-- The cases of `Run()`, in the order of R203. -/
theorem State.run_cases (s : State) (i : Instr) :
    (¬ s.BuffersInRange i ∧ s.run (usesTree i) (commandFunction i) = .error .range) ∨
    (s.BuffersInRange i ∧ ¬ s.DestinationApart i ∧ s.run (usesTree i) (commandFunction i) = .error .overlap) ∨
    (s.BuffersPass i ∧ ∃ e, s.functionResult i = .error e ∧ s.run (usesTree i) (commandFunction i) = .error e) ∨
    (s.BuffersPass i ∧ ∃ o, s.functionResult i = .ok o ∧ s.dst.len < o.out.length ∧
      s.run (usesTree i) (commandFunction i) = .error .dstFull) ∨
    (s.BuffersPass i ∧ ∃ o, s.functionResult i = .ok o ∧ o.out.length ≤ s.dst.len ∧
      s.run (usesTree i) (commandFunction i) = .ok o) := by
  by_cases hr : s.BuffersInRange i
  · by_cases ha : s.DestinationApart i
    · obtain ⟨h₁, h₂, h₃⟩ := hr
      obtain ⟨h₄, h₅⟩ := ha
      refine .inr (.inr ?_)
      have hrun : s.run (usesTree i) (commandFunction i) = checkCapacity s.dst.len (s.functionResult i) := by
        simp only [State.run, State.functionResult, State.srcBytes, State.treeBytes]
        rw [if_neg (not_not.2 h₁), if_neg (fun h => h.2 (h₂ h.1)), if_neg (not_not.2 h₃), if_neg h₄,
          if_neg (fun h => h₅ h.1 h.2)]
      cases hf : s.functionResult i with
      | error e => exact .inl ⟨⟨⟨h₁, h₂, h₃⟩, h₄, h₅⟩, e, rfl, by rw [hrun, hf, checkCapacity]⟩
      | ok o =>
        by_cases hl : s.dst.len < o.out.length
        · exact .inr (.inl ⟨⟨⟨h₁, h₂, h₃⟩, h₄, h₅⟩, o, rfl, hl, by rw [hrun, hf, checkCapacity]; simp [hl]⟩)
        · exact .inr (.inr ⟨⟨⟨h₁, h₂, h₃⟩, h₄, h₅⟩, o, rfl, by omega, by rw [hrun, hf, checkCapacity]; simp [hl]⟩)
    · refine .inr (.inl ⟨hr, ha, ?_⟩)
      obtain ⟨h₁, h₂, h₃⟩ := hr
      simp only [State.run]
      rw [if_neg (not_not.2 h₁), if_neg (fun h => h.2 (h₂ h.1)), if_neg (not_not.2 h₃)]
      split
      · rfl
      · next h₄ =>
        rw [if_pos]
        by_contra h₅
        exact ha ⟨h₄, fun ht ho => h₅ ⟨ht, ho⟩⟩
  · refine .inl ⟨hr, ?_⟩
    simp only [State.run]
    split
    · rfl
    · next h₁ =>
      split
      · rfl
      · next h₂ =>
        rw [if_pos]
        intro h₃
        exact hr ⟨not_not.1 h₁, fun ht => by_contra fun hn => h₂ ⟨ht, hn⟩, h₃⟩

/-- `Run()` succeeds exactly where the buffers pass the checks, the function succeeds and its output fits (R102). -/
theorem State.run_eq_ok {s : State} {i : Instr} {o : Output} :
    s.run (usesTree i) (commandFunction i) = .ok o ↔
      s.BuffersPass i ∧ s.functionResult i = .ok o ∧ o.out.length ≤ s.dst.len := by
  rcases s.run_cases i with ⟨h, hr⟩ | ⟨h, ha, hr⟩ | ⟨h, e, hf, hr⟩ | ⟨h, o', hf, hl, hr⟩ | ⟨h, o', hf, hl, hr⟩ <;> rw [hr]
  · exact ⟨nofun, fun h' => absurd h'.1.1 h⟩
  · exact ⟨nofun, fun h' => absurd h'.1.2 ha⟩
  · exact ⟨nofun, fun h' => by rw [hf] at h'; cases h'.2.1⟩
  · exact ⟨nofun, fun ⟨_, h₁, h₂⟩ => by rw [hf] at h₁; cases h₁; omega⟩
  · exact ⟨fun h' => by cases h'; exact ⟨h, hf, hl⟩, fun ⟨_, h₁, _⟩ => by rw [hf] at h₁; cases h₁; rfl⟩

/-! ### The engine -/

/-- Every command is its function of R105, run and completed (R101, R102). -/
theorem exec_eq (i : Instr) (s : State) :
    exec i s = .next (s.complete (s.run (usesTree i) (commandFunction i))) := by
  cases i <;> rfl

/-- A command always completes. -/
theorem exec_eq_next {i : Instr} {s t : State} :
    exec i s = .next t ↔ t = s.complete (s.run (usesTree i) (commandFunction i)) := by
  rw [exec_eq]
  exact ⟨fun h => by cases h; rfl, fun h => by rw [h]⟩

/-- The engine's turn while it is not enabled (R101). -/
theorem engineTurn_idle {s : State} (h : s.busy = false) : engineTurn s = .next s := by
  simp [engineTurn, h]

/-- The engine's turn on a word that selects a command (R101, R102). -/
theorem engineTurn_command {s : State} {i : Instr} (h : s.busy = true) (hd : decode s.cmd = .ok i) :
    engineTurn s = exec i s := by
  simp [engineTurn, h, hd]

/-- The engine's turn on a word that selects none (R72). -/
theorem engineTurn_bad {s : State} {e : DecodeError} (h : s.busy = true) (hd : decode s.cmd = .error e) :
    engineTurn s = .next (s.complete (.error .badCmd)) := by
  simp [engineTurn, h, hd, State.completeBadCommand]

/-- Everything the engine's turn can do: nothing while BUSY = 0, else the completion of CMD. -/
theorem engineTurn_cases {s t : State} (h : engineTurn s = .next t) :
    (s.busy = false ∧ t = s) ∨
    (s.busy = true ∧ ∃ i, decode s.cmd = .ok i ∧ t = s.complete (s.run (usesTree i) (commandFunction i))) ∨
    (s.busy = true ∧ (∃ e, decode s.cmd = .error e) ∧ t = s.complete (.error .badCmd)) := by
  cases hb : s.busy
  · rw [engineTurn_idle hb] at h; cases h; exact .inl ⟨rfl, rfl⟩
  · cases hd : decode s.cmd with
    | ok i => rw [engineTurn_command hb hd, exec_eq_next] at h; exact .inr (.inl ⟨rfl, i, rfl, h⟩)
    | error e => rw [engineTurn_bad hb hd] at h; cases h; exact .inr (.inr ⟨rfl, ⟨e, rfl⟩, rfl⟩)

/-! ### The other agents -/

/-- A register read that answers changes what the host has seen and nothing else (R31). -/
theorem hostRegRead_cases {b : BusAccess} {s t : State} (h : hostRegRead b s = .next t) :
    b.WellFormed s.platform ∧
      t = s.hostSaw (b.offset s.platform) (s.windowValue (b.offset s.platform)) := by
  simp only [hostRegRead] at h
  split at h
  · cases h
  split at h
  · cases h
  · next hw => cases h; exact ⟨not_not.1 hw, rfl⟩

/-- A register read of the form the block gives a meaning answers (R18). -/
theorem hostRegRead_wellFormed {b : BusAccess} {s : State} (h : b.WellFormed s.platform) :
    hostRegRead b s = .next (s.hostSaw (b.offset s.platform) (s.windowValue (b.offset s.platform))) := by
  rw [hostRegRead, if_neg (not_not.2 h.1), if_neg (not_not.2 h)]

/-- The window shows each register at its offset (R19). -/
@[simp] theorem State.windowValue_regOffset (s : State) (r : Reg) : s.windowValue (regOffset r) = s.regValue r := by
  cases r <;> rfl

/-- Bit 1 of STATUS is DONE (R21). -/
@[simp] theorem State.statusWord_done (s : State) : s.statusWord.getLsbD 1 = s.done := by
  unfold State.statusWord
  cases s.busy <;> cases s.done <;> cases s.err <;> decide

/-- A register write that answers is a write of the window (R17, R18). -/
theorem hostRegWrite_cases {b : BusAccess} {w : Word} {s t : State} (h : hostRegWrite b w s = .next t) :
    b.WellFormed s.platform ∧ t = s.writeWindow (b.offset s.platform) w := by
  simp only [hostRegWrite] at h
  split at h
  · cases h
  split at h
  · cases h
  · next hw => cases h; exact ⟨not_not.1 hw, rfl⟩

/-- A memory read that answers changes the read data, and one draw is made if the byte is a running command's
destination byte (R222). -/
theorem hostMemRead_cases {a : Word} {s t : State} (h : hostMemRead a s = .next t) :
    a.toNat < s.platform.memSize ∧
      ((s.busy = true ∧ s.dst.Contains a.toNat ∧
          t = { s with readback := .byte a (Config.freeByte s.drawCount), drawCount := s.drawCount + 1 }) ∨
        (¬ (s.busy = true ∧ s.dst.Contains a.toNat) ∧ t = { s with readback := .byte a (s.mem.read a.toNat) })) := by
  simp only [hostMemRead] at h
  split at h
  · cases h
  split at h
  · next h₁ h₂ => cases h; exact ⟨by omega, .inl ⟨h₂.1, h₂.2, rfl⟩⟩
  · next h₁ h₂ => cases h; exact ⟨by omega, .inr ⟨h₂, rfl⟩⟩

/-- A memory write that answers writes one byte that exists and that is not locked (R222, R223). -/
theorem hostMemWrite_cases {a : Word} {b : Byte} {s t : State} (h : hostMemWrite a b s = .next t) :
    a.toNat < s.platform.memSize ∧ ¬ s.Locked a.toNat ∧ t = { s with mem := s.mem.writeBytes a.toNat [b] } := by
  simp only [hostMemWrite] at h
  split at h
  · cases h
  split at h
  · cases h
  · next h₁ h₂ => cases h; exact ⟨by omega, h₂, rfl⟩

/-! ### One step -/

/-- Everything one step can do: with an empty schedule the engine's turn, else the first move of the schedule. -/
theorem step_cases (s : State) :
    (s.schedule = [] ∧ step s = engineTurn s) ∨
    (∃ a rest, s.schedule = a :: rest ∧ step s = perform a { s with schedule := rest }) := by
  cases h : s.schedule with
  | nil => exact .inl ⟨rfl, by simp [step, moveNext, h]⟩
  | cons a rest => exact .inr ⟨a, rest, rfl, by simp [step, moveNext, h]⟩

/-- Everything one move can do. -/
theorem perform_cases {a : Action} {s t : State} (h : perform a s = .next t) :
    (a = .engine ∧ engineTurn s = .next t) ∨
    (a = .reset ∧ t = s.applyReset) ∨
    (∃ b, a = .regRead b ∧ hostRegRead b s = .next t) ∨
    (∃ b w, a = .regWrite b w ∧ hostRegWrite b w s = .next t) ∨
    (∃ x, a = .memRead x ∧ hostMemRead x s = .next t) ∨
    (∃ x b, a = .memWrite x b ∧ hostMemWrite x b s = .next t) ∨
    (a = .wait ∧ t = pollStatus s) := by
  cases a with
  | engine => exact .inl ⟨rfl, h⟩
  | reset => exact .inr (.inl ⟨rfl, by cases h; rfl⟩)
  | regRead b => exact .inr (.inr (.inl ⟨b, rfl, h⟩))
  | regWrite b w => exact .inr (.inr (.inr (.inl ⟨b, w, rfl, h⟩)))
  | memRead x => exact .inr (.inr (.inr (.inr (.inl ⟨x, rfl, h⟩))))
  | memWrite x b => exact .inr (.inr (.inr (.inr (.inr (.inl ⟨x, b, rfl, h⟩)))))
  | wait => exact .inr (.inr (.inr (.inr (.inr (.inr ⟨rfl, by cases h; rfl⟩)))))

end Sys2Proof.Machine
end

