-- ==== Sys2Proof/Laws/PerInstr.lean ====
section
/-!
SUPPORT. The per-instruction family `Encoding`: what the encoding of each command is, as syntax.
-/

namespace Sys2Proof.Laws.Encoding

/-- The command is well-formed, its word has no reserved bit set, and the word decodes to the command. -/
def Statement (i : Instr) : Prop :=
  i.wellFormed = true ∧ (splitCommand (encode i)).WellFormed ∧ decode (encode i) = .ok i

theorem rleEnc : Statement .rleEnc := by unfold Statement; decide
theorem rleDec : Statement .rleDec := by unfold Statement; decide
theorem hufFreq : Statement .hufFreq := by unfold Statement; decide
theorem hufBuild : Statement .hufBuild := by unfold Statement; decide
theorem hufCodegen : Statement .hufCodegen := by unfold Statement; decide
theorem hufPack : Statement .hufPack := by unfold Statement; decide
theorem hufUnpack : Statement .hufUnpack := by unfold Statement; decide
theorem hufEnc : Statement .hufEnc := by unfold Statement; decide
theorem hufDec : Statement .hufDec := by unfold Statement; decide
theorem lzwEnc : Statement .lzwEnc := by unfold Statement; decide
theorem lzwDec : Statement .lzwDec := by unfold Statement; decide

end Sys2Proof.Laws.Encoding
end

