-- ==== Sys2Proof/Certificates/Slice0/Obligations.lean ====
section
/-!
DEFINITION. The statements about the model for the provers. Each docstring names the rules of spec/ it rests on.
-/

open Sys2Proof Sys2Proof.Machine

/-! ### Encoding -/

/-- R70, R71: decoding the word of a well-formed command gives the command back. -/
def Obligations.EncodedCommandDecodes : Prop :=
  ∀ i : Instr, i.wellFormed = true → decode (encode i) = .ok i

/-- R71: a 32-bit word selects a command exactly when it is that command's match word; every bit is significant. -/
def Obligations.WordSelectsCommandIffInMap : Prop :=
  ∀ (w : Word) (i : Instr), decode w = .ok i ↔
    (w, i) ∈ [((0x00000001 : Word), Instr.rleEnc), (0x00000002, .rleDec), (0x00000010, .hufFreq),
      (0x00000011, .hufBuild), (0x00000012, .hufCodegen), (0x00000013, .hufPack), (0x00000014, .hufUnpack),
      (0x00000015, .hufEnc), (0x00000016, .hufDec), (0x00000020, .lzwEnc), (0x00000021, .lzwDec)]

/-- R70 to R72: a word of each family, written out from the opcode map, decodes to its command, and the reset value and
a word with a reserved bit set decode to none. -/
def Obligations.MapWordsDecodeByFamily : Prop :=
  decode 0x00000001 = .ok .rleEnc ∧ decode 0x00000014 = .ok .hufUnpack ∧ decode 0x00000016 = .ok .hufDec ∧
    decode 0x00000021 = .ok .lzwDec ∧ decode 0x00000000 = .error .unknownOpcode ∧
    decode 0x00000101 = .error .reservedBits

/-! ### The step -/

/-- R54, R101, R102: while BUSY with a command word in CMD, the step that is the engine's turn is `exec` of that
command, on the state without the turn that was scheduled. That the engine has its turn when nothing is scheduled is the
model's choice (log entry 4). -/
def Obligations.StepRunsDecodedCommand : Prop :=
  ∀ (s : State) (i : Instr), s.busy = true → decode s.cmd = .ok i → i.wellFormed = true →
    (s.schedule = [] → step s = exec i s) ∧
    ∀ rest, s.schedule = .engine :: rest → step s = exec i { s with schedule := rest }

/-- R101: the engine's step is enabled exactly when BUSY = 1; otherwise its turn changes nothing. That an idle block
with nothing scheduled stays as it is is the model's choice (log entry 4). -/
def Obligations.EngineDisabledWhileIdle : Prop :=
  ∀ s : State, s.busy = false →
    (s.schedule = [] → step s = .next s) ∧
    ∀ rest, s.schedule = .engine :: rest → step s = .next { s with schedule := rest }

/-- R72, R101: while BUSY with a word that is no command's in CMD, the engine's turn completes with E_BAD_CMD; it
writes no buffer memory, and reads none: with any other memory the completion is the same. That the engine has its turn
also when nothing is scheduled is the model's choice (log entry 4). -/
def Obligations.IllegalWordCompletesWithBadCmd : Prop :=
  ∀ (s : State) (rest : List Action), s.busy = true → (∀ i : Instr, s.cmd ≠ encode i) →
    (s.schedule = .engine :: rest ∨ (s.schedule = [] ∧ rest = [])) →
    ∃ t, step s = .next t ∧ ({ s with schedule := rest } : State).FailedWith t .badCmd ∧ t.errCode = 0x01 ∧
      t.mem = s.mem ∧ t.drawCount = s.drawCount ∧
      ∀ m, step { s with mem := m } = .next { t with mem := m }

/-- R101, R106: every command completes, whatever the state and the bytes: BUSY 0, DONE 1, ERR set exactly when ERR_CODE
is not 0. -/
def Obligations.EveryCommandCompletes : Prop :=
  ∀ (i : Instr) (s : State), ∃ t, exec i s = .next t ∧ t.busy = false ∧ t.done = true ∧
    (t.err = true ↔ t.errCode ≠ 0) ∧ (t.errCode ≠ 0 → t.NoResult)

/-- R40, R104: what a command leaves unchanged. Every operand register, CMD, IE and the platform; every byte of buffer
memory outside the destination buffer; after a success also every destination byte past RESULT_LEN; after one of the
first three errors all of buffer memory. It covers all eleven commands. -/
def Obligations.CommandFrame : Prop :=
  ∀ (i : Instr) (s t : State), exec i s = .next t →
    s.SameOperands t ∧ s.SameMemoryOutside t s.dst.start s.dst.len ∧
    (t.errCode = 0 → t.resultLen.toNat ≤ s.dst.len ∧ s.SameMemoryOutside t s.dst.start t.resultLen.toNat) ∧
    (t.errCode = 0x01 ∨ t.errCode = 0x02 ∨ t.errCode = 0x03 → t.mem = s.mem)

/-- R102, R203: which error a command reports, for all eleven commands: E_RANGE if a buffer it uses is out of range,
else E_OVERLAP if the destination overlaps a buffer it reads, else its function's own error, else E_DST_FULL if the
output is longer than DST_CAP. -/
def Obligations.ErrorPriority : Prop :=
  ∀ (i : Instr) (s : State), ∃ t, exec i s = .next t ∧
    (¬ s.BuffersInRange i → s.FailedWith t .range) ∧
    (s.BuffersInRange i → ¬ s.DestinationApart i → s.FailedWith t .overlap) ∧
    (s.BuffersPass i → ∀ e, s.functionResult i = .error e → s.FailedWith t e) ∧
    (s.BuffersPass i → ∀ o, s.functionResult i = .ok o → s.dst.len < o.out.length → s.FailedWith t .dstFull)

/-- R102, R104, R75: every command whose buffers pass the checks, whose function succeeds and whose output fits
completes with exactly that output and those results; the auxiliary result and the bit count fit their registers. -/
def Obligations.CommandSucceeds : Prop :=
  ∀ (i : Instr) (s : State) (o : Output), s.BuffersPass i → s.functionResult i = .ok o → o.out.length ≤ s.dst.len →
    ∃ t, exec i s = .next t ∧ s.CompletedWith t o

/-- R103: E_DST_FULL is reported exactly for an output that is correct but too long, and then no result is committed; a
failing computation reports its own error even with no room at all. -/
def Obligations.DstFullOnlyForCorrectOutput : Prop :=
  ∀ (i : Instr) (s t : State), exec i s = .next t →
    (t.errCode = 0x04 ↔ s.BuffersPass i ∧ ∃ o, s.functionResult i = .ok o ∧ s.dst.len < o.out.length) ∧
    (t.errCode = 0x04 → t.NoResult) ∧
    (s.BuffersPass i → ∀ e, s.functionResult i = .error e → t.errCode = errorByte e)

/-- R74, R106, R202: the outcome of a command depends only on the platform, its buffers' places and bytes, and (for
HUF_UNPACK) IN_BITS: two states that agree on these report the same error, length, auxiliary result, bit count and
output, whatever else differs. -/
def Obligations.OutcomeDependsOnOperandsOnly : Prop :=
  ∀ (i : Instr) (s t s' t' : State), s.platform = t.platform → s.src = t.src → s.dst = t.dst →
    s.srcBytes = t.srcBytes → (usesTree i = true → s.tree = t.tree ∧ s.treeBytes = t.treeBytes) →
    (i = .hufUnpack → s.inBits = t.inBits) →
    exec i s = .next s' → exec i t = .next t' →
    s'.SameResults t' ∧ s'.err = t'.err ∧ (s'.errCode = 0 →
      s'.mem.readBytes s.dst.start s'.resultLen.toNat = t'.mem.readBytes s.dst.start s'.resultLen.toNat)

/-! ### The register window -/

/-- R100, R20: a write of `w` to CTRL while BUSY = 0 sets IE to bit 1 and, if bit 0 is 1, sets BUSY, clears DONE and
ERR and zeroes the result registers; nothing else of the block changes, no error is detected. The host has then observed
no completion since the START (R227; `seenDone`, log entry 16, the model's). -/
def Obligations.CtrlWriteStartsCommand : Prop :=
  ∀ (s : State) (acc : BusAccess) (w : Word) (rest : List Action), s.busy = false →
    s.schedule = .regWrite acc w :: rest → acc.WellFormed s.platform → acc.offset s.platform = 0x00 →
    step s = .next
      (if w.getLsbD 0 then
        { s with
          schedule := rest, ie := w.getLsbD 1, busy := true, done := false, err := false, errCode := 0,
          resultLen := 0, resultAux := 0, outBitsLo := 0, outBitsHi := 0, seenDone := false }
      else { s with schedule := rest, ie := w.getLsbD 1 })

/-- R100, R101: a START of a command, followed by the engine's turn, runs that command, with the operands the registers
held. That the engine has its turn also when nothing is scheduled after the START is the model's choice (log entry 4).
-/
def Obligations.StartedCommandRuns : Prop :=
  ∀ (s : State) (i : Instr) (w : Word) (rest : List Action),
    s.busy = false → decode s.cmd = .ok i → w.getLsbD 0 = true →
    (s.schedule = wrAction s.platform .ctrl w :: .engine :: rest ∨
      (s.schedule = [wrAction s.platform .ctrl w] ∧ rest = [])) →
    Sys2Proof.core.run 2 s = exec i ({ s with schedule := rest, ie := w.getLsbD 1 }.start)

/-- R31: while BUSY = 1 every write of the register window has no effect, W1C writes and writes to CTRL included; reads
are always allowed and change nothing of the block. The fields `readback` and `seenDone`, which a read sets, are the
model's record of what the host has read (log entries 5 and 16). -/
def Obligations.BusyWindowIsReadOnly : Prop :=
  ∀ (s : State) (acc : BusAccess) (rest : List Action), acc.WellFormed s.platform →
    (∀ w, s.busy = true → s.schedule = .regWrite acc w :: rest → step s = .next { s with schedule := rest }) ∧
    (s.schedule = .regRead acc :: rest →
      ∃ v, step s = .next
        { s with
          schedule := rest, readback := .register (acc.offset s.platform) v
          seenDone := s.seenDone || (decide (acc.offset s.platform = 0x04) && v.getLsbD 1) })

/-- R21: a write to STATUS while BUSY = 0 clears DONE where bit 1 is 1 and ERR where bit 2 is 1, and changes nothing
else; ERR_CODE keeps its value (R23, R206). -/
def Obligations.StatusBitsClearWhenWrittenWithOne : Prop :=
  ∀ (s : State) (acc : BusAccess) (w : Word) (rest : List Action), s.busy = false →
    s.schedule = .regWrite acc w :: rest → acc.WellFormed s.platform → acc.offset s.platform = 0x04 →
    ∃ t, step s = .next t ∧
      (t.done = true ↔ s.done = true ∧ w.getLsbD 1 = false) ∧ (t.err = true ↔ s.err = true ∧ w.getLsbD 2 = false) ∧
      t = { s with schedule := rest, done := t.done, err := t.err }

/-- R19, R22 to R30: a write to a register other than CTRL and STATUS while BUSY = 0. An RW register then reads as
written, an RO register keeps its value, and no other register, no flag and no byte of memory changes. -/
def Obligations.RegisterWriteHoldsValue : Prop :=
  ∀ (s : State) (r : Reg) (acc : BusAccess) (w : Word) (rest : List Action), s.busy = false →
    r ≠ .ctrl → r ≠ .status → s.schedule = .regWrite acc w :: rest → acc.WellFormed s.platform →
    acc.offset s.platform = regOffset r →
    ∃ t, step s = .next t ∧
      t.regValue r =
        (if r = .errCode ∨ r = .resultLen ∨ r = .resultAux ∨ r = .outBitsLo ∨ r = .outBitsHi then s.regValue r else w) ∧
      (∀ r', r' ≠ r → t.regValue r' = s.regValue r') ∧
      t.busy = s.busy ∧ t.mem = s.mem ∧ t.platform = s.platform ∧ t.drawCount = s.drawCount ∧
      t.readback = s.readback ∧ t.seenDone = s.seenDone ∧ t.schedule = rest

/-- R17, R19: a read of a register returns its value and changes nothing of the block; every other aligned offset of
the window reads 0, and a write there has no effect. The fields `readback` and `seenDone`, which a read sets, are the
model's record of what the host has read (log entries 5 and 16). -/
def Obligations.WindowReadsAndUnusedOffsets : Prop :=
  ∀ (s : State) (acc : BusAccess) (rest : List Action), acc.WellFormed s.platform →
    (∀ r, acc.offset s.platform = regOffset r → s.schedule = .regRead acc :: rest →
      step s = .next
        { s with
          schedule := rest, readback := .register (regOffset r) (s.regValue r)
          seenDone := s.seenDone || (decide (r = .status) && s.done) }) ∧
    (0x40 ≤ acc.offset s.platform → s.schedule = .regRead acc :: rest →
      step s = .next { s with schedule := rest, readback := .register (acc.offset s.platform) 0 }) ∧
    (∀ w, 0x40 ≤ acc.offset s.platform → s.schedule = .regWrite acc w :: rest →
      step s = .next { s with schedule := rest })

/-- R18: an access of the window that is not 32 bits wide at a 32-bit-aligned offset is refused. -/
def Obligations.OtherRegisterAccessRefused : Prop :=
  ∀ (s : State) (acc : BusAccess) (rest : List Action), acc.InWindow s.platform →
    (acc.width ≠ 4 ∨ acc.offset s.platform % 4 ≠ 0) →
    (s.schedule = .regRead acc :: rest → step s = .refused (.registerAccess acc)) ∧
    (∀ w, s.schedule = .regWrite acc w :: rest → step s = .refused (.registerAccess acc))

/-- R207: IRQ is IE and DONE. It is IE after every completion, 0 after a START, after DONE is cleared, after IE is
cleared and after reset. -/
def Obligations.InterruptFollowsDoneAndEnable : Prop :=
  (∀ s : State, s.irq = true ↔ s.ie = true ∧ s.done = true) ∧
  (∀ (s : State) (r : Result), (s.complete r).irq = s.ie) ∧
  (∀ s : State, s.start.irq = false) ∧
  (∀ (s : State) (w : Word), w.getLsbD 1 = true → (s.acknowledge w).irq = false) ∧
  (∀ (s : State) (w : Word), w.getLsbD 1 = false → (s.writeCtrl w).irq = false) ∧
  (∀ s : State, s.applyReset.irq = false)

/-- R225, R85: with the engine's step pending, `WAIT` ends: after a poll, the engine's step and a second poll the host
has read STATUS with DONE = 1, and `seenDone` records it (log entry 16, the model's). That the engine moves between two
polls is the model's choice (log entry 4). -/
def Obligations.WaitEndsAfterEngineStep : Prop :=
  ∀ (s : State) (rest : List Action), s.busy = true → s.done = false → s.schedule = .wait :: rest →
    ∃ t w, Sys2Proof.core.run 3 s = .next t ∧ t.schedule = rest ∧ t.done = true ∧ t.busy = false ∧
      t.readback = .register 0x04 w ∧ w.getLsbD 1 = true ∧ t.seenDone = true

/-! ### Buffer memory -/

/-- R222, R223, R38: a write of an existing byte of buffer memory by any agent. While BUSY it faults exactly at a byte
of the running command's source, destination or (HUF_PACK and HUF_UNPACK) tree buffer; everywhere else that one byte
changes and nothing else. That the source and destination ranges are locked whatever word CMD holds is the model's
reading (log entry 6). -/
def Obligations.MemoryWriteFaultsExactlyWhereLocked : Prop :=
  ∀ (s : State) (a : Word) (b : Byte) (rest : List Action), s.schedule = .memWrite a b :: rest →
    a.toNat < s.platform.memSize →
    (s.busy = true → s.src.Contains a.toNat ∨ s.dst.Contains a.toNat ∨
        ((s.cmd = 0x13 ∨ s.cmd = 0x14) ∧ s.tree.Contains a.toNat) → step s = .fault (.lockedBufferWrite a)) ∧
    (s.busy = false ∨ (¬ s.src.Contains a.toNat ∧ ¬ s.dst.Contains a.toNat ∧
        ¬ ((s.cmd = 0x13 ∨ s.cmd = 0x14) ∧ s.tree.Contains a.toNat)) →
      ∃ t, step s = .next t ∧ t.mem.read a.toNat = b ∧ s.SameMemoryOutside t a.toNat 1 ∧
        t = { s with schedule := rest, mem := t.mem })

/-- R45, R222: a host read of an existing byte that is not a running command's destination byte returns its content and
changes nothing else, also while BUSY; a read of a destination byte while BUSY makes one draw, whose value is free, and
leaves memory as it is. That a byte of both buffers counts as a destination byte is the model's reading (log entry 8),
and the fields `readback` and `drawCount` are the model's own (log entries 5 and 3). -/
def Obligations.MemoryReadReturnsContent : Prop :=
  ∀ (s : State) (a : Word) (rest : List Action), s.schedule = .memRead a :: rest → a.toNat < s.platform.memSize →
    (s.busy = false ∨ ¬ s.dst.Contains a.toNat →
      step s = .next { s with schedule := rest, readback := .byte a (s.mem.read a.toNat) }) ∧
    (s.busy = true → s.dst.Contains a.toNat →
      ∃ v, step s = .next { s with schedule := rest, readback := .byte a v, drawCount := s.drawCount + 1 })

/-! ### Reset -/

/-- R215, R216: after reset every register reads 0, the block is idle with nothing to report and IRQ is 0, and the
platform is as it was; while no command runs, buffer memory does not change. That the reset input leaves `readback` and
`seenDone` is the model's choice (log entries 5 and 16), as are its counter of draws and its schedule (log entries 3
and 4). -/
def Obligations.ResetClearsRegisters : Prop :=
  ∀ (s : State) (rest : List Action), s.schedule = .reset :: rest →
    ∃ t, step s = .next t ∧ (∀ r, t.regValue r = 0) ∧ t.ie = false ∧ t.busy = false ∧ t.done = false ∧ t.err = false ∧
      t.errCode = 0 ∧ t.irq = false ∧ t.platform = s.platform ∧
      t.schedule = rest ∧ t.readback = s.readback ∧ t.seenDone = s.seenDone ∧
      (s.busy = false → t.mem = s.mem ∧ t.drawCount = s.drawCount)

/-- R217: a reset while BUSY = 1 gives no completion (DONE stays 0, IRQ does not rise), and no byte of buffer memory
outside the destination buffer changes. That it is so whatever word CMD holds is the model's reading (log entry 7). -/
def Obligations.ResetAbandonsRunningCommand : Prop :=
  ∀ (s : State) (rest : List Action), s.busy = true → s.schedule = .reset :: rest →
    ∃ t, step s = .next t ∧ t.busy = false ∧ t.done = false ∧ t.irq = false ∧ t.NoResult ∧
      s.SameMemoryOutside t s.dst.start s.dst.len

/-! ### Whole-machine rules -/

/-- The reset state of every platform that R9 allows meets the invariant. The platform of `State.reset` and its empty
memory are the model's choices (log entries 1 and 2), and so is the reset value of `seenDone` (log entry 16). -/
def Obligations.InvariantHoldsAtReset : Prop :=
  (∀ p : Platform, p.WellFormed → (State.resetOn p).Inv) ∧ State.reset.Inv

/-- The invariant (memory in canonical form and inside MEM_SIZE; BUSY and DONE never both 1; a running command has
nothing to report and none that the host has observed; an error has no result; ERR goes with a code; ERR_CODE is a
listed code) is kept by every step from every state that meets it, and no step changes MEM_SIZE or REG_BASE. -/
def Obligations.InvariantKeptByEveryStep : Prop :=
  ∀ s t : State, s.Inv → step s = .next t → t.Inv ∧ t.platform = s.platform

/-- R51: from a completion until the next START (or a reset), no step changes ERR_CODE or a result register, and only
another agent's memory write changes a byte of buffer memory. -/
def Obligations.ResultsStableUntilNextStart : Prop :=
  ∀ s t : State, s.busy = false → step s = .next t →
    (∀ acc w rest, s.schedule = .regWrite acc w :: rest →
      ¬ (acc.offset s.platform = 0x00 ∧ w.getLsbD 0 = true)) →
    s.schedule.head? ≠ some .reset →
    s.SameResults t ∧ ((∀ a b, s.schedule.head? ≠ some (.memWrite a b)) → t.mem = s.mem)

/-- R21, R100, R104: the only events that change the flags. BUSY rises only by a START, and falls only by the engine's
step, which then sets DONE, or by reset; DONE rises only by the engine's step of a running command, and ERR only so and
with an error code; DONE and ERR fall only by a write of 1 to their bit of STATUS while BUSY = 0, by a START or by reset
(for ERR from a state that meets the invariant, in which a running command has ERR = 0). That an empty schedule is the
engine's turn is the model's choice (log entry 4). -/
def Obligations.FlagTransitions : Prop :=
  ∀ s t : State, step s = .next t →
    (s.busy = false → t.busy = true → s.NextSetsBit 0x00 0) ∧
    (s.busy = true → t.busy = false → (s.NextIsEngine ∧ t.done = true) ∨ s.schedule.head? = some .reset) ∧
    (s.done = false → t.done = true → s.busy = true ∧ t.busy = false ∧ s.NextIsEngine) ∧
    (s.done = true → t.done = false →
      s.NextSetsBit 0x04 1 ∨ s.NextSetsBit 0x00 0 ∨ s.schedule.head? = some .reset) ∧
    (s.err = false → t.err = true → s.busy = true ∧ t.busy = false ∧ s.NextIsEngine ∧ t.errCode ≠ 0) ∧
    (s.Inv → s.err = true → t.err = false →
      s.NextSetsBit 0x04 2 ∨ s.NextSetsBit 0x00 0 ∨ s.schedule.head? = some .reset)

/-- R109, with R139, R141 and R142 for the tree: with SRC_LEN = 0 and legal buffers, every command succeeds with the
empty output, but for HUF_FREQ's 1024 and HUF_CODEGEN's 8448 zero bytes; HUF_PACK and HUF_UNPACK still report a
malformed tree, and HUF_UNPACK fails if IN_BITS is not 0. -/
def Obligations.EmptyInputSucceeds : Prop :=
  ∀ s : State, s.src.len = 0 →
    (∀ i ∈ [Instr.rleEnc, .rleDec, .hufBuild, .hufEnc, .hufDec], s.BuffersPass i →
      ∃ t, exec i s = .next t ∧ s.CompletedWith t ⟨[], 0, 0⟩) ∧
    (∀ i ∈ [Instr.lzwEnc, .lzwDec], s.BuffersPass i → ∃ t, exec i s = .next t ∧ s.CompletedWith t ⟨[], 256, 0⟩) ∧
    (s.BuffersPass .hufFreq → 1024 ≤ s.dst.len →
      ∃ t, exec .hufFreq s = .next t ∧ s.CompletedWith t ⟨List.replicate 1024 0, 0, 0⟩) ∧
    (s.BuffersPass .hufCodegen → 8448 ≤ s.dst.len →
      ∃ t, exec .hufCodegen s = .next t ∧ s.CompletedWith t ⟨List.replicate 8448 0, 0, 0⟩) ∧
    (s.BuffersPass .hufPack →
      (∀ t?, loadTree s.treeBytes = .ok t? → ∃ t, exec .hufPack s = .next t ∧ s.CompletedWith t ⟨[], 0, 0⟩) ∧
      (∀ e, loadTree s.treeBytes = .error e → ∃ t, exec .hufPack s = .next t ∧ s.FailedWith t e)) ∧
    (s.BuffersPass .hufUnpack →
      (∀ t?, loadTree s.treeBytes = .ok t? → s.inBits = 0 →
        ∃ t, exec .hufUnpack s = .next t ∧ s.CompletedWith t ⟨[], 0, 0⟩) ∧
      (∀ e, loadTree s.treeBytes = .error e → ∃ t, exec .hufUnpack s = .next t ∧ s.FailedWith t e) ∧
      (0 < s.inBits → ∃ t e, exec .hufUnpack s = .next t ∧ s.FailedWith t e))

/-! ### RLE -/

/-- R120, R77: RLE_ENC with room for twice its input completes; its output is the maximal record stream that stands for
the input: whole records with counts 1 to 255 and two records of one value in succession only after a count of 255. -/
def Obligations.RleEncWritesMaximalRecords : Prop :=
  ∀ s : State, s.BuffersPass .rleEnc → 2 * s.src.len ≤ s.dst.len →
    ∃ t out, exec .rleEnc s = .next t ∧ s.CompletedWith t ⟨out, 0, 0⟩ ∧ out = rleEncode s.srcBytes ∧
      RleMaximal out ∧ expandRecords out = s.srcBytes ∧ out.length ≤ 2 * s.src.len

/-- R120: a run of `n` equal bytes gives `n / 255` records of count 255 and one of the rest, if there is a rest. -/
def Obligations.RleRunSplitsAt255 : Prop :=
  ∀ (n : Nat) (v : Byte), rleEncode (List.replicate n v) =
    (List.replicate (n / 255) [(255 : Byte), v]).flatten ++ (if n % 255 = 0 then [] else [BitVec.ofNat 8 (n % 255), v])

/-- R121: RLE_DEC fails with E_RLE_ODD exactly on an odd SRC_LEN (whatever DST_CAP), and else completes with each
record's value repeated count times, a count of 0 adding nothing, if that fits. -/
def Obligations.RleDecExpandsRecords : Prop :=
  ∀ s : State, s.BuffersPass .rleDec →
    (s.src.len % 2 = 1 → ∃ t, exec .rleDec s = .next t ∧ s.FailedWith t .rleOdd) ∧
    (s.src.len % 2 = 0 →
      ((rleRecords s.srcBytes).flatMap fun r => List.replicate r.1.toNat r.2).length ≤ s.dst.len →
      ∃ t, exec .rleDec s = .next t ∧
        s.CompletedWith t ⟨(rleRecords s.srcBytes).flatMap fun r => List.replicate r.1.toNat r.2, 0, 0⟩)

/-- R122: decoding an encoded string gives it back; encoding a decoded stream gives the stream back exactly when it is
maximal. -/
def Obligations.RleRoundTrip : Prop :=
  (∀ b : List Byte, ∃ out, fnRleEnc b = .ok ⟨out, 0, 0⟩ ∧ fnRleDec out = .ok ⟨b, 0, 0⟩) ∧
  (∀ stream b : List Byte, fnRleDec stream = .ok ⟨b, 0, 0⟩ → (fnRleEnc b = .ok ⟨stream, 0, 0⟩ ↔ RleMaximal stream))

/-! ### Huffman: frequency table, tree, codes -/

/-- R130, R82: HUF_FREQ with 1024 bytes of room writes, for every byte value, its count as four little-endian bytes;
RESULT_AUX is the number of values present. -/
def Obligations.HufFreqWritesCounts : Prop :=
  ∀ s : State, s.BuffersPass .hufFreq → 1024 ≤ s.dst.len →
    ∃ t out, exec .hufFreq s = .next t ∧ s.CompletedWith t ⟨out, distinct s.srcBytes, 0⟩ ∧ out.length = 1024 ∧
      ∀ k < 256, leValue ((out.drop (4 * k)).take 4) = s.srcBytes.count (BitVec.ofNat 8 k)

/-- R132, R134: `Build` gives no tree exactly for empty input; the leaves of a built tree are the distinct symbols of
the input, each once; and the tree is the one that R134's loop makes: from the leaves of the symbols present, in
ascending order, numbered from 0 and weighted with their counts, the two least entries in the order of `(weight, seq)`
are merged again and again, the least on the left. -/
def Obligations.BuiltTreeLeavesAreSymbols : Prop :=
  ∀ S : List Byte, (build S = none ↔ S = []) ∧
    ∀ t, build S = some t →
      leafCount t = distinct S ∧ (treeSymbols t).Nodup ∧ (∀ b, b ∈ treeSymbols t ↔ b ∈ S) ∧
      ∃ symbols : List Byte, symbols.Pairwise (fun x y => x.toNat < y.toNat) ∧ (∀ b, b ∈ symbols ↔ b ∈ S) ∧
        Merges symbols.length (symbols.zipIdx.map fun x => ⟨S.count x.1, x.2, .leaf x.1⟩) t

/-- R133, R161: HUF_BUILD completes with the serialized tree: `3k - 1` bytes for `k >= 2` leaves, 2 for one, none for
empty input; RESULT_AUX is `k`. -/
def Obligations.HufBuildWritesTree : Prop :=
  ∀ s : State, s.BuffersPass .hufBuild →
    (s.src.len = 0 → ∃ t, exec .hufBuild s = .next t ∧ s.CompletedWith t ⟨[], 0, 0⟩) ∧
    (s.src.len ≠ 0 → (if distinct s.srcBytes = 1 then 2 else 3 * distinct s.srcBytes - 1) ≤ s.dst.len →
      ∃ t tr, build s.srcBytes = some tr ∧ exec .hufBuild s = .next t ∧
        s.CompletedWith t ⟨ser tr, distinct s.srcBytes, 0⟩ ∧
        (ser tr).length = (if distinct s.srcBytes = 1 then 2 else 3 * distinct s.srcBytes - 1))

/-- R161: a built tree has `k` distinct leaf symbols, one per distinct input symbol, and `k - 1` internal nodes, and
is serialized in `3k - 1` bytes (2 for one leaf), at most 767. -/
def Obligations.BuiltTreeSize : Prop :=
  ∀ (S : List Byte) (t : Tree), build S = some t →
    leafCount t = distinct S ∧ (treeSymbols t).Nodup ∧ internalCount t = leafCount t - 1 ∧
    (ser t).length = (if leafCount t = 1 then 2 else 3 * leafCount t - 1) ∧ (ser t).length ≤ 767

/-- R138: in every tree that `LoadTree` accepts or `Build` makes, no code is a prefix of another symbol's code, and
every code has 1 to 255 bits. -/
def Obligations.CodesArePrefixFree : Prop :=
  ∀ t : Tree, LegalTree t →
    (∀ a b p q, a ≠ b → codeOf t a = some p → codeOf t b = some q → ¬ p <+: q) ∧
    (∀ a p, codeOf t a = some p → 1 ≤ p.length ∧ p.length ≤ 255)

/-- R137: a symbol's code is the path from the root to its leaf, 0 to the left and 1 to the right; a tree that is one
leaf has the code `0`. R136, R83: HUF_CODEGEN with 8448 bytes of room writes, for each byte value, its code length and
its packed code in a 33-byte entry, zero for a value without a code; a malformed tree is reported whatever DST_CAP. -/
def Obligations.HufCodegenWritesCodeTable : Prop :=
  (∀ x y, codeOf (.leaf x) y = if y = x then some [false] else none) ∧
  (∀ l r x p, (treeSymbols (.node l r)).Nodup →
    (codeOf (.node l r) x = some p ↔ leafAt (.node l r) p = some x)) ∧
  ∀ s : State, s.BuffersPass .hufCodegen →
    (∀ e, loadTree s.srcBytes = .error e → ∃ t, exec .hufCodegen s = .next t ∧ s.FailedWith t e) ∧
    (∀ tr, loadTree s.srcBytes = .ok tr → 8448 ≤ s.dst.len →
      ∃ t out, exec .hufCodegen s = .next t ∧ s.CompletedWith t ⟨out, leafCountOpt tr, 0⟩ ∧ out.length = 8448 ∧
        ∀ k < 256, (out.drop (33 * k)).take 33 =
          match tr.bind fun t => codeOf t (BitVec.ofNat 8 k) with
          | none => List.replicate 33 0
          | some c => BitVec.ofNat 8 c.length :: (packBits c ++ List.replicate (32 - (c.length + 7) / 8) 0))

/-! ### Huffman: tree serialization -/

/-- R169: the deserializer gives a built tree back from its serialization. -/
def Obligations.SerializedTreeDeserializes : Prop :=
  ∀ (S : List Byte) (t : Tree), build S = some t → deser (ser t) = .ok t

/-- R170, with R78 and R162: what the deserializer accepts is exactly the serialization of the tree it gives, and that
tree has distinct leaf symbols, at most 255 internal nodes and 256 leaves, one more leaf than internal nodes, and depth
at most 255. -/
def Obligations.AcceptedTreesAreLegal : Prop :=
  ∀ (T : List Byte) (t : Tree), deser T = .ok t →
    ser t = T ∧ (treeSymbols t).Nodup ∧ internalCount t ≤ 255 ∧ leafCount t ≤ 256 ∧
    leafCount t = internalCount t + 1 ∧ treeDepth t ≤ 255

/-- R172: a built tree's serialization less its last byte, which is the last leaf's symbol, is refused with
E_TREE_TRUNC; and the rule's examples. -/
def Obligations.TruncatedTreeRefused : Prop :=
  (∀ (S : List Byte) (t : Tree), build S = some t →
    deser (ser t).dropLast = .error .treeTrunc ∧ (ser t).getLast? = (treeSymbols t).getLast?) ∧
  deser [0x02, 0x01, 0x42, 0x02, 0x01, 0x43, 0x01, 0x41] = .ok (.node (.leaf 0x42) (.node (.leaf 0x43) (.leaf 0x41))) ∧
  deser [0x02, 0x01, 0x42, 0x02, 0x01, 0x43, 0x01] = .error .treeTrunc ∧
  deser [0x02, 0x01, 0x42, 0x02, 0x01, 0x43] = .error .treeTrunc ∧
  deser [0x01, 0x41] = .ok (.leaf 0x41) ∧
  deser [0x03] = .error .treeMarker ∧
  deser [0x00] = .error .treeNull ∧
  deser [0x02, 0x00, 0x01, 0x41] = .error .treeNull ∧
  deser [0x02, 0x01, 0x41, 0x01, 0x41] = .error .treeDup ∧
  deser [0x01, 0x41, 0x01] = .error .treeSize ∧
  deser (List.replicate 256 0x02) = .error .treeLarge

/-- R162 to R168: how the deserializer reports the first byte that is wrong. After any bytes `os` that begin a tree and
leave it to expect a marker, with distinct symbols and at most 255 internal markers: no byte more or a leaf marker
without its symbol, the marker 0, a marker above 2, a repeated symbol, one internal marker after the 255th. After the
bytes of a whole tree: any byte more. -/
def Obligations.DeserializerFirstError : Prop :=
  (∀ (os : List (Option Tree)) (rest : List Byte), (openSymbols os).Nodup → openInternals os ≤ 255 →
    (os ≠ [] → deser (openBytes os) = .error .treeTrunc) ∧
    deser (openBytes os ++ [0x01]) = .error .treeTrunc ∧
    deser (openBytes os ++ 0x00 :: rest) = .error .treeNull ∧
    (∀ m : Byte, 3 ≤ m.toNat → deser (openBytes os ++ m :: rest) = .error .treeMarker) ∧
    (∀ x ∈ openSymbols os, deser (openBytes os ++ 0x01 :: x :: rest) = .error .treeDup) ∧
    (openInternals os = 255 → deser (openBytes os ++ 0x02 :: rest) = .error .treeLarge)) ∧
  (∀ (t : Tree) (rest : List Byte), (treeSymbols t).Nodup → internalCount t ≤ 255 → rest ≠ [] →
    deser (ser t ++ rest) = .error .treeSize)

/-! ### Huffman: packing -/

/-- R79: `PackBits` gives `ceil(n/8)` bytes, bit `i` of the string in bit `7 - (i mod 8)` of byte `i div 8`, the padding
bits 0; `UnpackBits` reads those bits; unpacking a packed string gives it back. -/
def Obligations.PackedBitsLayout : Prop :=
  (∀ b : Bits, (packBits b).length = (b.length + 7) / 8 ∧
    (∀ j k, j < (packBits b).length → k < 8 →
      ((packBits b).getD j 0).getLsbD (7 - k) = b.getD (8 * j + k) false) ∧
    unpackBits (packBits b) b.length = b) ∧
  (∀ (p : List Byte) (n i : Nat), n ≤ 8 * p.length → (unpackBits p n).length = n ∧
    (i < n → (unpackBits p n).getD i false = (p.getD (i / 8) 0).getLsbD (7 - i % 8)))

/-- R139, R140: HUF_PACK. A malformed tree is reported first, even for empty input; empty input gives empty output; an
input byte with no code, or no tree, is E_NO_CODE; otherwise the payload is the packed codes of the bytes in order and
OUT_BITS their exact number of bits. -/
def Obligations.HufPackWritesPayload : Prop :=
  ∀ s : State, s.BuffersPass .hufPack →
    (∀ e, loadTree s.treeBytes = .error e → ∃ t, exec .hufPack s = .next t ∧ s.FailedWith t e) ∧
    (∀ tr, loadTree s.treeBytes = .ok tr → s.src.len = 0 →
      ∃ t, exec .hufPack s = .next t ∧ s.CompletedWith t ⟨[], 0, 0⟩) ∧
    (loadTree s.treeBytes = .ok none → s.src.len ≠ 0 → ∃ t, exec .hufPack s = .next t ∧ s.FailedWith t .noCode) ∧
    (∀ tr, loadTree s.treeBytes = .ok (some tr) → ¬ AllCoded tr s.srcBytes →
      ∃ t, exec .hufPack s = .next t ∧ s.FailedWith t .noCode) ∧
    (∀ tr, loadTree s.treeBytes = .ok (some tr) → AllCoded tr s.srcBytes →
      ((messageBits tr s.srcBytes).length + 7) / 8 ≤ s.dst.len →
      ∃ t, exec .hufPack s = .next t ∧
        s.CompletedWith t ⟨packBits (messageBits tr s.srcBytes), 0, (messageBits tr s.srcBytes).length⟩)

/-- R141 to R144: HUF_UNPACK. A malformed tree is reported first, then an empty tree with bits to decode, then a payload
that is too short; where the bits are the codes of a message, the message is the output; where they are the codes of no
message, the error is E_PATH_INVALID under a one-leaf tree and E_PATH_INCOMPLETE under any other. -/
def Obligations.HufUnpackDecodesMessage : Prop :=
  ∀ s : State, s.BuffersPass .hufUnpack →
    (∀ e, loadTree s.treeBytes = .error e → ∃ t, exec .hufUnpack s = .next t ∧ s.FailedWith t e) ∧
    (loadTree s.treeBytes = .ok none → s.inBits = 0 →
      ∃ t, exec .hufUnpack s = .next t ∧ s.CompletedWith t ⟨[], 0, 0⟩) ∧
    (loadTree s.treeBytes = .ok none → s.inBits ≠ 0 → ∃ t, exec .hufUnpack s = .next t ∧ s.FailedWith t .treeEmpty) ∧
    (∀ tr, loadTree s.treeBytes = .ok (some tr) → 8 * s.src.len < s.inBits →
      ∃ t, exec .hufUnpack s = .next t ∧ s.FailedWith t .bitsShort) ∧
    (∀ tr msg, loadTree s.treeBytes = .ok (some tr) → s.inBits ≤ 8 * s.src.len → AllCoded tr msg →
      unpackBits s.srcBytes s.inBits = messageBits tr msg → msg.length ≤ s.dst.len →
      ∃ t, exec .hufUnpack s = .next t ∧ s.CompletedWith t ⟨msg, 0, 0⟩) ∧
    (∀ tr, loadTree s.treeBytes = .ok (some tr) → s.inBits ≤ 8 * s.src.len →
      (¬ ∃ msg, AllCoded tr msg ∧ unpackBits s.srcBytes s.inBits = messageBits tr msg) →
      ∃ t, exec .hufUnpack s = .next t ∧
        s.FailedWith t (if leafCount tr = 1 then .pathInvalid else .pathIncomplete))

/-- R145: packing a string with its own tree and unpacking the payload with that tree and the bit count gives the string
back. -/
def Obligations.HuffmanPackUnpackRoundTrip : Prop :=
  ∀ b : List Byte, b ≠ [] → ∃ t p n, build b = some t ∧ fnHufPack b (ser t) = .ok ⟨p, 0, n⟩ ∧
    fnHufUnpack p (ser t) n = .ok ⟨b, 0, 0⟩

/-! ### Huffman container -/

/-- R176, R80: HUF_ENC. Empty input gives the empty container; any other input gives the bit count, the tree size, the
tree and the packed codes, whenever they fit; RESULT_AUX is the tree size and OUT_BITS the bit count. -/
def Obligations.HufEncWritesContainer : Prop :=
  ∀ s : State, s.BuffersPass .hufEnc →
    (s.src.len = 0 → ∃ t, exec .hufEnc s = .next t ∧ s.CompletedWith t ⟨[], 0, 0⟩) ∧
    (s.src.len ≠ 0 → ∃ tr, build s.srcBytes = some tr ∧ AllCoded tr s.srcBytes ∧
      (16 + (ser tr).length + ((messageBits tr s.srcBytes).length + 7) / 8 ≤ s.dst.len →
        ∃ t, exec .hufEnc s = .next t ∧
          s.CompletedWith t
            ⟨toLE 8 (messageBits tr s.srcBytes).length ++ toLE 8 (ser tr).length ++ ser tr ++
                packBits (messageBits tr s.srcBytes),
              (ser tr).length, (messageBits tr s.srcBytes).length⟩))

/-- R177: HUF_DEC of a container made of a bit count `n`, a tree region `T` and a payload `P`: the decoder's outcome on
them, with the tree size in RESULT_AUX and the bit count in OUT_BITS; payload bytes past the bit count do not matter
(R142). -/
def Obligations.HufDecReadsContainer : Prop :=
  (∀ (s : State) (n : Nat) (T P : List Byte), s.BuffersPass .hufDec → n < 2 ^ 64 →
    s.srcBytes = toLE 8 n ++ toLE 8 T.length ++ T ++ P →
    (∀ e, decodePayload P T n = .error e → ∃ t, exec .hufDec s = .next t ∧ s.FailedWith t e) ∧
    (∀ out, decodePayload P T n = .ok out → out.length ≤ s.dst.len →
      ∃ t, exec .hufDec s = .next t ∧ s.CompletedWith t ⟨out, T.length, n⟩)) ∧
  (∀ (P X T : List Byte) (n : Nat), n ≤ 8 * P.length → decodePayload (P ++ X) T n = decodePayload P T n)

/-- R178: E_HDR_SHORT exactly for a container that is not empty and shorter than its header, or whose tree size exceeds
the bytes after the header, compared as unbounded numbers. -/
def Obligations.ShortHeaderRefused : Prop :=
  ∀ S : List Byte, fnHufDec S = .error .hdrShort ↔
    S ≠ [] ∧ (S.length < 16 ∨ S.length < 16 + leValue ((S.drop 8).take 8))

/-- R179: decoding the container of any string that the registers can describe (R9: at most 2^32 - 1 bytes) gives the
string, the tree size and the bit count back. -/
def Obligations.ContainerRoundTrip : Prop :=
  ∀ b : List Byte, b.length < 2 ^ 32 → ∃ out ts n, fnHufEnc b = .ok ⟨out, ts, n⟩ ∧ fnHufDec out = .ok ⟨b, ts, n⟩

/-! ### LZW -/

/-- R188: LZW_ENC with room for twice its input completes with its code stream, of an even number of bytes, at most
twice the input; RESULT_AUX is the final next code, 256 to 65536. The stream is the greedy one: each code's phrase is
in the dictionary when the code is emitted, and the phrase with the input's next byte is not. -/
def Obligations.LzwEncWritesCodes : Prop :=
  ∀ s : State, s.BuffersPass .lzwEnc → 2 * s.src.len ≤ s.dst.len →
    ∃ t out next, fnLzwEnc s.srcBytes = .ok ⟨out, next, 0⟩ ∧ exec .lzwEnc s = .next t ∧
      s.CompletedWith t ⟨out, next, 0⟩ ∧ out.length % 2 = 0 ∧ out.length ≤ 2 * s.src.len ∧ 256 ≤ next ∧ next ≤ 65536 ∧
      LzwGreedy s.srcBytes out

/-- R190: LZW_DEC fails with E_LZW_ODD on an odd SRC_LEN, reports a bad code whatever DST_CAP, and else completes with
the decoded bytes if they fit; RESULT_AUX is the final next code. -/
def Obligations.LzwDecDecodesCodes : Prop :=
  ∀ s : State, s.BuffersPass .lzwDec →
    (s.src.len % 2 = 1 → ∃ t, exec .lzwDec s = .next t ∧ s.FailedWith t .lzwOdd) ∧
    (s.src.len % 2 = 0 → ∀ e, fnLzwDec s.srcBytes = .error e →
      e = .lzwCode ∧ ∃ t, exec .lzwDec s = .next t ∧ s.FailedWith t .lzwCode) ∧
    (∀ o, fnLzwDec s.srcBytes = .ok o → o.out.length ≤ s.dst.len →
      ∃ t, exec .lzwDec s = .next t ∧ s.CompletedWith t o)

/-- R193: whatever the string, decoding its code stream gives it back, with the same final next code. -/
def Obligations.LzwRoundTrip : Prop :=
  ∀ b : List Byte, ∃ out next, fnLzwEnc b = .ok ⟨out, next, 0⟩ ∧ fnLzwDec out = .ok ⟨b, next, 0⟩

/-- R186: a stream of `m >= 1` codes ends with the next code `min(65536, 256 + m - 1)`, in the encoder and in the
decoder. -/
def Obligations.LzwNextCodeCountsCodes : Prop :=
  (∀ b out next, fnLzwEnc b = .ok ⟨out, next, 0⟩ → b ≠ [] → next = min 65536 (256 + out.length / 2 - 1)) ∧
  (∀ S out next, fnLzwDec S = .ok ⟨out, next, 0⟩ → S ≠ [] → next = min 65536 (256 + S.length / 2 - 1))

/-- R192, R190, R191: after a stream that decodes, one more code is refused exactly when it is beyond the next code, or
equal to it with no code before; a code below 256 decodes to its byte; a known code `256 + k` to the phrase at position
`k` and the first byte of the phrase at position `k + 1`; the next code with one before to the previous phrase and that
phrase's first byte. -/
def Obligations.LzwCodeRefusedBeyondNext : Prop :=
  ∀ (S out : List Byte) (next c : Nat) (lo hi : Byte), fnLzwDec S = .ok ⟨out, next, 0⟩ → c = leValue [lo, hi] →
    (fnLzwDec (S ++ [lo, hi]) = .error .lzwCode ↔ next < c ∨ (c = next ∧ S = [])) ∧
    (c < 256 → ∃ next', fnLzwDec (S ++ [lo, hi]) = .ok ⟨out ++ [BitVec.ofNat 8 c], next', 0⟩) ∧
    (256 ≤ c → c < next → ∃ p x r next', LzwPhraseAt S (c - 256) p ∧ LzwPhraseAt S (c - 256 + 1) (x :: r) ∧
      fnLzwDec (S ++ [lo, hi]) = .ok ⟨out ++ (p ++ [x]), next', 0⟩) ∧
    (c = next → S ≠ [] → ∃ x r next', LzwPhraseAt S (S.length / 2 - 1) (x :: r) ∧
      fnLzwDec (S ++ [lo, hi]) = .ok ⟨out ++ (x :: r ++ [x]), next', 0⟩)

/-- R189: in an encoder-written stream the code at position `j` is at most the decoder's next code there, and equal to
it only for `j >= 1`; so the decoder never reports E_LZW_CODE on it. -/
def Obligations.LzwEncoderCodesWithinNext : Prop :=
  ∀ (b out : List Byte) (next j : Nat), fnLzwEnc b = .ok ⟨out, next, 0⟩ →
    fnLzwDec out ≠ .error .lzwCode ∧
    (2 * j < out.length → ∃ prefixOut nextAt, fnLzwDec (out.take (2 * j)) = .ok ⟨prefixOut, nextAt, 0⟩ ∧
      leValue ((out.drop (2 * j)).take 2) ≤ nextAt ∧
      (leValue ((out.drop (2 * j)).take 2) = nextAt → 1 ≤ j))

/-! ### The block end to end -/

/-- R122, R179, R193 on the block: after an encoder's command has succeeded, the matching decoder's command, with its
source set to the destination and RESULT_LEN of the first and a destination with room, completes with the first
command's source bytes. -/
def Obligations.EncodeThenDecodeRestoresSource : Prop :=
  ∀ (enc dec : Instr) (s t : State) (a n : Word),
    (enc, dec) ∈ [(Instr.rleEnc, Instr.rleDec), (.hufEnc, .hufDec), (.lzwEnc, .lzwDec)] →
    exec enc s = .next t → t.errCode = 0 →
    ({ t with srcAddr := s.dstAddr, srcLen := t.resultLen, dstAddr := a, dstCap := n } : State).BuffersPass dec →
    s.src.len ≤ n.toNat →
    ∃ u o, exec dec { t with srcAddr := s.dstAddr, srcLen := t.resultLen, dstAddr := a, dstCap := n } = .next u ∧
      o.out = s.srcBytes ∧
      ({ t with srcAddr := s.dstAddr, srcLen := t.resultLen, dstAddr := a, dstCap := n } : State).CompletedWith u o

/-! ### The end of a run -/

/-- R227: a run ends when the host has observed DONE = 1 for the last command it started. The host observes it only by
a read of STATUS while DONE is 1; a START takes the observation back, whatever was observed before it; a read of STATUS
with DONE = 1 and no START to follow ends the run, whatever else follows; and with a command running, `WAIT` and no
START to follow, the run ends with the memory and the registers that the command leaves. That the engine moves between
two polls is the model's choice (log entry 4), and so is the field `seenDone` (log entry 16). -/
def Obligations.RunEndsAtObservedCompletion : Prop :=
  (∀ s t : State, step s = .next t → s.seenDone = false → t.seenDone = true →
    s.done = true ∧ t.readback = .register 0x04 s.statusWord) ∧
  (∀ s t : State, step s = .next t → s.NextSetsBit 0x00 0 → t.busy = true ∧ ¬ t.RunEnded) ∧
  (∀ (s : State) (acc : BusAccess) (rest : List Action), s.done = true → s.schedule = .regRead acc :: rest →
    acc.WellFormed s.platform → acc.offset s.platform = 0x04 → (∀ a ∈ rest, a.isStart s.platform = false) →
    ∃ t, step s = .next t ∧ t.RunEnded ∧ t.observe = s.observe) ∧
  (∀ (s t : State) (i : Instr) (rest : List Action), s.busy = true → s.done = false → s.seenDone = false →
    decode s.cmd = .ok i → s.schedule = .wait :: rest → (∀ a ∈ rest, a.isStart s.platform = false) →
    exec i s = .next t → s.RunEndsWith t.observe)
end

