-- ==== Sys2Proof/Laws/Codec.lean ====
section
/-!
SUPPORT. One lemma or a few for each function of the five units: lengths, inverses on the pieces, and what each
recursion does to the data it carries.
-/

namespace Sys2Proof.Machine

/-! ### RLE -/

/-- The records of a run in progress stand for the run and the rest of the input. -/
theorem expandRecords_rleEncodeFrom (v : Byte) (bs : List Byte) {n : Nat} (h : n ≤ 255) :
    expandRecords (rleEncodeFrom v n bs) = List.replicate n v ++ bs := by
  induction bs generalizing v n with
  | nil => simp [rleEncodeFrom, expandRecords, Nat.mod_eq_of_lt (show n < 256 by omega)]
  | cons b bs ih =>
    by_cases hb : b = v ∧ n < Config.rleMaxRun
    · rw [rleEncodeFrom, if_pos hb]
      obtain ⟨rfl, hn⟩ := hb
      simp only [Config.rleMaxRun] at hn
      rw [ih _ (by omega), List.replicate_succ', List.append_assoc, List.singleton_append]
    · rw [rleEncodeFrom, if_neg hb]
      simp [expandRecords, ih b (show 1 ≤ 255 by omega), Nat.mod_eq_of_lt (show n < 256 by omega)]

/-- A run in progress is written as whole records, at most one per byte. -/
theorem rleEncodeFrom_length (v : Byte) (bs : List Byte) (n : Nat) :
    (rleEncodeFrom v n bs).length % 2 = 0 ∧ (rleEncodeFrom v n bs).length ≤ 2 * bs.length + 2 := by
  induction bs generalizing v n with
  | nil => simp [rleEncodeFrom]
  | cons b bs ih =>
    simp only [rleEncodeFrom]
    split
    · have := ih v (n + 1); simp only [List.length_cons]; omega
    · have := ih b 1; simp only [List.length_cons]; omega

/-! ### Trees -/

theorem treeSymbols_length (t : Tree) : (treeSymbols t).length = leafCount t := by
  induction t with
  | leaf s => rfl
  | node l r hl hr => simp [treeSymbols, leafCount, hl, hr]

theorem leafCount_eq (t : Tree) : leafCount t = internalCount t + 1 := by
  induction t with
  | leaf s => rfl
  | node l r hl hr => simp only [leafCount, internalCount]; omega

/-- Each leaf takes two bytes and each internal node one (R160). -/
theorem ser_length (t : Tree) : (ser t).length = 2 * leafCount t + internalCount t := by
  induction t with
  | leaf s => rfl
  | node l r hl hr => simp only [ser, leafCount, internalCount, List.length_cons, List.length_append]; omega

theorem treeDepth_le (t : Tree) : treeDepth t ≤ internalCount t := by
  induction t with
  | leaf s => simp [treeDepth, internalCount]
  | node l r hl hr => simp only [treeDepth, internalCount]; omega

/-- `Node()` reads a serialized tree whose symbols are new and distinct, if its internal nodes are within the bound,
and stops right after it (R162, R169). -/
theorem deserNode_ser (t : Tree) (d : DeserState) (rest : List Byte) {fuel : Nat} (hf : (ser t).length ≤ fuel)
    (hr : d.rest = ser t ++ rest) (hi : d.internals + internalCount t ≤ Config.treeMaxInternal)
    (hn : (treeSymbols t).Nodup) (hs : ∀ x ∈ treeSymbols t, x ∉ d.seen) :
    ∃ seen, deserNode fuel d = .ok (t, ⟨rest, d.internals + internalCount t, seen⟩) ∧
      ∀ x, x ∈ seen ↔ x ∈ treeSymbols t ∨ x ∈ d.seen := by
  induction t generalizing d rest fuel with
  | leaf s =>
    cases fuel with
    | zero => simp [ser] at hf
    | succ fuel =>
      refine ⟨s :: d.seen, ?_, by simp [treeSymbols]⟩
      have : s ∉ d.seen := hs s (by simp [treeSymbols])
      simp [deserNode, hr, ser, this, internalCount]
  | node l r hl hr' =>
    cases fuel with
    | zero => simp [ser] at hf
    | succ fuel =>
      simp only [ser, List.length_cons, List.length_append] at hf
      simp only [internalCount] at hi
      simp only [treeSymbols] at hn hs
      obtain ⟨hnl, hnr, hdis⟩ := List.nodup_append.1 hn
      obtain ⟨s₁, h₁, m₁⟩ := hl ⟨ser l ++ (ser r ++ rest), d.internals + 1, d.seen⟩ (ser r ++ rest) (fuel := fuel)
        (by omega) rfl (by simp only; omega) hnl fun x hx => hs x (by simp [hx])
      obtain ⟨s₂, h₂, m₂⟩ := hr' ⟨ser r ++ rest, d.internals + 1 + internalCount l, s₁⟩ rest (fuel := fuel)
        (by omega) rfl (by simp only; omega) hnr fun x hx hx' => by
          rcases (m₁ x).1 hx' with h | h
          · exact hdis x h x hx rfl
          · exact hs x (by simp [hx]) h
      refine ⟨s₂, ?_, fun x => ?_⟩
      · simp only [deserNode, hr, ser, List.cons_append, List.append_assoc]
        rw [if_neg (by decide), if_pos (by decide), if_neg (by omega), h₁]
        simp only [h₂, internalCount]
        congr 3
        omega
      · rw [m₂, m₁, treeSymbols, List.mem_append]
        tauto

/-! ### The builder's pool -/

theorem takeLeast_length (e : PoolEntry) (p : List PoolEntry) : (takeLeast e p).2.length = p.length := by
  induction p generalizing e with
  | nil => rfl
  | cons f fs ih => simp only [takeLeast]; split <;> simp [ih]

/-- Taking the least entry out keeps the pool as a multiset. -/
theorem takeLeast_perm (e : PoolEntry) (p : List PoolEntry) :
    ((takeLeast e p).1 :: (takeLeast e p).2).Perm (e :: p) := by
  induction p generalizing e with
  | nil => exact List.Perm.refl _
  | cons f fs ih =>
    simp only [takeLeast]
    split
    · exact (List.Perm.swap _ _ _).trans ((ih f).cons e)
    · exact (List.Perm.swap _ _ _).trans (((ih e).cons f).trans (List.Perm.swap _ _ _))

/-- No entry of the pool comes before the entry taken (R134). -/
theorem takeLeast_least (e : PoolEntry) (p : List PoolEntry) :
    ∀ g ∈ e :: p, g.before (takeLeast e p).1 = false := by
  induction p generalizing e with
  | nil => simp [takeLeast, PoolEntry.before]
  | cons f fs ih =>
    intro g hg
    by_cases hb : f.before e = true
    · rw [takeLeast, if_pos hb]
      have hf := ih f f (by simp)
      rcases List.mem_cons.1 hg with rfl | hg
      · simp only [PoolEntry.before, Bool.or_eq_true, Bool.and_eq_true, decide_eq_true_eq, Bool.or_eq_false_iff,
          Bool.and_eq_false_iff, decide_eq_false_iff_not] at hb hf ⊢
        omega
      · exact ih f g hg
    · rw [takeLeast, if_neg hb]
      have he := ih e e (by simp)
      rcases List.mem_cons.1 hg with rfl | hg
      · exact he
      rcases List.mem_cons.1 hg with rfl | hg
      · simp only [PoolEntry.before, Bool.or_eq_true, Bool.and_eq_true, decide_eq_true_eq, Bool.or_eq_false_iff,
          Bool.and_eq_false_iff, decide_eq_false_iff_not] at hb he ⊢
        omega
      · exact ih e g (by simp [hg])

/-! ### Packed bits -/

@[simp] theorem packGroups_length (n : Nat) (b : Bits) : (packGroups n b).length = n := by
  induction n generalizing b with
  | zero => rfl
  | succ n ih => simp [packGroups, ih]

@[simp] theorem packBits_length (b : Bits) : (packBits b).length = (b.length + 7) / 8 := packGroups_length _ _

@[simp] theorem bitsOfByte_length (p : Byte) : (bitsOfByte p).length = 8 := by simp [bitsOfByte]

theorem flatMap_bitsOfByte_length (p : List Byte) : (p.flatMap bitsOfByte).length = 8 * p.length := by
  induction p with
  | nil => rfl
  | cons b bs ih => simp only [List.flatMap_cons, List.length_append, bitsOfByte_length, ih, List.length_cons]; omega

theorem unpackBits_length {p : List Byte} {n : Nat} (h : n ≤ 8 * p.length) : (unpackBits p n).length = n := by
  rw [unpackBits, List.length_take, flatMap_bitsOfByte_length]; omega

/-- The bits of the byte of 8 bits are those bits (R79). -/
theorem bitsOfByte_byteOfBits (b : Bits) (h : b.length = 8) : bitsOfByte (byteOfBits b) = b := by
  match b, h with
  | [b0, b1, b2, b3, b4, b5, b6, b7], _ => revert b0 b1 b2 b3 b4 b5 b6 b7; decide

/-! ### LZW -/

/-- An insertion adds one entry, or none once the dictionary is full (R186). -/
theorem nextCode_insertPhrase (d : Dict) (p : List Byte) :
    nextCode (insertPhrase d p) = if nextCode d < Config.lzwDictCap then nextCode d + 1 else nextCode d := by
  simp only [insertPhrase]
  split <;> simp [nextCode]; omega

/-- An insertion keeps every entry under its code (R186). -/
theorem phraseOfCode_insertPhrase {d : Dict} {c : Nat} {p q : List Byte} (h : phraseOfCode d c = some q) :
    phraseOfCode (insertPhrase d p) c = some q := by
  simp only [phraseOfCode, insertPhrase] at *
  split at h
  · next hc => rw [if_pos hc]; exact h
  · next hc =>
    rw [if_neg hc]
    split
    · rw [List.getElem?_append_left (List.getElem?_eq_some_iff.1 h).1]; exact h
    · exact h

/-- A code is assigned exactly when it is below the next code (R190). -/
theorem phraseOfCode_isSome (d : Dict) (c : Nat) : (phraseOfCode d c).isSome = true ↔ c < nextCode d := by
  simp only [phraseOfCode, nextCode]
  split
  · simp; omega
  · simp; omega

/-- The code of a phrase of the dictionary is assigned (R188). -/
theorem codeOfPhrase_lt {d : Dict} {p : List Byte} {c : Nat} (h : codeOfPhrase d p = some c) : c < nextCode d := by
  have key : (d.idxOf? p).map (256 + ·) = some c → c < nextCode d := fun h => by
    obtain ⟨k, hk, rfl⟩ := Option.map_eq_some_iff.1 h
    have := (List.idxOf?_eq_some_iff.1 hk).1
    simp only [nextCode]; omega
  match p with
  | [] => exact key h
  | [v] =>
    have := v.isLt
    simp only [codeOfPhrase, Option.some.injEq] at h
    simp only [nextCode]; omega
  | _ :: _ :: _ => exact key h

end Sys2Proof.Machine
end

