-- ==== Sys2Proof/Tests/Slice0.lean ====
section
/-!
SUPPORT. The model's own tests: terms that each well-formedness check refuses, words from the opcode map, one step of
each command on bytes of the spec's vectors (95_test_vectors.md), moves of the host, and a witness for the hypotheses
of each statement.
-/

-- One theorem at a time: the kernel evaluations below need little memory each, and much together.
set_option Elab.async false

namespace Sys2Proof.Tests

open Sys2Proof Sys2Proof.Machine

/-! ### Well-formedness: each check refuses a term -/

theorem test_platform_without_memory_refused : ¬ Platform.WellFormed ⟨0, 0⟩ := by decide
theorem test_platform_above_4GiB_refused : ¬ Platform.WellFormed ⟨2 ^ 32 + 1, 0⟩ := by decide
theorem test_reserved_bit_refused : ¬ (splitCommand 0x00000101).WellFormed := by decide
theorem test_access_below_window_refused : ¬ BusAccess.WellFormed ⟨0x10000, 0x1000⟩ ⟨0xFFC, 4⟩ := by decide
theorem test_access_above_window_refused : ¬ BusAccess.WellFormed ⟨0x10000, 0x1000⟩ ⟨0x2000, 4⟩ := by decide
theorem test_narrow_access_refused : ¬ BusAccess.WellFormed ⟨0x10000, 0x1000⟩ ⟨0x1004, 2⟩ := by decide
theorem test_misaligned_access_refused : ¬ BusAccess.WellFormed ⟨0x10000, 0x1000⟩ ⟨0x1006, 4⟩ := by decide
theorem test_window_access_accepted : BusAccess.WellFormed ⟨0x10000, 0x1000⟩ ⟨0x1FFC, 4⟩ := by decide

/-! ### Decoding: words of 30_encoding.md R71 and of V21 -/

theorem test_table_words : decodeTableWord 32 0x00000015 = some .hufEnc ∧ decodeTableWord 32 0x00000020 = some .lzwEnc := by
  decide
theorem test_illegal_words : decode 0x00000003 = .error .unknownOpcode ∧ decode 0x00000017 = .error .unknownOpcode ∧
    decode 0x000000FF = .error .unknownOpcode ∧ decode 0x80000001 = .error .reservedBits := by decide
theorem test_opcode_map_has_no_overlap : (opcodeMap.map (·.1)).Nodup := by decide

/-! ### A state about to run a command -/

/-- A platform of 64 KiB with the source bytes at 0x100, the tree bytes at 0x400, room for `cap` bytes at 0x800, and the
command started. -/
def started (i : Instr) (S T : List Byte) (cap nb : Nat) : State :=
  { State.resetOn ⟨0x10000, 0⟩ with
    busy := true, cmd := encode i
    srcAddr := 0x100, srcLen := BitVec.ofNat 32 S.length
    treeAddr := 0x400, treeLen := BitVec.ofNat 32 T.length
    dstAddr := 0x800, dstCap := BitVec.ofNat 32 cap
    inBitsLo := BitVec.ofNat 32 nb, inBitsHi := BitVec.ofNat 32 (nb / 2 ^ 32)
    mem := Memory.writeBytes (Memory.writeBytes [] 0x100 S) 0x400 T }

/-- A view of the state a step answers, if it answers one. -/
def seen {α : Type} (o : Host.Outcome State Fault Refusal) (f : State → α) : Option α :=
  match o with
  | .next s => some (f s)
  | .fault _ => none
  | .refused _ => none

/-- The written bytes, RESULT_AUX, OUT_BITS and ERR_CODE. -/
def results (s : State) : List Byte × Nat × Nat × Byte :=
  (s.mem.readBytes 0x800 s.resultLen.toNat, s.resultAux.toNat, s.outBits, s.errCode)

/-- The tree bytes T1 of 95_test_vectors.md. -/
def t1 : List Byte := [0x02, 0x01, 0x42, 0x02, 0x01, 0x43, 0x01, 0x41]

/-- "AABBBC". -/
def aabbbc : List Byte := [0x41, 0x41, 0x42, 0x42, 0x42, 0x43]

/-! ### Commands: vectors of 95_test_vectors.md -/

/-- V8. -/
theorem test_rleEnc : seen (step (started .rleEnc [0x41, 0x41, 0x41, 0x42] [] 8 0)) results =
    some ([0x03, 0x41, 0x01, 0x42], 0, 0, 0x00) := by decide +kernel
/-- V2. -/
theorem test_rleEnc_run_of_256 : rleEncode (List.replicate 256 0x07) = [0xFF, 0x07, 0x01, 0x07] := by decide +kernel
/-- V9: a record with count 0. -/
theorem test_rleDec_count_zero : seen (step (started .rleDec [0x00, 0x41, 0x02, 0x42] [] 8 0)) results =
    some ([0x42, 0x42], 0, 0, 0x00) := by decide +kernel
/-- V9: the format error wins over capacity. -/
theorem test_rleDec_odd : seen (step (started .rleDec [0x03, 0x41, 0x01] [] 0 0)) results = some ([], 0, 0, 0x10) := by
  decide +kernel
/-- V10. -/
theorem test_hufFreq : seen (step (started .hufFreq [0x41, 0x41, 0x42] [] 1024 0))
    (fun s => (s.mem.readBytes 0x904 8, s.resultLen, s.resultAux)) = some ([2, 0, 0, 0, 1, 0, 0, 0], 1024, 2) := by
  decide +kernel
/-- V10: no room. -/
theorem test_hufFreq_full : seen (step (started .hufFreq [] [] 1023 0)) (fun s => (s.errCode, s.resultLen)) =
    some (0x04, 0) := by decide +kernel
/-- V11. -/
theorem test_hufBuild : seen (step (started .hufBuild aabbbc [] 8 0)) results = some (t1, 3, 0, 0x00) := by decide +kernel
/-- V11: the lighter pair is extracted after the last leaf of its weight. -/
theorem test_hufBuild_ties : fnHufBuild [0x41, 0x42, 0x43] =
    .ok ⟨[0x02, 0x01, 0x43, 0x02, 0x01, 0x41, 0x01, 0x42], 3, 0⟩ := by decide +kernel
/-- V12. -/
theorem test_hufCodegen : seen (step (started .hufCodegen t1 [] 8448 0))
    (fun s => (s.mem.readBytes (0x800 + 2145) 3, s.mem.readBytes (0x800 + 2211) 3, s.resultLen, s.resultAux)) =
      some ([0x02, 0xC0, 0x00], [0x02, 0x80, 0x00], 8448, 3) := by decide +kernel
/-- V13. -/
theorem test_hufCodegen_marker : seen (step (started .hufCodegen [0x02, 0x03, 0x00] [] 0 0)) results =
    some ([], 0, 0, 0x13) := by decide +kernel
/-- V14. -/
theorem test_hufPack : seen (step (started .hufPack aabbbc t1 8 0)) results = some ([0xF1, 0x00], 0, 9, 0x00) := by
  decide +kernel
/-- V14: the third byte has no leaf. -/
theorem test_hufPack_no_code : seen (step (started .hufPack [0x41, 0x41, 0x44] t1 0 0)) results =
    some ([], 0, 0, 0x1C) := by decide +kernel
/-- V15: padding bits of any value. -/
theorem test_hufUnpack : seen (step (started .hufUnpack [0xF1, 0x7F] t1 8 9)) results = some (aabbbc, 0, 0, 0x00) := by
  decide +kernel
/-- V15: IN_BITS_HI counts. -/
theorem test_hufUnpack_short : seen (step (started .hufUnpack [0xF1, 0x00] t1 0 (2 ^ 32 + 9))) results =
    some ([], 0, 0, 0x19) := by decide +kernel
/-- V16. -/
theorem test_hufEnc : seen (step (started .hufEnc [0x41, 0x42] [] 64 0)) results =
    some ([2, 0, 0, 0, 0, 0, 0, 0, 5, 0, 0, 0, 0, 0, 0, 0, 0x02, 0x01, 0x41, 0x01, 0x42, 0x40], 5, 2, 0x00) := by
  decide +kernel
/-- V17. -/
theorem test_hufDec : seen (step (started .hufDec (toLE 8 9 ++ toLE 8 8 ++ t1 ++ [0xF1, 0x00, 0x55]) [] 8 0)) results =
    some (aabbbc, 8, 9, 0x00) := by decide +kernel
/-- V17: no wrap-around. -/
theorem test_hufDec_header : seen (step (started .hufDec (toLE 8 0 ++ List.replicate 8 0xFF) [] 0 0)) results =
    some ([], 0, 0, 0x11) := by decide +kernel
/-- V5. -/
theorem test_lzwEnc : seen (step (started .lzwEnc [0x41, 0x42, 0x41, 0x42, 0x41, 0x42, 0x41, 0x42, 0x41] [] 18 0)) results =
    some ([0x41, 0x00, 0x42, 0x00, 0x00, 0x01, 0x02, 0x01, 0x01, 0x01], 260, 0, 0x00) := by decide +kernel
/-- V5, with the KwKwK case. -/
theorem test_lzwDec : seen (step (started .lzwDec [0x41, 0x00, 0x42, 0x00, 0x00, 0x01, 0x02, 0x01, 0x01, 0x01] [] 9 0))
    results = some ([0x41, 0x42, 0x41, 0x42, 0x41, 0x42, 0x41, 0x42, 0x41], 260, 0, 0x00) := by decide +kernel
/-- V6: one past the next code. -/
theorem test_lzwDec_code : seen (step (started .lzwDec [0x41, 0x00, 0x01, 0x01] [] 0 0)) results =
    some ([], 0, 0, 0x1E) := by decide +kernel

/-- V21: a word with a reserved bit set, with the source out of range as well. -/
theorem test_bad_command_first : seen (step { started .rleEnc [] [] 0 0 with cmd := 0x101, srcAddr := 0xFFF0, srcLen := 0x20 })
    (fun s => (s.errCode, s.busy, s.done, s.err)) = some (0x01, false, true, true) := by decide +kernel
/-- V21: E_RANGE, and the buffer that ends exactly at MEM_SIZE. -/
theorem test_range : seen (step { started .rleEnc [] [] 0 0 with srcAddr := 0xFFF0, srcLen := 0x20 }) (·.errCode) = some 0x02 ∧
    seen (step { started .rleEnc [] [] 0x20 0 with srcAddr := 0xFFF0, srcLen := 0x10 }) (·.errCode) = some 0x00 := by
  decide +kernel
/-- V21: E_OVERLAP, and adjacent buffers. -/
theorem test_overlap : seen (step { started .rleEnc [] [] 8 0 with srcAddr := 0x7FE, srcLen := 4 }) (·.errCode) = some 0x03 ∧
    seen (step { started .rleEnc [] [] 8 0 with srcAddr := 0x7FC, srcLen := 4 }) (·.errCode) = some 0x00 := by
  decide +kernel

/-- The free value is used: the destination bytes after E_DST_FULL are the draws, and the count moves on. -/
theorem test_failure_draws : seen (step (started .rleEnc [0x41, 0x42] [] 3 0)) (fun s => (s.errCode, s.drawCount)) =
    some (0x04, 3) := by decide +kernel

/-! ### Moves of the host -/

/-- A state with one move scheduled. -/
def withMove (s : State) (a : Action) : State := { s with schedule := [a] }

/-- P4: a START straight after reset, then the engine's step, gives STATUS = 0x6. -/
theorem test_start_after_reset :
    seen (step (withMove State.reset (wrAction State.reset.platform .ctrl 0x1))) (fun s => (s.statusWord, seen (step s) (·.statusWord))) =
      some (0x1, some 0x6) := by decide +kernel
/-- P4: W1C of ERR only. -/
theorem test_acknowledge_err : seen (step (withMove { State.reset with done := true, err := true, errCode := 0x01 }
    (wrAction State.reset.platform .status 0x4))) (fun s => (s.statusWord, s.errCode)) = some (0x2, 0x01) := by decide +kernel
/-- P3: a write while BUSY is lost. -/
theorem test_busy_write_lost : seen (step (withMove (started .lzwEnc [] [] 0x20 0) (wrAction State.reset.platform .dstCap 0)))
    (·.dstCap) = some 0x20 := by decide +kernel
/-- P3: STARTI leaves IE set and IRQ follows DONE. -/
theorem test_interrupt : seen (step { started .rleEnc [] [] 0 0 with ie := true }) (fun s => (s.irq, (s.acknowledge 0x2).irq)) =
    some (true, false) := by decide +kernel
/-- R222: a write to a source byte while BUSY is a fault, and to the byte after it is allowed. -/
theorem test_locked_write : step (withMove (started .rleEnc [0x41] [] 4 0) (.memWrite 0x100 0x00)) =
      .fault (.lockedBufferWrite 0x100) ∧
    seen (step (withMove (started .rleEnc [0x41] [] 4 0) (.memWrite 0x101 0x07))) (fun s => s.mem.read 0x101) = some 0x07 := by
  refine ⟨rfl, by decide +kernel⟩
/-- R17: an offset past the register map reads 0. -/
theorem test_unused_offset : seen (step (withMove State.reset (.regRead ⟨0x40, 4⟩))) (·.readback) =
    some (.register 0x40 0) := by decide +kernel
/-- R227, P1: the read of STATUS that returns DONE = 1 ends the run, though the host still reads RESULT_LEN. -/
theorem test_run_ends : seen (step { State.reset with
    done := true, schedule := [.regRead ⟨0x04, 4⟩, .regRead ⟨0x30, 4⟩] }) (fun s => decide s.RunEnded) = some true := by
  decide +kernel
/-- R227: an observation of the command before does not end the run once another one has been started. -/
theorem test_start_takes_observation_back : seen (step (withMove { State.reset with done := true, seenDone := true }
    (.regWrite ⟨0x00, 4⟩ 0x1))) (fun s => decide s.RunEnded) = some false := by decide +kernel
/-- R85: the actions of a pseudo-instruction. -/
theorem test_pseudo_instructions : lineActions ⟨0x10000, 0x4000⟩ (.starti .lzwEnc) =
    [.regWrite ⟨0x4008, 4⟩ 0x20, .regWrite ⟨0x4000, 4⟩ 0x3] := by decide
/-- The first command after reset: the word placed where the engine takes it. -/
theorem test_fetch_word : seen (step (State.reset.withFetchWord 32 0x20)) (fun s => (s.errCode, s.resultAux)) =
    some (0x00, 256) := by decide +kernel

/-! ### Witnesses: concrete states and operands that meet the hypotheses of each statement together -/

theorem witness_EncodedCommandDecodes : Instr.lzwDec.wellFormed = true := by decide

theorem witness_StepRunsDecodedCommand :
    (started .hufPack [] [] 0 0).busy = true ∧ decode (started .hufPack [] [] 0 0).cmd = .ok .hufPack ∧
      Instr.hufPack.wellFormed = true ∧ (started .hufPack [] [] 0 0).schedule = [] ∧
      (withMove (started .hufPack [] [] 0 0) .engine).schedule = .engine :: [] := by decide

theorem witness_EngineDisabledWhileIdle :
    State.reset.busy = false ∧ State.reset.schedule = [] ∧ (withMove State.reset .engine).busy = false ∧
      (withMove State.reset .engine).schedule = .engine :: [] := by decide

/-- The engine's turn scheduled, and nothing scheduled. -/
theorem witness_IllegalWordCompletesWithBadCmd :
    (∃ s : State, s.busy = true ∧ s.schedule = [.engine, .wait] ∧ ∀ i : Instr, s.cmd ≠ encode i) ∧
    ∃ s : State, s.busy = true ∧ s.schedule = [] ∧ ∀ i : Instr, s.cmd ≠ encode i :=
  ⟨⟨{ started .rleEnc [] [] 4 0 with cmd := 0x101, schedule := [.engine, .wait] }, rfl, rfl,
      fun i => by cases i <;> decide⟩,
    ⟨{ started .rleEnc [] [] 4 0 with cmd := 0x101 }, rfl, rfl, fun i => by cases i <;> decide⟩⟩

/-- A success, and one of the first three errors. -/
theorem witness_CommandFrame :
    (∃ t, exec .rleEnc (started .rleEnc [0x41] [] 4 0) = .next t ∧ t.errCode = 0) ∧
    (∃ t, exec .rleEnc { started .rleEnc [0x41] [] 4 0 with srcAddr := 0x10000 } = .next t ∧ t.errCode = 0x02) :=
  ⟨⟨_, rfl, by decide +kernel⟩, ⟨_, rfl, by decide +kernel⟩⟩

/-- Each of the four errors in turn. -/
theorem witness_ErrorPriority :
    ¬ State.BuffersInRange { started .hufPack [0x41] [0x01, 0x41] 4 0 with treeAddr := 0xFFFF } .hufPack ∧
    (State.BuffersInRange { started .hufPack [0x41] [0x01, 0x41] 4 0 with dstAddr := 0x3FE } .hufPack ∧
      ¬ State.DestinationApart { started .hufPack [0x41] [0x01, 0x41] 4 0 with dstAddr := 0x3FE } .hufPack) ∧
    ((started .hufPack [0x42] [0x01, 0x41] 4 0).BuffersPass .hufPack ∧
      (started .hufPack [0x42] [0x01, 0x41] 4 0).functionResult .hufPack = .error .noCode) ∧
    ((started .hufPack [0x41] [0x01, 0x41] 0 0).BuffersPass .hufPack ∧
      (started .hufPack [0x41] [0x01, 0x41] 0 0).functionResult .hufPack = .ok ⟨[0x00], 0, 1⟩ ∧
      (started .hufPack [0x41] [0x01, 0x41] 0 0).dst.len < 1) := ⟨by decide +kernel, ⟨by decide +kernel, by decide +kernel⟩, ⟨by decide +kernel, by decide +kernel⟩, by decide +kernel⟩

theorem witness_CommandSucceeds :
    (started .hufEnc aabbbc [] 26 0).BuffersPass .hufEnc ∧
      (started .hufEnc aabbbc [] 26 0).functionResult .hufEnc =
        .ok ⟨toLE 8 9 ++ toLE 8 8 ++ t1 ++ [0xF1, 0x00], 8, 9⟩ ∧
      (toLE 8 9 ++ toLE 8 8 ++ t1 ++ [0xF1, 0x00]).length ≤ (started .hufEnc aabbbc [] 26 0).dst.len := by
  decide +kernel

/-- An output that is too long, and a computation that fails with no room. -/
theorem witness_DstFullOnlyForCorrectOutput :
    (∃ t, exec .rleEnc (started .rleEnc [0x41] [] 1 0) = .next t ∧ t.errCode = 0x04) ∧
    (started .rleDec [0x41] [] 0 0).BuffersPass .rleDec ∧
      (started .rleDec [0x41] [] 0 0).functionResult .rleDec = .error .rleOdd :=
  ⟨⟨_, rfl, by decide +kernel⟩, by decide +kernel, by decide +kernel⟩

/-- Two states that differ in IE, in the tree buffer and in the memory past the source. -/
theorem witness_OutcomeDependsOnOperandsOnly :
    ∃ s t s' t' : State, s ≠ t ∧ s.platform = t.platform ∧ s.src = t.src ∧ s.dst = t.dst ∧
      s.srcBytes = t.srcBytes ∧ (usesTree .lzwEnc = true → s.tree = t.tree ∧ s.treeBytes = t.treeBytes) ∧
      (Instr.lzwEnc = .hufUnpack → s.inBits = t.inBits) ∧ exec .lzwEnc s = .next s' ∧ exec .lzwEnc t = .next t' ∧
      s'.errCode = 0 :=
  ⟨started .lzwEnc [0x41] [] 4 0, { started .lzwEnc [0x41] [0x01] 4 7 with ie := true }, _, _,
    fun h => absurd (congrArg State.ie h) (by decide), rfl, rfl, rfl, by decide +kernel, by decide, by decide, rfl, rfl, by decide +kernel⟩

/-- A write that starts a command and one that does not. -/
theorem witness_CtrlWriteStartsCommand :
    ((withMove State.reset (.regWrite ⟨0, 4⟩ 0x3)).busy = false ∧
      (withMove State.reset (.regWrite ⟨0, 4⟩ 0x3)).schedule = .regWrite ⟨0, 4⟩ 0x3 :: []) ∧
    ((withMove State.reset (.regWrite ⟨0, 4⟩ 0x2)).busy = false ∧
      (withMove State.reset (.regWrite ⟨0, 4⟩ 0x2)).schedule = .regWrite ⟨0, 4⟩ 0x2 :: []) ∧
    BusAccess.WellFormed State.reset.platform ⟨0, 4⟩ ∧ BusAccess.offset State.reset.platform ⟨0, 4⟩ = 0x00 := by
  decide

/-- The engine's turn scheduled after the START, and nothing scheduled after it. -/
theorem witness_StartedCommandRuns :
    (∃ s : State, s.busy = false ∧ decode s.cmd = .ok .rleDec ∧ (0x3 : Word).getLsbD 0 = true ∧
      s.schedule = wrAction s.platform .ctrl 0x3 :: .engine :: [.wait]) ∧
    ∃ s : State, s.busy = false ∧ decode s.cmd = .ok .rleDec ∧ (0x3 : Word).getLsbD 0 = true ∧
      s.schedule = [wrAction s.platform .ctrl 0x3] :=
  ⟨⟨{ State.reset with cmd := 0x02, schedule := [wrAction State.reset.platform .ctrl 0x3, .engine, .wait] },
      rfl, by decide, by decide, rfl⟩,
    ⟨{ withMove State.reset (wrAction State.reset.platform .ctrl 0x3) with cmd := 0x02 }, rfl, by decide, by decide, rfl⟩⟩

theorem witness_BusyWindowIsReadOnly :
    (started .rleEnc [] [] 0 0).busy = true ∧ BusAccess.WellFormed (started .rleEnc [] [] 0 0).platform ⟨0x04, 4⟩ ∧
      (withMove (started .rleEnc [] [] 0 0) (.regWrite ⟨0x04, 4⟩ 0x6)).schedule = .regWrite ⟨0x04, 4⟩ 0x6 :: [] ∧
      (withMove (started .rleEnc [] [] 0 0) (.regRead ⟨0x04, 4⟩)).schedule = .regRead ⟨0x04, 4⟩ :: [] := by decide

theorem witness_StatusBitsClearWhenWrittenWithOne :
    (withMove State.reset (.regWrite ⟨4, 4⟩ 0x2)).busy = false ∧
      (withMove State.reset (.regWrite ⟨4, 4⟩ 0x2)).schedule = .regWrite ⟨4, 4⟩ 0x2 :: [] ∧
      BusAccess.WellFormed State.reset.platform ⟨4, 4⟩ ∧ BusAccess.offset State.reset.platform ⟨4, 4⟩ = 0x04 := by
  decide

/-- An RW register and an RO register. -/
theorem witness_RegisterWriteHoldsValue :
    ∀ r ∈ [Reg.dstCap, Reg.outBitsHi], State.reset.busy = false ∧ r ≠ .ctrl ∧ r ≠ .status ∧
      (withMove State.reset (wrAction State.reset.platform r 0xFFFFFFFF)).schedule =
        .regWrite (regAccess State.reset.platform r) 0xFFFFFFFF :: [] ∧
      (regAccess State.reset.platform r).WellFormed State.reset.platform ∧
      (regAccess State.reset.platform r).offset State.reset.platform = regOffset r := by decide

/-- The last register, the first offset past it, the last offset of the window. -/
theorem witness_WindowReadsAndUnusedOffsets :
    (BusAccess.WellFormed State.reset.platform ⟨0x3C, 4⟩ ∧
      BusAccess.offset State.reset.platform ⟨0x3C, 4⟩ = regOffset .outBitsHi ∧
      (withMove State.reset (.regRead ⟨0x3C, 4⟩)).schedule = .regRead ⟨0x3C, 4⟩ :: []) ∧
    (BusAccess.WellFormed State.reset.platform ⟨0x40, 4⟩ ∧ 0x40 ≤ BusAccess.offset State.reset.platform ⟨0x40, 4⟩ ∧
      (withMove State.reset (.regRead ⟨0x40, 4⟩)).schedule = .regRead ⟨0x40, 4⟩ :: []) ∧
    (BusAccess.WellFormed State.reset.platform ⟨0xFFC, 4⟩ ∧ 0x40 ≤ BusAccess.offset State.reset.platform ⟨0xFFC, 4⟩ ∧
      (withMove State.reset (.regWrite ⟨0xFFC, 4⟩ 1)).schedule = .regWrite ⟨0xFFC, 4⟩ 1 :: []) := by decide

theorem witness_OtherRegisterAccessRefused :
    (BusAccess.InWindow State.reset.platform ⟨0x00, 8⟩ ∧ (8 ≠ 4 ∨ BusAccess.offset State.reset.platform ⟨0x00, 8⟩ % 4 ≠ 0) ∧
      (withMove State.reset (.regRead ⟨0x00, 8⟩)).schedule = .regRead ⟨0x00, 8⟩ :: []) ∧
    (BusAccess.InWindow State.reset.platform ⟨0xFFF, 4⟩ ∧
      (4 ≠ 4 ∨ BusAccess.offset State.reset.platform ⟨0xFFF, 4⟩ % 4 ≠ 0) ∧
      (withMove State.reset (.regWrite ⟨0xFFF, 4⟩ 0)).schedule = .regWrite ⟨0xFFF, 4⟩ 0 :: []) := by decide

theorem witness_InterruptFollowsDoneAndEnable : (0x2 : Word).getLsbD 1 = true ∧ (0x1 : Word).getLsbD 1 = false := by
  decide

theorem witness_WaitEndsAfterEngineStep :
    (withMove (started .rleEnc [] [] 0 0) .wait).busy = true ∧ (withMove (started .rleEnc [] [] 0 0) .wait).done = false ∧
      (withMove (started .rleEnc [] [] 0 0) .wait).schedule = .wait :: [] := by decide

/-- A state that runs HUF_PACK on one source byte and a two-byte tree, with room for four bytes. -/
def packing : State := started .hufPack [0x41] [0x01, 0x41] 4 0

/-- A byte of each of the three buffers. -/
theorem witness_MemoryWriteFaultsExactlyWhereLocked :
    packing.busy = true ∧ packing.platform.memSize = 0x10000 ∧ packing.src.Contains (0x100 : Word).toNat ∧
      packing.dst.Contains (0x803 : Word).toNat ∧ (packing.cmd = 0x13 ∨ packing.cmd = 0x14) ∧
      packing.tree.Contains (0x401 : Word).toNat ∧
      (withMove packing (.memWrite 0x401 0)).schedule = .memWrite 0x401 0 :: [] := by decide +kernel

/-- The byte after the destination, and a byte of the tree buffer of a command that has none. -/
theorem witness_MemoryWriteFaultsExactlyWhereLocked_unlocked :
    (¬ packing.src.Contains (0x804 : Word).toNat ∧ ¬ packing.dst.Contains (0x804 : Word).toNat ∧
      ¬ packing.tree.Contains (0x804 : Word).toNat) ∧
    (started .rleEnc [0x41] [0x01, 0x41] 4 0).tree.Contains (0x401 : Word).toNat ∧
      ¬ ((started .rleEnc [0x41] [0x01, 0x41] 4 0).cmd = 0x13 ∨ (started .rleEnc [0x41] [0x01, 0x41] 4 0).cmd = 0x14) := by
  decide +kernel

/-- The last destination byte, and the byte after it. -/
theorem witness_MemoryReadReturnsContent :
    ((withMove (started .rleEnc [0x41] [] 4 0) (.memRead 0x803)).schedule = .memRead 0x803 :: [] ∧
      (started .rleEnc [0x41] [] 4 0).busy = true ∧ (started .rleEnc [0x41] [] 4 0).dst.Contains 0x803) ∧
    ((withMove (started .rleEnc [0x41] [] 4 0) (.memRead 0x804)).schedule = .memRead 0x804 :: [] ∧
      ¬ (started .rleEnc [0x41] [] 4 0).dst.Contains 0x804 ∧
      (0x804 : Word).toNat < (started .rleEnc [0x41] [] 4 0).platform.memSize) := by decide

theorem witness_ResetClearsRegisters :
    (withMove { State.reset with done := true, ie := true, cmd := 0x01 } .reset).schedule = .reset :: [] ∧
      (withMove { State.reset with done := true, ie := true, cmd := 0x01 } .reset).busy = false := by decide

theorem witness_ResetAbandonsRunningCommand :
    (withMove (started .rleEnc [0x41] [] 4 0) .reset).busy = true ∧
      (withMove (started .rleEnc [0x41] [] 4 0) .reset).schedule = .reset :: [] := by decide

/-- The least and the largest platform. -/
theorem witness_InvariantHoldsAtReset : Platform.WellFormed ⟨1, 0⟩ ∧ Platform.WellFormed ⟨2 ^ 32, 0⟩ := by decide

/-- A running command with bytes in memory. -/
theorem witness_InvariantKeptByEveryStep :
    (started .rleEnc [0x41] [] 4 0).Inv ∧ ∃ t, step (started .rleEnc [0x41] [] 4 0) = .next t :=
  ⟨⟨by decide, by decide, by decide, fun _ => by decide, fun _ => rfl, by decide, by decide, .inl rfl⟩, ⟨_, rfl⟩⟩

theorem witness_ResultsStableUntilNextStart :
    ∃ t, step (withMove { State.reset with done := true, resultLen := 4 } (.regWrite ⟨0, 4⟩ 0x2)) = .next t ∧
      (withMove { State.reset with done := true, resultLen := 4 } (.regWrite ⟨0, 4⟩ 0x2)).busy = false ∧
      (∀ acc w rest, (withMove { State.reset with done := true, resultLen := 4 } (.regWrite ⟨0, 4⟩ 0x2)).schedule =
          .regWrite acc w :: rest →
        ¬ (acc.offset State.reset.platform = 0x00 ∧ w.getLsbD 0 = true)) ∧
      (withMove { State.reset with done := true, resultLen := 4 } (.regWrite ⟨0, 4⟩ 0x2)).schedule.head? ≠ some .reset ∧
      ∀ a b, (withMove { State.reset with done := true, resultLen := 4 } (.regWrite ⟨0, 4⟩ 0x2)).schedule.head? ≠
        some (.memWrite a b) := by
  refine ⟨_, rfl, rfl, fun acc w rest h => ?_, by decide, fun a b => by simp [withMove]⟩
  simp only [withMove, List.cons.injEq, Action.regWrite.injEq] at h
  obtain ⟨⟨rfl, rfl⟩, -⟩ := h
  decide

/-- BUSY rises by a START; BUSY falls, DONE and ERR rise by the engine's step; BUSY falls by reset. -/
theorem witness_FlagTransitions :
    (∃ t, step (withMove State.reset (.regWrite ⟨0, 4⟩ 0x1)) = .next t ∧ t.busy = true) ∧
    (∃ t, step (started .rleDec [0x41] [] 0 0) = .next t ∧ t.busy = false ∧ t.done = true ∧ t.err = true) ∧
    (∃ t, step (withMove (started .rleDec [0x41] [] 0 0) .reset) = .next t ∧ t.busy = false) :=
  ⟨⟨_, rfl, rfl⟩, ⟨_, rfl, rfl, rfl, by decide +kernel⟩, ⟨_, rfl, rfl⟩⟩

/-- A state after a command that failed. -/
def failed : State := { State.reset with done := true, err := true, errCode := 0x01 }

theorem failed_inv : failed.Inv :=
  ⟨by decide, by decide, nofun, nofun, nofun, fun _ => by decide, fun _ => by decide, .inr ⟨.badCmd, rfl⟩⟩

/-- DONE and ERR fall by a write to STATUS, by a START and by reset, from a state that meets the invariant. -/
theorem witness_FlagTransitions_fall :
    (∀ a : Action, (withMove failed a).Inv) ∧
    (∃ t, step (withMove failed (.regWrite ⟨4, 4⟩ 0x6)) = .next t ∧ t.done = false ∧ t.err = false) ∧
    (∃ t, step (withMove failed (.regWrite ⟨0, 4⟩ 0x1)) = .next t ∧ t.done = false ∧ t.err = false) ∧
    (∃ t, step (withMove failed .reset) = .next t ∧ t.done = false ∧ t.err = false) :=
  ⟨fun _ => ⟨failed_inv.1, failed_inv.2, failed_inv.3, failed_inv.4, failed_inv.5, failed_inv.6, failed_inv.7, failed_inv.8⟩,
    ⟨_, rfl, rfl, rfl⟩, ⟨_, rfl, rfl, rfl⟩, ⟨_, rfl, rfl, rfl⟩⟩

/-- A read of STATUS that observes DONE, a START after an observation, a read of STATUS with another read to follow, and a
`WAIT` with a read to follow. -/
theorem witness_RunEndsAtObservedCompletion :
    (∃ t, step (withMove failed (.regRead ⟨4, 4⟩)) = .next t ∧ failed.seenDone = false ∧ t.seenDone = true) ∧
    (∃ t, step (withMove { failed with seenDone := true } (.regWrite ⟨0, 4⟩ 0x1)) = .next t ∧
      (withMove { failed with seenDone := true } (.regWrite ⟨0, 4⟩ 0x1)).NextSetsBit 0x00 0) ∧
    (failed.done = true ∧ BusAccess.WellFormed failed.platform ⟨4, 4⟩ ∧ BusAccess.offset failed.platform ⟨4, 4⟩ = 0x04 ∧
      ∀ a ∈ [Action.regRead ⟨0x0C, 4⟩], a.isStart failed.platform = false) ∧
    (∃ t, (started .rleEnc [0x41] [] 2 0).busy = true ∧ (started .rleEnc [0x41] [] 2 0).done = false ∧
      (started .rleEnc [0x41] [] 2 0).seenDone = false ∧ decode (started .rleEnc [0x41] [] 2 0).cmd = .ok .rleEnc ∧
      exec .rleEnc { started .rleEnc [0x41] [] 2 0 with schedule := [.wait, .regRead ⟨0x30, 4⟩] } = .next t) :=
  ⟨⟨_, rfl, rfl, rfl⟩, ⟨_, rfl, rfl, _, _, _, rfl, by decide, rfl, rfl⟩, by decide, ⟨_, rfl, rfl, rfl, by decide, rfl⟩⟩

theorem witness_EmptyInputSucceeds :
    (∀ i ∈ [Instr.rleEnc, .rleDec, .hufBuild, .hufEnc, .hufDec, .lzwEnc, .lzwDec],
      (started i [] [] 0 0).src.len = 0 ∧ (started i [] [] 0 0).BuffersPass i) ∧
    ((started .hufFreq [] [] 1024 0).BuffersPass .hufFreq ∧ 1024 ≤ (started .hufFreq [] [] 1024 0).dst.len) ∧
    ((started .hufCodegen [] [] 8448 0).BuffersPass .hufCodegen ∧ 8448 ≤ (started .hufCodegen [] [] 8448 0).dst.len) ∧
    ((started .hufPack [] t1 0 0).BuffersPass .hufPack ∧
      loadTree (started .hufPack [] [0x01, 0x41] 0 0).treeBytes = .ok (some (.leaf 0x41)) ∧
      loadTree (started .hufPack [] [0x03] 0 0).treeBytes = .error .treeMarker) ∧
    ((started .hufUnpack [] [] 0 0).BuffersPass .hufUnpack ∧ (started .hufUnpack [] [] 0 0).inBits = 0 ∧
      loadTree (started .hufUnpack [] [0x03] 0 0).treeBytes = .error .treeMarker ∧
      loadTree (started .hufUnpack [] [] 0 0).treeBytes = .ok none ∧ 0 < (started .hufUnpack [] [] 0 5).inBits) :=
  ⟨by decide +kernel, ⟨by decide +kernel, by decide +kernel⟩, ⟨by decide +kernel, by decide +kernel⟩, ⟨by decide +kernel, by decide +kernel, by decide +kernel⟩, ⟨by decide +kernel, by decide +kernel, by decide +kernel, by decide +kernel, by decide +kernel⟩⟩

theorem witness_RleEncWritesMaximalRecords :
    (started .rleEnc aabbbc [] 12 0).BuffersPass .rleEnc ∧
      2 * (started .rleEnc aabbbc [] 12 0).src.len ≤ (started .rleEnc aabbbc [] 12 0).dst.len := by decide

/-- An odd stream, and an even one that fits exactly. -/
theorem witness_RleDecExpandsRecords :
    ((started .rleDec [0x01] [] 0 0).BuffersPass .rleDec ∧ (started .rleDec [0x01] [] 0 0).src.len % 2 = 1) ∧
    ((started .rleDec [0x02, 0x41] [] 2 0).BuffersPass .rleDec ∧ (started .rleDec [0x02, 0x41] [] 2 0).src.len % 2 = 0 ∧
      ((rleRecords (started .rleDec [0x02, 0x41] [] 2 0).srcBytes).flatMap
        fun r => List.replicate r.1.toNat r.2).length ≤ (started .rleDec [0x02, 0x41] [] 2 0).dst.len) := by
  decide +kernel

theorem witness_RleRoundTrip : fnRleDec [0x02, 0x41, 0x01, 0x41] = .ok ⟨[0x41, 0x41, 0x41], 0, 0⟩ := by decide

theorem witness_HufFreqWritesCounts :
    (started .hufFreq aabbbc [] 1024 0).BuffersPass .hufFreq ∧ 1024 ≤ (started .hufFreq aabbbc [] 1024 0).dst.len := by
  decide

/-- A built tree: of "AABBBC", that of the bytes T1. -/
theorem witness_built_tree : build aabbbc = some (.node (.leaf 0x42) (.node (.leaf 0x43) (.leaf 0x41))) := by
  decide +kernel

theorem witness_BuiltTreeLeavesAreSymbols : ∃ t, build aabbbc = some t := ⟨_, witness_built_tree⟩

/-- Empty input, and input whose tree fits exactly. -/
theorem witness_HufBuildWritesTree :
    ((started .hufBuild [] [] 0 0).BuffersPass .hufBuild ∧ (started .hufBuild [] [] 0 0).src.len = 0) ∧
    ((started .hufBuild aabbbc [] 8 0).BuffersPass .hufBuild ∧ (started .hufBuild aabbbc [] 8 0).src.len ≠ 0 ∧
      (if distinct (started .hufBuild aabbbc [] 8 0).srcBytes = 1 then 2
        else 3 * distinct (started .hufBuild aabbbc [] 8 0).srcBytes - 1) ≤
        (started .hufBuild aabbbc [] 8 0).dst.len) := by decide +kernel

theorem witness_BuiltTreeSize : ∃ t, build aabbbc = some t := ⟨_, witness_built_tree⟩

theorem witness_CodesArePrefixFree :
    LegalTree (.node (.leaf 0x42) (.node (.leaf 0x43) (.leaf 0x41))) ∧ (0x42 : Byte) ≠ 0x43 ∧
      codeOf (.node (.leaf 0x42) (.node (.leaf 0x43) (.leaf 0x41))) 0x42 = some [false] ∧
      codeOf (.node (.leaf 0x42) (.node (.leaf 0x43) (.leaf 0x41))) 0x43 = some [true, false] :=
  ⟨.inl ⟨t1, by decide⟩, by decide, by decide, by decide⟩

/-- A tree with distinct symbols, and paths in it: the code of 0x43 is right, then left (V12). -/
theorem witness_HufCodegenWritesCodeTable_path :
    (treeSymbols (.node (.leaf 0x42) (.node (.leaf 0x43) (.leaf 0x41)))).Nodup ∧
      codeOf (.node (.leaf 0x42) (.node (.leaf 0x43) (.leaf 0x41))) 0x43 = some [true, false] ∧
      leafAt (.node (.leaf 0x42) (.node (.leaf 0x43) (.leaf 0x41))) [true, false] = some 0x43 := by decide

/-- A malformed tree, and a well-formed one. -/
theorem witness_HufCodegenWritesCodeTable :
    ((started .hufCodegen [0x03] [] 0 0).BuffersPass .hufCodegen ∧
      loadTree (started .hufCodegen [0x03] [] 0 0).srcBytes = .error .treeMarker) ∧
    ((started .hufCodegen [0x01, 0x41] [] 8448 0).BuffersPass .hufCodegen ∧
      loadTree (started .hufCodegen [0x01, 0x41] [] 8448 0).srcBytes = .ok (some (.leaf 0x41)) ∧
      8448 ≤ (started .hufCodegen [0x01, 0x41] [] 8448 0).dst.len) := by decide +kernel

theorem witness_SerializedTreeDeserializes : ∃ t, build aabbbc = some t := ⟨_, witness_built_tree⟩

theorem witness_AcceptedTreesAreLegal : deser [0x01, 0x41] = .ok (.leaf 0x41) := by decide

theorem witness_TruncatedTreeRefused : ∃ t, build aabbbc = some t := ⟨_, witness_built_tree⟩

/-- A node with its left leaf inside the left of another, nothing at all, 255 markers in a row, and a whole tree. -/
theorem witness_DeserializerFirstError :
    ((openSymbols [none, some (.leaf 0x41)]).Nodup ∧ openInternals [none, some (.leaf 0x41)] ≤ 255 ∧
      openBytes [none, some (.leaf 0x41)] = [0x02, 0x02, 0x01, 0x41] ∧ [none, some (Tree.leaf 0x41)] ≠ [] ∧
      3 ≤ (0x03 : Byte).toNat ∧ (0x41 : Byte) ∈ openSymbols [none, some (.leaf 0x41)]) ∧
    (openSymbols []).Nodup ∧ openInternals [] ≤ 255 ∧
    ((openSymbols (List.replicate 255 none)).Nodup ∧ openInternals (List.replicate 255 none) = 255) ∧
    ((treeSymbols (.leaf 0x41)).Nodup ∧ internalCount (.leaf 0x41) ≤ 255 ∧ [(0x00 : Byte)] ≠ []) := by
  decide +kernel

theorem witness_PackedBitsLayout :
    0 < (packBits [true]).length ∧ 7 < 8 ∧ 8 ≤ 8 * [(0x80 : Byte)].length ∧ 7 < 8 := by decide

/-- The five clauses in turn: malformed, empty input, no tree, a byte without a code, a payload that fits exactly. -/
theorem witness_HufPackWritesPayload :
    ((started .hufPack [] [0x03] 0 0).BuffersPass .hufPack ∧
      loadTree (started .hufPack [] [0x03] 0 0).treeBytes = .error .treeMarker) ∧
    ((started .hufPack [] [0x01, 0x41] 0 0).BuffersPass .hufPack ∧
      loadTree (started .hufPack [] [0x01, 0x41] 0 0).treeBytes = .ok (some (.leaf 0x41)) ∧
      (started .hufPack [] [0x01, 0x41] 0 0).src.len = 0) ∧
    ((started .hufPack [0x41] [] 0 0).BuffersPass .hufPack ∧
      loadTree (started .hufPack [0x41] [] 0 0).treeBytes = .ok none ∧ (started .hufPack [0x41] [] 0 0).src.len ≠ 0) ∧
    ((started .hufPack [0x42] [0x01, 0x41] 0 0).BuffersPass .hufPack ∧
      ¬ AllCoded (.leaf 0x41) (started .hufPack [0x42] [0x01, 0x41] 0 0).srcBytes) ∧
    ((started .hufPack [0x41] [0x01, 0x41] 1 0).BuffersPass .hufPack ∧
      AllCoded (.leaf 0x41) (started .hufPack [0x41] [0x01, 0x41] 1 0).srcBytes ∧
      ((messageBits (.leaf 0x41) (started .hufPack [0x41] [0x01, 0x41] 1 0).srcBytes).length + 7) / 8 ≤
        (started .hufPack [0x41] [0x01, 0x41] 1 0).dst.len) := by
  unfold AllCoded
  exact ⟨⟨by decide +kernel, by decide +kernel⟩, ⟨by decide +kernel, by decide +kernel, by decide +kernel⟩, ⟨by decide +kernel, by decide +kernel, by decide +kernel⟩, ⟨by decide +kernel, by decide +kernel⟩, ⟨by decide +kernel, by decide +kernel, by decide +kernel⟩⟩

/-- The first five clauses in turn: malformed, no tree and no bits, no tree, too few bits, a message that fits exactly. -/
theorem witness_HufUnpackDecodesMessage :
    ((started .hufUnpack [] [0x03] 0 0).BuffersPass .hufUnpack ∧
      loadTree (started .hufUnpack [] [0x03] 0 0).treeBytes = .error .treeMarker) ∧
    ((started .hufUnpack [] [] 0 0).BuffersPass .hufUnpack ∧
      loadTree (started .hufUnpack [] [] 0 0).treeBytes = .ok none ∧ (started .hufUnpack [] [] 0 0).inBits = 0) ∧
    (loadTree (started .hufUnpack [] [] 0 1).treeBytes = .ok none ∧ (started .hufUnpack [] [] 0 1).inBits ≠ 0) ∧
    (loadTree (started .hufUnpack [0x00] [0x01, 0x41] 0 9).treeBytes = .ok (some (.leaf 0x41)) ∧
      8 * (started .hufUnpack [0x00] [0x01, 0x41] 0 9).src.len < (started .hufUnpack [0x00] [0x01, 0x41] 0 9).inBits) ∧
    ((started .hufUnpack [0x00] [0x01, 0x41] 8 8).BuffersPass .hufUnpack ∧
      (started .hufUnpack [0x00] [0x01, 0x41] 8 8).inBits ≤ 8 * (started .hufUnpack [0x00] [0x01, 0x41] 8 8).src.len ∧
      AllCoded (.leaf 0x41) (List.replicate 8 0x41) ∧
      unpackBits (started .hufUnpack [0x00] [0x01, 0x41] 8 8).srcBytes (started .hufUnpack [0x00] [0x01, 0x41] 8 8).inBits =
        messageBits (.leaf 0x41) (List.replicate 8 0x41) ∧
      (List.replicate 8 (0x41 : Byte)).length ≤ (started .hufUnpack [0x00] [0x01, 0x41] 8 8).dst.len) := by
  unfold AllCoded
  exact ⟨⟨by decide +kernel, by decide +kernel⟩, ⟨by decide +kernel, by decide +kernel, by decide +kernel⟩, ⟨by decide +kernel, by decide +kernel⟩, ⟨by decide +kernel, by decide +kernel⟩, ⟨by decide +kernel, by decide +kernel, by decide +kernel, by decide +kernel, by decide +kernel⟩⟩

/-- The last clause: a 1 bit under the one-leaf tree is no message's code. -/
theorem witness_HufUnpackDecodesMessage_no_message :
    (started .hufUnpack [0x80] [0x01, 0x41] 4 1).BuffersPass .hufUnpack ∧
      loadTree (started .hufUnpack [0x80] [0x01, 0x41] 4 1).treeBytes = .ok (some (.leaf 0x41)) ∧
      (started .hufUnpack [0x80] [0x01, 0x41] 4 1).inBits ≤ 8 * (started .hufUnpack [0x80] [0x01, 0x41] 4 1).src.len ∧
      ¬ ∃ msg, AllCoded (.leaf 0x41) msg ∧
        unpackBits (started .hufUnpack [0x80] [0x01, 0x41] 4 1).srcBytes
          (started .hufUnpack [0x80] [0x01, 0x41] 4 1).inBits = messageBits (.leaf 0x41) msg := by
  refine ⟨by decide +kernel, by decide +kernel, by decide +kernel, ?_⟩
  rintro ⟨msg, hc, h⟩
  rw [show unpackBits _ _ = [true] by decide +kernel] at h
  cases msg with
  | nil => simp [messageBits] at h
  | cons b bs =>
    have hb := hc b (by simp)
    by_cases e : b = 0x41
    · subst e; simp [messageBits, codeOf, codes] at h
    · exact hb (by simp only [codeOf, codes, List.lookup, beq_eq_false_iff_ne.2 e])

theorem witness_HuffmanPackUnpackRoundTrip : aabbbc ≠ [] := by decide

/-- Empty input, and a container that fits exactly. -/
theorem witness_HufEncWritesContainer :
    ((started .hufEnc [] [] 0 0).BuffersPass .hufEnc ∧ (started .hufEnc [] [] 0 0).src.len = 0) ∧
    ((started .hufEnc [0x41] [] 19 0).BuffersPass .hufEnc ∧ (started .hufEnc [0x41] [] 19 0).src.len ≠ 0 ∧
      build (started .hufEnc [0x41] [] 19 0).srcBytes = some (.leaf 0x41) ∧
      16 + (ser (.leaf 0x41)).length + ((messageBits (.leaf 0x41) (started .hufEnc [0x41] [] 19 0).srcBytes).length + 7) / 8 ≤
        (started .hufEnc [0x41] [] 19 0).dst.len) := by decide +kernel

/-- A payload with bits past the bit count. -/
theorem witness_HufDecReadsContainer_payload : 9 ≤ 8 * [(0xF1 : Byte), 0x00].length := by decide

/-- A container whose tree is malformed, and one that decodes. -/
theorem witness_HufDecReadsContainer :
    ((started .hufDec (toLE 8 1 ++ toLE 8 1 ++ [0x03] ++ []) [] 0 0).BuffersPass .hufDec ∧
      (started .hufDec (toLE 8 1 ++ toLE 8 1 ++ [0x03] ++ []) [] 0 0).srcBytes = toLE 8 1 ++ toLE 8 1 ++ [0x03] ++ [] ∧
      decodePayload [] [0x03] 1 = .error .treeMarker) ∧
    ((started .hufDec (toLE 8 9 ++ toLE 8 8 ++ t1 ++ [0xF1, 0x00]) [] 6 0).BuffersPass .hufDec ∧
      (started .hufDec (toLE 8 9 ++ toLE 8 8 ++ t1 ++ [0xF1, 0x00]) [] 6 0).srcBytes =
        toLE 8 9 ++ toLE 8 t1.length ++ t1 ++ [0xF1, 0x00] ∧
      decodePayload [0xF1, 0x00] t1 9 = .ok aabbbc ∧
      aabbbc.length ≤ (started .hufDec (toLE 8 9 ++ toLE 8 8 ++ t1 ++ [0xF1, 0x00]) [] 6 0).dst.len) := by
  decide +kernel

theorem witness_ContainerRoundTrip : aabbbc.length < 2 ^ 32 := by decide

theorem witness_LzwEncWritesCodes :
    (started .lzwEnc aabbbc [] 12 0).BuffersPass .lzwEnc ∧
      2 * (started .lzwEnc aabbbc [] 12 0).src.len ≤ (started .lzwEnc aabbbc [] 12 0).dst.len := by decide

/-- An odd stream, a bad code, and a stream whose output fits exactly. -/
theorem witness_LzwDecDecodesCodes :
    ((started .lzwDec [0x41] [] 0 0).BuffersPass .lzwDec ∧ (started .lzwDec [0x41] [] 0 0).src.len % 2 = 1) ∧
    ((started .lzwDec [0x00, 0x01] [] 0 0).BuffersPass .lzwDec ∧ (started .lzwDec [0x00, 0x01] [] 0 0).src.len % 2 = 0 ∧
      fnLzwDec (started .lzwDec [0x00, 0x01] [] 0 0).srcBytes = .error .lzwCode) ∧
    ((started .lzwDec [0x41, 0x00, 0x00, 0x01] [] 3 0).BuffersPass .lzwDec ∧
      fnLzwDec (started .lzwDec [0x41, 0x00, 0x00, 0x01] [] 3 0).srcBytes = .ok ⟨[0x41, 0x41, 0x41], 257, 0⟩ ∧
      3 ≤ (started .lzwDec [0x41, 0x00, 0x00, 0x01] [] 3 0).dst.len) :=
  ⟨by decide +kernel, ⟨by decide +kernel, by decide +kernel, by decide +kernel⟩, ⟨by decide +kernel, by decide +kernel, by decide +kernel⟩⟩

theorem witness_LzwNextCodeCountsCodes :
    fnLzwEnc [0x41, 0x42] = .ok ⟨[0x41, 0x00, 0x42, 0x00], 257, 0⟩ ∧
      fnLzwDec [0x41, 0x00] = .ok ⟨[0x41], 256, 0⟩ := by decide +kernel

/-- No code before, one code before with the next code 256 to follow, and two before with the last known code 256 and the
next code 257 to follow. -/
theorem witness_LzwCodeRefusedBeyondNext :
    fnLzwDec [] = .ok ⟨[], 256, 0⟩ ∧ fnLzwDec [0x41, 0x00] = .ok ⟨[0x41], 256, 0⟩ ∧ 256 = leValue [0x00, 0x01] ∧
      fnLzwDec [0x41, 0x00, 0x42, 0x00] = .ok ⟨[0x41, 0x42], 257, 0⟩ ∧ 257 = leValue [0x01, 0x01] ∧
      255 = leValue [0xFF, 0x00] := by
  decide +kernel

theorem witness_LzwEncoderCodesWithinNext :
    fnLzwEnc [0x41, 0x41, 0x41] = .ok ⟨[0x41, 0x00, 0x00, 0x01], 257, 0⟩ ∧ 2 * 1 < [(0x41 : Byte), 0x00, 0x00, 0x01].length := by
  decide +kernel

theorem witness_EncodeThenDecodeRestoresSource :
    ∃ t, exec .lzwEnc (started .lzwEnc [0x41, 0x41, 0x41] [] 4 0) = .next t ∧ t.errCode = 0 ∧
      ({ t with srcAddr := (started .lzwEnc [0x41, 0x41, 0x41] [] 4 0).dstAddr, srcLen := t.resultLen,
                dstAddr := 0x900, dstCap := 3 } : State).BuffersPass .lzwDec ∧
      (started .lzwEnc [0x41, 0x41, 0x41] [] 4 0).src.len ≤ (3 : Word).toNat :=
  ⟨_, rfl, by decide +kernel, by decide +kernel, by decide⟩

end Sys2Proof.Tests
end

section
/-!
SUPPORT. The invariant `State.Inv`: it holds at reset, and every move of every agent keeps it.
-/

namespace Sys2Proof.Machine

/-! ### Reset state -/

/-- The reset state has no memory to check, nothing running and nothing to report (R216). -/
theorem State.resetOn_inv {p : Platform} (hp : p.WellFormed) : (State.resetOn p).Inv where
  platform := hp
  memory := Memory.nil_wf
  inMemory := nofun
  running := nofun
  unobserved := nofun
  failed := fun hcode => absurd rfl hcode
  reported := nofun
  listed := .inl rfl

/-! ### Memory writes -/

/-- A write inside MEM_SIZE keeps the invariant (R38). -/
theorem State.Inv.writeBytes {s : State} (h : s.Inv) {a : Nat} {bytes : List Byte}
    (hb : bytes = [] ∨ a + bytes.length ≤ s.platform.memSize) :
    ({ s with mem := s.mem.writeBytes a bytes } : State).Inv :=
  { h with
    memory := Memory.writeBytes_wf h.memory a bytes
    inMemory := Memory.writeBytes_below h.inMemory hb }

/-- Draws inside MEM_SIZE keep the invariant (R104, R217). -/
theorem State.Inv.drawInto {s : State} (h : s.Inv) {a n : Nat} (hn : n = 0 ∨ a + n ≤ s.platform.memSize) :
    (s.drawInto a n).Inv :=
  have hdraws : drawBytes s.drawCount n = [] ∨ a + (drawBytes s.drawCount n).length ≤ s.platform.memSize := by
    simpa [← List.length_eq_zero_iff] using hn
  { h.writeBytes hdraws with }

/-! ### The reset input -/

/-- Clearing the registers keeps the invariant, whatever the host has observed (R216, R227). -/
theorem State.Inv.resetRegisters {s : State} (h : s.Inv) : s.resetRegisters.Inv :=
  { State.resetOn_inv h.platform with memory := h.memory, inMemory := h.inMemory, unobserved := nofun }

/-- The reset input keeps the invariant: the draws of an abandoned command stop at MEM_SIZE (R217). -/
theorem State.Inv.applyReset {s : State} (h : s.Inv) : s.applyReset.Inv := by
  rw [State.applyReset]
  split
  · exact (h.drawInto (by simp only [State.dstBytesInMemory]; omega)).resetRegisters
  · exact h.resetRegisters

@[simp] theorem State.applyReset_platform (s : State) : s.applyReset.platform = s.platform := by
  rw [State.applyReset]; split <;> rfl

/-! ### The engine -/

/-- What an outcome writes to the destination buffer lies inside MEM_SIZE: the output of a success, the whole buffer
after an error that leaves it unspecified (R104). -/
def State.WritesInMemory (s : State) : Result → Prop
  | .ok o => o.out = [] ∨ s.dst.start + o.out.length ≤ s.platform.memSize
  | .error e => leavesMemory e = false → s.dst.InRange s.platform.memSize

/-- `Run()` checks the destination before anything is written (R47, R102, R103). -/
theorem State.run_writesInMemory (s : State) (i : Instr) :
    s.WritesInMemory (s.run (usesTree i) (commandFunction i)) := by
  rcases s.run_cases i with ⟨-, hr⟩ | ⟨-, -, hr⟩ | ⟨⟨⟨-, -, hdst⟩, -⟩, e, -, hr⟩ | ⟨⟨⟨-, -, hdst⟩, -⟩, o, -, -, hr⟩ |
    ⟨⟨⟨-, -, hdst⟩, -⟩, o, -, hlen, hr⟩ <;> rw [hr]
  · exact nofun
  · exact nofun
  · exact fun _ => hdst
  · exact fun _ => hdst
  · rcases hdst with hzero | hend
    · exact .inl (List.length_eq_zero_iff.1 (by omega))
    · exact .inr (by omega)

/-- A success has no error to report (R104). -/
theorem State.Inv.completeOk {s : State} (h : s.Inv) {o : Output} (hw : s.WritesInMemory (.ok o)) :
    (s.complete (.ok o)).Inv :=
  { h.writeBytes hw with
    running := nofun
    unobserved := nofun
    failed := fun hcode => absurd rfl hcode
    reported := nofun
    listed := .inl rfl }

/-- The error record goes with ERR, with a listed code and with no result (R204). -/
theorem State.Inv.recordError_setCompletionFlags {s : State} (h : s.Inv) (e : ErrCode) :
    (s.recordError e).setCompletionFlags.Inv :=
  { h with
    running := nofun
    unobserved := nofun
    failed := fun _ => ⟨rfl, rfl, rfl, rfl⟩
    reported := fun _ => errorByte_ne_zero e
    listed := .inr ⟨e, rfl⟩ }

/-- Every completion that writes inside MEM_SIZE keeps the invariant (R101, R104). -/
theorem State.Inv.complete {s : State} (h : s.Inv) {r : Result} (hw : s.WritesInMemory r) : (s.complete r).Inv := by
  cases r with
  | ok o => exact h.completeOk hw
  | error e =>
    simp only [State.complete, State.commit, State.commitErr]
    split
    · exact h.recordError_setCompletionFlags e
    · next hleaves => exact (h.drawInto (hw (by simpa using hleaves))).recordError_setCompletionFlags e

@[simp] theorem State.complete_platform (s : State) (r : Result) : (s.complete r).platform = s.platform :=
  (s.complete_sameOperands r).1

/-- The engine's turn keeps the invariant (R101). -/
theorem State.Inv.engineTurn {s t : State} (h : s.Inv) (ht : engineTurn s = .next t) :
    t.Inv ∧ t.platform = s.platform := by
  rcases engineTurn_cases ht with ⟨-, rfl⟩ | ⟨-, i, -, rfl⟩ | ⟨-, -, rfl⟩
  · exact ⟨h, rfl⟩
  · exact ⟨h.complete (s.run_writesInMemory i), s.complete_platform _⟩
  · exact ⟨h.complete nofun, s.complete_platform _⟩

/-! ### The register window -/

/-- What a host reads in STATUS shows DONE (R21), so a host that has observed DONE = 1 sees no running command. -/
theorem State.Inv.hostSaw {s : State} (h : s.Inv) {k : Nat} {w : Word}
    (hw : k = regOffset .status → w.getLsbD 1 = s.done) : (s.hostSaw k w).Inv :=
  { h with
    unobserved := fun hbusy => by
      have hseen : s.seenDone = false := h.unobserved hbusy
      have hdone : s.done = false := (h.running hbusy).1
      rw [hostSaw_seenDone, hseen, Bool.false_or, Bool.and_eq_false_imp]
      exact fun hk => (hw (of_decide_eq_true hk)).trans hdone }

/-- A register read keeps the invariant (R31). -/
theorem State.Inv.regRead {s t : State} (h : s.Inv) {b : BusAccess} (ht : hostRegRead b s = .next t) :
    t.Inv ∧ t.platform = s.platform := by
  obtain ⟨-, rfl⟩ := hostRegRead_cases ht
  exact ⟨h.hostSaw fun hk => by rw [hk, windowValue_regOffset]; exact s.statusWord_done, rfl⟩

/-- A poll of WAIT keeps the invariant (R85). -/
theorem State.Inv.pollStatus {s : State} (h : s.Inv) : (pollStatus s).Inv := by
  rw [Machine.pollStatus]
  split
  · exact h.hostSaw fun _ => s.statusWord_done
  · have hrescheduled : ({ s with schedule := .engine :: .wait :: s.schedule } : State).Inv := { h with }
    exact hrescheduled.hostSaw fun _ => s.statusWord_done

@[simp] theorem pollStatus_platform (s : State) : (pollStatus s).platform = s.platform := by
  rw [pollStatus]; split <;> rfl

/-- A START leaves the running command nothing to report and none that the host has observed (R100, R227). -/
theorem State.Inv.start {s : State} (h : s.Inv) : s.start.Inv :=
  { h with
    running := fun _ => ⟨rfl, rfl, rfl, rfl, rfl, rfl, rfl⟩
    unobserved := fun _ => rfl
    failed := fun hcode => absurd rfl hcode
    reported := nofun
    listed := .inl rfl }

/-- A write of CTRL keeps the invariant (R20, R100). -/
theorem State.Inv.writeCtrl {s : State} (h : s.Inv) (w : Word) : (s.writeCtrl w).Inv := by
  have henabled : ({ s with ie := w.getLsbD 1 } : State).Inv := { h with }
  rw [State.writeCtrl]
  split
  · exact henabled.start
  · exact henabled

/-- The acknowledgement sets no flag (R21). -/
theorem State.Inv.acknowledge {s : State} (h : s.Inv) (w : Word) : (s.acknowledge w).Inv :=
  { h with
    running := fun hbusy => by
      obtain ⟨hdone, herr, hrest⟩ := h.running hbusy
      exact ⟨by simp [hdone], by simp [herr], hrest⟩
    reported := fun herr => h.reported (Bool.and_elim_left herr) }

/-- A register write while BUSY = 0 keeps the invariant: no register but CTRL and STATUS is part of it. -/
theorem State.Inv.writeReg {s : State} (h : s.Inv) (w : Word) (r : Reg) : (s.writeReg w r).Inv := by
  cases r with
  | ctrl => exact h.writeCtrl w
  | status => exact h.acknowledge w
  | _ => exact { h with }

@[simp] theorem State.writeReg_platform (s : State) (w : Word) (r : Reg) : (s.writeReg w r).platform = s.platform := by
  cases r with
  | ctrl => simp only [writeReg, writeCtrl]; split <;> rfl
  | _ => rfl

/-- A register write keeps the invariant (R17, R31). -/
theorem State.Inv.regWrite {s t : State} (h : s.Inv) {b : BusAccess} {w : Word} (ht : hostRegWrite b w s = .next t) :
    t.Inv ∧ t.platform = s.platform := by
  obtain ⟨-, rfl⟩ := hostRegWrite_cases ht
  rw [State.writeWindow]
  split
  · exact ⟨h, rfl⟩
  · split
    · exact ⟨h.writeReg w _, s.writeReg_platform w _⟩
    · exact ⟨h, rfl⟩

/-! ### Buffer memory accesses -/

/-- A memory read keeps the invariant (R222). -/
theorem State.Inv.memRead {s t : State} (h : s.Inv) {a : Word} (ht : hostMemRead a s = .next t) :
    t.Inv ∧ t.platform = s.platform := by
  rcases hostMemRead_cases ht with ⟨-, ⟨-, -, rfl⟩ | ⟨-, rfl⟩⟩
  · exact ⟨{ h with }, rfl⟩
  · exact ⟨{ h with }, rfl⟩

/-- A memory write that answers is at an address that exists, so it keeps the invariant (R38). -/
theorem State.Inv.memWrite {s t : State} (h : s.Inv) {a : Word} {b : Byte} (ht : hostMemWrite a b s = .next t) :
    t.Inv ∧ t.platform = s.platform := by
  obtain ⟨haddr, -, rfl⟩ := hostMemWrite_cases ht
  exact ⟨h.writeBytes (.inr haddr), rfl⟩

/-! ### One step -/

/-- Every move keeps the invariant. -/
theorem State.Inv.perform {s t : State} (h : s.Inv) {a : Action} (ht : perform a s = .next t) :
    t.Inv ∧ t.platform = s.platform := by
  rcases perform_cases ht with ⟨-, ht⟩ | ⟨-, rfl⟩ | ⟨b, -, ht⟩ | ⟨b, w, -, ht⟩ | ⟨x, -, ht⟩ | ⟨x, b, -, ht⟩ | ⟨-, rfl⟩
  · exact h.engineTurn ht
  · exact ⟨h.applyReset, s.applyReset_platform⟩
  · exact h.regRead ht
  · exact h.regWrite ht
  · exact h.memRead ht
  · exact h.memWrite ht
  · exact ⟨h.pollStatus, pollStatus_platform s⟩

/-- Every step keeps the invariant: taking a move off the schedule is no part of it. -/
theorem State.Inv.step {s t : State} (h : s.Inv) (ht : step s = .next t) : t.Inv ∧ t.platform = s.platform := by
  rcases step_cases s with ⟨-, he⟩ | ⟨a, rest, -, he⟩ <;> rw [he] at ht
  · exact h.engineTurn ht
  · have hpopped : ({ s with schedule := rest } : State).Inv := { h with }
    exact hpopped.perform ht

end Sys2Proof.Machine

open Sys2Proof Sys2Proof.Machine

/-- Settles O26: the reset state has no memory to check, nothing running and nothing to report. -/
theorem invariantHoldsAtReset : Obligations.InvariantHoldsAtReset :=
  ⟨fun _ hp => State.resetOn_inv hp, State.resetOn_inv (by decide)⟩

/-- Settles O27, by the moves a step can make. -/
theorem invariantKeptByEveryStep : Obligations.InvariantKeptByEveryStep :=
  fun _ _ h ht => h.step ht
end

section
/-!
SUPPORT. Huffman trees: the builder's tree has the symbols of the input as its leaves, the sizes of a tree with distinct
leaves, and the deserializer on its serialization.
-/

namespace Sys2Proof.Machine

/-! ### Symbols -/

theorem mem_allSymbols (s : Byte) : s ∈ allSymbols :=
  List.mem_map.2 ⟨s.toNat, List.mem_range.2 s.isLt, by simp⟩

theorem allSymbols_nodup : allSymbols.Nodup :=
  List.Nodup.map_on (fun x hx y hy h => by
    have hval := congrArg BitVec.toNat h
    simpa [Nat.mod_eq_of_lt (List.mem_range.1 hx), Nat.mod_eq_of_lt (List.mem_range.1 hy)] using hval) List.nodup_range

/-- The symbols present in an input, in ascending order (R131, R134). -/
def presentSymbols (S : List Byte) : List Byte := allSymbols.filter fun s => 0 < freq S s

theorem mem_presentSymbols {S : List Byte} {s : Byte} : s ∈ presentSymbols S ↔ s ∈ S := by
  simp [presentSymbols, mem_allSymbols, freq, List.count_pos_iff]

theorem presentSymbols_nodup (S : List Byte) : (presentSymbols S).Nodup := allSymbols_nodup.filter _

/-! ### The builder -/

/-- The leaf symbols of a pool's nodes, entry after entry. -/
def poolSymbols (pool : List PoolEntry) : List Byte := pool.flatMap fun e => treeSymbols e.node

/-- One round of R134 on a pool of two or more entries: a least entry and a least other one make way for their merge. -/
theorem mergePool_round (rounds q : Nat) (e f : PoolEntry) (fs : List PoolEntry) :
    ∃ a b others, (a :: b :: others).Perm (e :: f :: fs) ∧
      (∀ g ∈ b :: others, g.before a = false) ∧ (∀ g ∈ others, g.before b = false) ∧
      mergePool (rounds + 1) q (e :: f :: fs) =
        mergePool rounds (q + 1) (others ++ [⟨a.weight + b.weight, q, .node a.node b.node⟩]) := by
  have hlen := takeLeast_length e (f :: fs)
  have hperm := takeLeast_perm e (f :: fs)
  have hleast := takeLeast_least e (f :: fs)
  rw [mergePool]
  generalize takeLeast e (f :: fs) = least at *
  obtain ⟨a, rest⟩ := least
  cases rest with
  | nil => simp at hlen
  | cons x xs =>
    have hperm' := takeLeast_perm x xs
    refine ⟨a, (takeLeast x xs).1, (takeLeast x xs).2, (hperm'.cons a).trans hperm, fun g hg => ?_, fun g hg => ?_, rfl⟩
    · exact hleast g (hperm.subset (List.mem_cons_of_mem a (hperm'.subset hg)))
    · exact takeLeast_least x xs g (hperm'.subset (List.mem_cons_of_mem _ hg))

/-- The builder makes a tree of any pool that is not empty, and keeps its symbols (R134). -/
theorem mergePool_some (rounds q : Nat) {pool : List PoolEntry} (hne : pool ≠ []) (hr : pool.length ≤ rounds + 1) :
    ∃ t, mergePool rounds q pool = some t ∧ (treeSymbols t).Perm (poolSymbols pool) := by
  induction rounds generalizing q pool with
  | zero =>
    obtain ⟨e, rfl⟩ := List.length_eq_one_iff.1 (show pool.length = 1 by have := List.length_pos_iff.2 hne; omega)
    exact ⟨e.node, by rw [mergePool], by simp [poolSymbols]⟩
  | succ rounds ih =>
    match pool, hne with
    | [e], _ => exact ⟨e.node, by rw [mergePool], by simp [poolSymbols]⟩
    | e :: f :: fs, _ =>
      obtain ⟨a, b, others, hperm, -, -, hround⟩ := mergePool_round rounds q e f fs
      have hlen := hperm.length_eq
      simp only [List.length_cons] at hlen hr
      obtain ⟨t, ht, hsyms⟩ := ih (q + 1) (pool := others ++ [⟨a.weight + b.weight, q, .node a.node b.node⟩])
        (by simp) (by simp; omega)
      refine ⟨t, hround.trans ht, hsyms.trans (.trans ?_ (hperm.flatMap_right _))⟩
      simpa [poolSymbols, treeSymbols] using
        List.perm_append_comm (l₁ := poolSymbols others) (l₂ := treeSymbols a.node ++ treeSymbols b.node)

theorem poolSymbols_leafPool (S : List Byte) : poolSymbols (leafPool S) = presentSymbols S := by
  simp only [poolSymbols, leafPool, List.flatMap_map, treeSymbols]
  rw [← List.map_eq_flatMap, List.zipIdx_map_fst, presentSymbols]

theorem leafPool_length (S : List Byte) : (leafPool S).length = (presentSymbols S).length := by
  simp [leafPool, presentSymbols]

theorem build_nil : build [] = none := by
  have hpool : leafPool [] = [] := by simp [leafPool, freq]
  rw [build, hpool, mergePool]

/-- An input that is not empty has a tree, whose leaves are its symbols (R134). -/
theorem build_some {S : List Byte} (h : S ≠ []) :
    ∃ t, build S = some t ∧ (treeSymbols t).Perm (presentSymbols S) := by
  have hne : leafPool S ≠ [] := by
    obtain ⟨b, hb⟩ := List.exists_mem_of_ne_nil S h
    rw [← List.length_pos_iff, leafPool_length]
    exact List.length_pos_of_mem (mem_presentSymbols.2 hb)
  obtain ⟨t, ht, hsyms⟩ := mergePool_some _ (leafPool S).length hne (Nat.le_succ _)
  exact ⟨t, ht, by rwa [poolSymbols_leafPool] at hsyms⟩

theorem treeSymbols_build_perm {S : List Byte} {t : Tree} (h : build S = some t) :
    (treeSymbols t).Perm (presentSymbols S) := by
  have hne : S ≠ [] := fun hS => by rw [hS, build_nil] at h; cases h
  obtain ⟨t', ht', hsyms⟩ := build_some hne
  rwa [Option.some.inj (h.symm.trans ht')]

/-- The leaves of a built tree are distinct (R161). -/
theorem treeSymbols_build_nodup {S : List Byte} {t : Tree} (h : build S = some t) : (treeSymbols t).Nodup :=
  (treeSymbols_build_perm h).nodup_iff.2 (presentSymbols_nodup S)

/-- The leaves of a built tree are the symbols of the input (R134). -/
theorem mem_treeSymbols_build {S : List Byte} {t : Tree} (h : build S = some t) (b : Byte) :
    b ∈ treeSymbols t ↔ b ∈ S :=
  (treeSymbols_build_perm h).mem_iff.trans mem_presentSymbols

/-! ### Sizes -/

/-- There are 256 byte values, so a tree with distinct leaves has at most as many (R161, R170). -/
theorem leafCount_le {t : Tree} (h : (treeSymbols t).Nodup) : leafCount t ≤ 256 := by
  have hsub : (treeSymbols t).Subperm allSymbols := List.Nodup.subperm h fun s _ => mem_allSymbols s
  simpa [treeSymbols_length, allSymbols] using hsub.length_le

theorem internalCount_le {t : Tree} (h : (treeSymbols t).Nodup) : internalCount t ≤ 255 := by
  have := leafCount_le h
  have := leafCount_eq t
  omega

/-- The serialization of a tree with distinct leaves has at most 767 bytes (R161). -/
theorem ser_length_le {t : Tree} (h : (treeSymbols t).Nodup) : (ser t).length ≤ 767 := by
  have := leafCount_le h
  have := internalCount_le h
  have := ser_length t
  omega

/-! ### The deserializer on a serialized tree -/

/-- The deserializer gives a tree with distinct leaves back (R169). -/
theorem deser_ser {t : Tree} (h : (treeSymbols t).Nodup) : deser (ser t) = .ok t := by
  obtain ⟨seen, hnode, -⟩ := deserNode_ser t ⟨ser t, 0, []⟩ [] le_rfl (List.append_nil _).symm
    (by simpa [Config.treeMaxInternal] using internalCount_le h) h fun _ _ => List.not_mem_nil
  rw [deser, hnode]
  rfl

theorem loadTree_ser {t : Tree} (h : (treeSymbols t).Nodup) : loadTree (ser t) = .ok (some t) := by
  have hdeser := deser_ser h
  cases hT : ser t with
  | nil => rw [hT] at hdeser; cases hdeser
  | cons b bs => rw [hT] at hdeser; rw [loadTree, hdeser]

end Sys2Proof.Machine
end

section
/-!
SUPPORT. Huffman codes: a code is a path to a leaf, so the walk of the decoder reads a message back from its bits, and
packing loses none of them.
-/

namespace Sys2Proof.Machine

/-! ### Codes -/

theorem leafAt_node_cons (l r : Tree) (b : Bool) (p : Bits) :
    leafAt (.node l r) (b :: p) = leafAt (if b then r else l) p := by
  cases b <;> rfl

/-- The walk lists each leaf's symbol with its path from the root, after the path walked so far (R137). -/
theorem mem_walkCodes {t : Tree} {p c : Bits} {s : Byte} :
    (s, c) ∈ walkCodes t p ↔ ∃ q, c = p ++ q ∧ leafAt t q = some s := by
  induction t generalizing p with
  | leaf x =>
    constructor
    · intro h
      obtain ⟨rfl, rfl⟩ := Prod.mk.inj (List.mem_singleton.1 h)
      exact ⟨[], (List.append_nil _).symm, rfl⟩
    · rintro ⟨q, rfl, hq⟩
      cases q with
      | nil => cases hq; simp [walkCodes]
      | cons b q => cases hq
  | node l r hl hr =>
    rw [walkCodes, List.mem_append, hl, hr]
    constructor
    · rintro (⟨q, rfl, hq⟩ | ⟨q, rfl, hq⟩)
      · exact ⟨false :: q, by simp, hq⟩
      · exact ⟨true :: q, by simp, hq⟩
    · rintro ⟨q, rfl, hq⟩
      match q, hq with
      | false :: q, hq => exact .inl ⟨q, by simp, hq⟩
      | true :: q, hq => exact .inr ⟨q, by simp, hq⟩

theorem walkCodes_symbols (t : Tree) (p : Bits) : (walkCodes t p).map Prod.fst = treeSymbols t := by
  induction t generalizing p with
  | leaf x => rfl
  | node l r hl hr => simp [walkCodes, treeSymbols, hl, hr]

theorem codes_symbols (t : Tree) : (codes t).map Prod.fst = treeSymbols t := by
  cases t with
  | leaf x => rfl
  | node l r => exact walkCodes_symbols _ _

/-- The symbols with a code are the tree's (R137). -/
theorem codeOf_ne_none {t : Tree} {s : Byte} : codeOf t s ≠ none ↔ s ∈ treeSymbols t := by
  rw [codeOf, Option.ne_none_iff_isSome, List.lookup_isSome_iff, ← codes_symbols, List.mem_map]
  exact exists_congr fun p => and_congr_right fun _ => by rw [beq_iff_eq, eq_comm]

theorem codeOf_leaf (x s : Byte) : codeOf (.leaf x) s = if s = x then some [false] else none := by
  rw [codeOf, codes, List.lookup_cons, List.lookup_nil]
  by_cases h : s = x
  · rw [beq_iff_eq.2 h, if_pos h]
  · rw [beq_eq_false_iff_ne.2 h, if_neg h]

/-- A code in a tree of more than one leaf is the path to a leaf with the symbol (R137). -/
theorem leafAt_of_codeOf {l r : Tree} {s : Byte} {c : Bits} (h : codeOf (.node l r) s = some c) :
    leafAt (.node l r) c = some s := by
  obtain ⟨before, after, hcodes, -⟩ := List.lookup_eq_some_iff.1 h
  have hmem : (s, c) ∈ walkCodes (.node l r) [] := by
    rw [show walkCodes (.node l r) [] = before ++ (s, c) :: after from hcodes]; simp
  obtain ⟨q, rfl, hq⟩ := mem_walkCodes.1 hmem
  exact hq

/-- A path to a leaf is no longer than the tree is deep. -/
theorem leafAt_length_le {t : Tree} {p : Bits} {s : Byte} (h : leafAt t p = some s) : p.length ≤ treeDepth t := by
  induction t generalizing p with
  | leaf x =>
    cases p with
    | nil => exact Nat.zero_le _
    | cons b p => cases h
  | node l r hl hr =>
    match p, h with
    | false :: p, h => have := hl h; simp only [List.length_cons, treeDepth]; omega
    | true :: p, h => have := hr h; simp only [List.length_cons, treeDepth]; omega

/-- A code is no longer than the tree is deep, but for the one bit of a one-leaf tree (R138). -/
theorem codeOf_length_le {t : Tree} {s : Byte} {c : Bits} (h : codeOf t s = some c) :
    c.length ≤ max 1 (treeDepth t) := by
  cases t with
  | leaf x =>
    rw [codeOf_leaf] at h
    split at h
    · cases h; simp
    · cases h
  | node l r => exact (leafAt_length_le (leafAt_of_codeOf h)).trans (le_max_right _ _)

/-! ### The bits of a message -/

theorem messageBits_cons {t : Tree} {b : Byte} {c : Bits} (h : codeOf t b = some c) (msg : List Byte) :
    messageBits t (b :: msg) = c ++ messageBits t msg := by
  simp [messageBits, h]

theorem AllCoded.cons {t : Tree} {b : Byte} {msg : List Byte} (h : AllCoded t (b :: msg)) :
    (∃ c, codeOf t b = some c) ∧ AllCoded t msg :=
  ⟨Option.ne_none_iff_exists'.1 (h b List.mem_cons_self), fun x hx => h x (List.mem_cons_of_mem b hx)⟩

/-- A message is encoded by the codes of its bytes, one after the other (R140). -/
theorem encodeBits_messageBits {t : Tree} {msg : List Byte} (h : AllCoded t msg) :
    encodeBits t msg = some (messageBits t msg) := by
  induction msg with
  | nil => rfl
  | cons b msg ih =>
    obtain ⟨⟨c, hc⟩, hmsg⟩ := h.cons
    rw [encodeBits, hc, ih hmsg, messageBits_cons hc]

theorem messageBits_length_le {t : Tree} {msg : List Byte} (h : AllCoded t msg) :
    (messageBits t msg).length ≤ msg.length * max 1 (treeDepth t) := by
  induction msg with
  | nil => simp [messageBits]
  | cons b msg ih =>
    obtain ⟨⟨c, hc⟩, hmsg⟩ := h.cons
    have hb := codeOf_length_le hc
    have hrest := ih hmsg
    rw [messageBits_cons hc, List.length_append, List.length_cons, Nat.succ_mul]
    omega

/-! ### Decoding bits -/

theorem decodeLeafBits_false (s : Byte) (bs : Bits) :
    decodeLeafBits s (false :: bs) = (decodeLeafBits s bs).map (s :: ·) := by
  rw [decodeLeafBits]
  cases decodeLeafBits s bs <;> rfl

/-- The walk down a path to a leaf gives the leaf's symbol and goes on at the root (R143). -/
theorem decodeWalk_path {l r n : Tree} {p : Bits} {s : Byte} (hp : p ≠ []) (h : leafAt n p = some s) (atRoot : Bool)
    (bs : Bits) :
    decodeWalk l r n atRoot (p ++ bs) = (decodeWalk l r (.node l r) true bs).map (s :: ·) := by
  induction p generalizing n atRoot with
  | nil => exact absurd rfl hp
  | cons b p ih =>
    cases n with
    | leaf x => cases h
    | node nl nr =>
      rw [leafAt_node_cons] at h
      rw [List.cons_append, decodeWalk]
      generalize (if b then nr else nl) = next at h ⊢
      cases next with
      | leaf x =>
        cases p with
        | nil =>
          cases h
          simp only [List.nil_append]
          cases decodeWalk l r (.node l r) true bs <;> rfl
        | cons b' p => cases h
      | node nl' nr' => exact ih (fun hp' => by rw [hp'] at h; cases h) h false

theorem decodeBits_nil (t : Tree) : decodeBits t [] = .ok [] := by
  cases t <;> rfl

/-- A code in front of a bit string decodes to its symbol (R138, R143). -/
theorem decodeBits_code {t : Tree} {s : Byte} {c : Bits} (h : codeOf t s = some c) (bs : Bits) :
    decodeBits t (c ++ bs) = (decodeBits t bs).map (s :: ·) := by
  cases t with
  | leaf x =>
    rw [codeOf_leaf] at h
    split at h
    · next hs => cases h; subst hs; exact decodeLeafBits_false s bs
    · cases h
  | node l r =>
    have hpath := leafAt_of_codeOf h
    exact decodeWalk_path (fun hc => by rw [hc] at hpath; cases hpath) hpath true bs

/-- Decoding a message's bits gives the message (R145). -/
theorem decodeBits_messageBits {t : Tree} {msg : List Byte} (h : AllCoded t msg) :
    decodeBits t (messageBits t msg) = .ok msg := by
  induction msg with
  | nil => exact decodeBits_nil t
  | cons b msg ih =>
    obtain ⟨⟨c, hc⟩, hmsg⟩ := h.cons
    rw [messageBits_cons hc, decodeBits_code hc, ih hmsg]
    rfl

/-! ### Packed bits -/

/-- The missing bits of a byte are 0 (R79). -/
theorem byteOfBits_append_zeros (b : Bits) (k : Nat) : byteOfBits (b ++ List.replicate k false) = byteOfBits b := by
  have hbit (i : Nat) : (b ++ List.replicate k false).getD i false = b.getD i false := by
    simp only [List.getD_eq_getElem?_getD, List.getElem?_append, List.getElem?_replicate]
    split
    · rfl
    · next hi => rw [List.getElem?_eq_none (by omega)]; split <;> rfl
  simp only [byteOfBits, hbit]

theorem bitsOfByte_byteOfBits_of_le {b : Bits} (h : b.length ≤ 8) :
    bitsOfByte (byteOfBits b) = b ++ List.replicate (8 - b.length) false := by
  rw [← byteOfBits_append_zeros b (8 - b.length), bitsOfByte_byteOfBits]
  simp; omega

/-- The bytes of a packed bit string hold its bits and then padding bits 0 (R79). -/
theorem flatMap_packGroups {n : Nat} {b : Bits} (h : b.length ≤ 8 * n) :
    (packGroups n b).flatMap bitsOfByte = b ++ List.replicate (8 * n - b.length) false := by
  induction n generalizing b with
  | zero => simp [packGroups, List.length_eq_zero_iff.1 (show b.length = 0 by omega)]
  | succ n ih =>
    rw [packGroups, List.flatMap_cons, ih (by simp; omega), bitsOfByte_byteOfBits_of_le (by simp)]
    by_cases hlen : 8 ≤ b.length
    · rw [List.length_take_of_le hlen, Nat.sub_self, List.replicate_zero, List.append_nil, ← List.append_assoc,
        List.take_append_drop, List.length_drop]
      congr 2; omega
    · rw [List.take_of_length_le (by omega), List.drop_of_length_le (by omega), List.nil_append, List.append_assoc,
        List.replicate_append_replicate, List.length_nil]
      congr 2; omega

/-- Unpacking a packed bit string gives it back (R79). -/
theorem unpackBits_packBits (b : Bits) : unpackBits (packBits b) b.length = b := by
  rw [unpackBits, packBits, flatMap_packGroups (by omega), List.take_left]

end Sys2Proof.Machine
end

section
/-!
SUPPORT. The Huffman container: what the encoder writes, and that the decoder reads it back.
-/

namespace Sys2Proof.Machine

/-! ### The payload and the header -/

/-- A message's packed bits decode to the message under the tree that made them (R142, R145). -/
theorem decodePayload_messageBits {T : List Byte} {t : Tree} {msg : List Byte} (hT : loadTree T = .ok (some t))
    (h : AllCoded t msg) :
    decodePayload (packBits (messageBits t msg)) T (messageBits t msg).length = .ok msg := by
  rw [decodePayload, hT]
  simp only
  rw [if_neg (by rw [packBits_length]; omega), unpackBits_packBits, decodeBits_messageBits h]

/-- A container's header fields give its tree region and its payload back (R80, R177). -/
theorem fnHufDec_container {n : Nat} {T : List Byte} (P : List Byte) (hn : n < 2 ^ 64) (hT : T.length < 2 ^ 64) :
    fnHufDec (toLE Config.hufHdrBytes n ++ toLE Config.hufHdrBytes T.length ++ T ++ P) =
      (decodePayload P T n).map fun out => ⟨out, T.length, n⟩ := by
  have hw : Config.hufHdrBytes = 8 := rfl
  have hfield {v : Nat} (hv : v < 2 ^ 64) : leValue (toLE Config.hufHdrBytes v) = v := leValue_toLE (by rw [hw]; omega)
  simp only [List.append_assoc]
  generalize hS : toLE Config.hufHdrBytes n ++ (toLE Config.hufHdrBytes T.length ++ (T ++ P)) = S
  have hlen : S.length = 16 + T.length + P.length := by rw [← hS]; simp [hw]; omega
  have hafter : S.drop Config.hufHdrBytes = toLE Config.hufHdrBytes T.length ++ (T ++ P) := by
    rw [← hS, List.drop_left' (toLE_length _ _)]
  have hbits : leValue (S.take Config.hufHdrBytes) = n := by rw [← hS, List.take_left' (toLE_length _ _), hfield hn]
  have hsize : leValue ((S.drop Config.hufHdrBytes).take Config.hufHdrBytes) = T.length := by
    rw [hafter, List.take_left' (toLE_length _ _), hfield hT]
  have hbody : S.drop (2 * Config.hufHdrBytes) = T ++ P := by
    rw [Nat.two_mul, ← List.drop_drop, hafter, List.drop_left' (toLE_length _ _)]
  rw [fnHufDec, if_neg (List.ne_nil_of_length_pos (by omega)), if_neg (by omega), hbits, hsize, hbody]
  simp only
  rw [if_neg (by omega), List.drop_left, List.take_left]
  cases decodePayload P T n <;> rfl

/-- Every byte of an input has a code in the input's own tree (R176). -/
theorem allCoded_build {S : List Byte} {t : Tree} (h : build S = some t) : AllCoded t S :=
  fun b hb => codeOf_ne_none.2 ((mem_treeSymbols_build h b).2 hb)

/-- The container of an input that has a tree (R80, R176). -/
theorem fnHufEnc_build {S : List Byte} {t : Tree} (h : build S = some t) :
    fnHufEnc S = .ok ⟨toLE Config.hufHdrBytes (messageBits t S).length ++ toLE Config.hufHdrBytes (ser t).length ++
      ser t ++ packBits (messageBits t S), (ser t).length, (messageBits t S).length⟩ := by
  rw [fnHufEnc, h]
  simp only
  rw [encodeBits_messageBits (allCoded_build h)]

/-- A code has at most 255 bits, so the bit count of an input that the registers can describe fits its header field
(R9, R138). -/
theorem messageBits_build_length_lt {S : List Byte} {t : Tree} (h : build S = some t) (hS : S.length < 2 ^ 32) :
    (messageBits t S).length < 2 ^ 64 := by
  have hdepth : max 1 (treeDepth t) ≤ 255 := by
    have := internalCount_le (treeSymbols_build_nodup h)
    have := treeDepth_le t
    omega
  calc (messageBits t S).length
      ≤ S.length * max 1 (treeDepth t) := messageBits_length_le (allCoded_build h)
    _ ≤ S.length * 255 := Nat.mul_le_mul_left _ hdepth
    _ < 2 ^ 64 := by omega

/-- The container of a string with a tree decodes to the string (R179). -/
theorem fnHufDec_fnHufEnc_build {S : List Byte} {t : Tree} (h : build S = some t) (hS : S.length < 2 ^ 32) :
    ∃ out, fnHufEnc S = .ok ⟨out, (ser t).length, (messageBits t S).length⟩ ∧
      fnHufDec out = .ok ⟨S, (ser t).length, (messageBits t S).length⟩ := by
  have hnodup := treeSymbols_build_nodup h
  refine ⟨_, fnHufEnc_build h, ?_⟩
  rw [fnHufDec_container _ (messageBits_build_length_lt h hS) (by have := ser_length_le hnodup; omega),
    decodePayload_messageBits (loadTree_ser hnodup) (allCoded_build h)]
  rfl

end Sys2Proof.Machine

open Sys2Proof Sys2Proof.Machine

/-- Settles O52: the empty string has the empty container; any other has a tree, whose leaves have a code each. -/
theorem containerRoundTrip : Obligations.ContainerRoundTrip := by
  intro b hb
  by_cases hempty : b = []
  · subst hempty
    exact ⟨[], 0, 0, by rw [fnHufEnc, build_nil], rfl⟩
  · obtain ⟨t, ht, -⟩ := build_some hempty
    obtain ⟨out, henc, hdec⟩ := fnHufDec_fnHufEnc_build ht hb
    exact ⟨out, _, _, henc, hdec⟩
end

section
/-!
SUPPORT. The register window: which register stands at which offset, what a read shows and what a write changes
(10_state.md R17 to R31), and the step that makes such an access.
-/

namespace Sys2Proof.Machine

/-! ### Offsets -/

@[simp] theorem regAt_regOffset (r : Reg) : regAt (regOffset r) = some r := by cases r <;> rfl

/-- No two registers share an offset (R19). -/
@[simp] theorem regOffset_inj {r r' : Reg} : regOffset r = regOffset r' ↔ r = r' :=
  ⟨fun h => Option.some_inj.1 (by rw [← regAt_regOffset r, h, regAt_regOffset]), congrArg regOffset⟩

theorem regOffset_lt (r : Reg) : regOffset r < 0x40 := by cases r <;> decide

theorem regOffset_of_regAt {k : Nat} {r : Reg} (h : regAt k = some r) : regOffset r = k := by
  rw [regAt] at h
  simpa using List.find?_some h

/-- No register stands at offset 0x40 or above (R17, R19). -/
theorem regAt_eq_none {k : Nat} (h : 0x40 ≤ k) : regAt k = none := by
  cases hreg : regAt k with
  | none => rfl
  | some r =>
    have hr := regOffset_of_regAt hreg
    have hlt := regOffset_lt r
    omega

/-! ### Reading -/

theorem State.windowValue_unused (s : State) {k : Nat} (h : 0x40 ≤ k) : s.windowValue k = 0 := by
  rw [windowValue, regAt_eq_none h]

/-- A register read shows DONE = 1 exactly if it is a read of STATUS while DONE is 1 (R21). -/
theorem State.regValue_showsDone (s : State) (r : Reg) :
    (decide (regOffset r = regOffset .status) && (s.regValue r).getLsbD 1) = (decide (r = .status) && s.done) := by
  by_cases hr : r = .status
  · subst hr
    rw [regValue, s.statusWord_done, decide_eq_true rfl, decide_eq_true rfl]
  · rw [decide_eq_false (mt regOffset_inj.1 hr), decide_eq_false hr, Bool.false_and, Bool.false_and]

/-! ### Writing -/

theorem State.writeWindow_busy {s : State} (h : s.busy = true) (k : Nat) (w : Word) : s.writeWindow k w = s :=
  if_pos h

theorem State.writeWindow_unused (s : State) {k : Nat} (h : 0x40 ≤ k) (w : Word) : s.writeWindow k w = s := by
  rw [writeWindow, regAt_eq_none h, ite_self]

theorem State.writeWindow_regOffset {s : State} (h : s.busy = false) (r : Reg) (w : Word) :
    s.writeWindow (regOffset r) w = s.writeReg w r := by
  rw [writeWindow, regAt_regOffset, h]; rfl

/-- A write of the window is lost, or it is the write of one register while BUSY = 0 (R17, R31). -/
theorem State.writeWindow_cases (s : State) (k : Nat) (w : Word) :
    s.writeWindow k w = s ∨ s.busy = false ∧ ∃ r, k = regOffset r ∧ s.writeWindow k w = s.writeReg w r := by
  cases hbusy : s.busy with
  | true => exact .inl (writeWindow_busy hbusy k w)
  | false =>
    cases hreg : regAt k with
    | none => left; rw [writeWindow, hreg, ite_self]
    | some r =>
      obtain rfl := regOffset_of_regAt hreg
      exact .inr ⟨rfl, r, rfl, writeWindow_regOffset hbusy r w⟩

/-- A write of CTRL with bit 0 set is a START (R100). -/
theorem State.writeCtrl_start (s : State) {w : Word} (h : w.getLsbD 0 = true) :
    s.writeCtrl w = ({ s with ie := w.getLsbD 1 } : State).start :=
  if_pos h

/-- A write of CTRL with bit 0 clear sets IE and nothing else (R20). -/
theorem State.writeCtrl_enable (s : State) {w : Word} (h : ¬ w.getLsbD 0 = true) :
    s.writeCtrl w = { s with ie := w.getLsbD 1 } :=
  if_neg h

/-- After a register write, an RW register reads as written and an RO register as before (R19, R22 to R30). -/
theorem State.writeReg_regValue_same (s : State) (w : Word) {r : Reg} (hctrl : r ≠ .ctrl) (hstatus : r ≠ .status) :
    (s.writeReg w r).regValue r =
      if r = .errCode ∨ r = .resultLen ∨ r = .resultAux ∨ r = .outBitsLo ∨ r = .outBitsHi then s.regValue r else w := by
  cases r with
  | ctrl => exact absurd rfl hctrl
  | status => exact absurd rfl hstatus
  | _ => rfl

/-- After a register write every other register reads as before (R19). -/
theorem State.writeReg_regValue_other (s : State) (w : Word) {r r' : Reg} (hctrl : r ≠ .ctrl) (hstatus : r ≠ .status)
    (hne : r' ≠ r) : (s.writeReg w r).regValue r' = s.regValue r' := by
  cases r with
  | ctrl => exact absurd rfl hctrl
  | status => exact absurd rfl hstatus
  | errCode | resultLen | resultAux | outBitsLo | outBitsHi => rfl
  | _ =>
    cases r' with
    | ctrl | status => rfl
    | _ => simp [writeReg, regValue] at hne ⊢

/-- What a write of a register other than CTRL leaves as it is, besides the registers (R19). -/
theorem State.writeReg_frame (s : State) (w : Word) {r : Reg} (hctrl : r ≠ .ctrl) :
    (s.writeReg w r).busy = s.busy ∧ (s.writeReg w r).mem = s.mem ∧ (s.writeReg w r).platform = s.platform ∧
      (s.writeReg w r).drawCount = s.drawCount ∧ (s.writeReg w r).readback = s.readback ∧
      (s.writeReg w r).seenDone = s.seenDone ∧ (s.writeReg w r).schedule = s.schedule := by
  cases r with
  | ctrl => exact absurd rfl hctrl
  | _ => exact ⟨rfl, rfl, rfl, rfl, rfl, rfl, rfl⟩

/-! ### The step of an access -/

theorem step_scheduled {s : State} {a : Action} {rest : List Action} (h : s.schedule = a :: rest) :
    step s = perform a { s with schedule := rest } := by
  rw [step, moveNext, h]

section
variable {s : State} {acc : BusAccess} {w : Word} {rest : List Action}

/-- A well-formed read of the window shows the host the value at its offset (R17, R31). -/
theorem step_regRead (hs : s.schedule = .regRead acc :: rest) (hwf : acc.WellFormed s.platform) :
    step s = .next (({ s with schedule := rest } : State).hostSaw (acc.offset s.platform)
      (s.windowValue (acc.offset s.platform))) := by
  rw [step_scheduled hs]
  exact hostRegRead_wellFormed hwf

/-- A well-formed write of the window is a write at its offset (R17). -/
theorem step_regWrite (hs : s.schedule = .regWrite acc w :: rest) (hwf : acc.WellFormed s.platform) :
    step s = .next (({ s with schedule := rest } : State).writeWindow (acc.offset s.platform) w) := by
  rw [step_scheduled hs, perform, hostRegWrite, if_neg (not_not.2 hwf.1), if_neg (not_not.2 hwf)]

/-- A well-formed write of a register while BUSY = 0 (R19). -/
theorem step_regWrite_idle {r : Reg} (hidle : s.busy = false) (hs : s.schedule = .regWrite acc w :: rest)
    (hwf : acc.WellFormed s.platform) (hr : acc.offset s.platform = regOffset r) :
    step s = .next (({ s with schedule := rest } : State).writeReg w r) := by
  rw [step_regWrite hs hwf, hr, State.writeWindow_regOffset]
  exact hidle

/-- A read of the window of any other form is refused (R18). -/
theorem step_regRead_refused (hs : s.schedule = .regRead acc :: rest) (hin : acc.InWindow s.platform)
    (hwf : ¬ acc.WellFormed s.platform) : step s = .refused (.registerAccess acc) := by
  rw [step_scheduled hs, perform, hostRegRead, if_neg (not_not.2 hin), if_pos hwf]

/-- A write of the window of any other form is refused (R18). -/
theorem step_regWrite_refused (hs : s.schedule = .regWrite acc w :: rest) (hin : acc.InWindow s.platform)
    (hwf : ¬ acc.WellFormed s.platform) : step s = .refused (.registerAccess acc) := by
  rw [step_scheduled hs, perform, hostRegWrite, if_neg (not_not.2 hin), if_pos hwf]

end

end Sys2Proof.Machine

open Sys2Proof Sys2Proof.Machine

/-- Settles O17, by what a register write changes and what it leaves. -/
theorem registerWriteHoldsValue : Obligations.RegisterWriteHoldsValue := by
  intro s r acc w rest hidle hctrl hstatus hs hwf hr
  obtain ⟨hbusy, hframe⟩ := ({ s with schedule := rest } : State).writeReg_frame w hctrl
  refine ⟨_, step_regWrite_idle hidle hs hwf hr, ?_, fun r' hne => ?_, hbusy, hframe⟩
  · rw [State.writeReg_regValue_same _ w hctrl hstatus]
    cases r <;> rfl
  · rw [State.writeReg_regValue_other _ w hctrl hstatus hne]
    cases r' <;> rfl

/-- Settles O13: with bit 0 the write is a START, without it only IE is written. -/
theorem ctrlWriteStartsCommand : Obligations.CtrlWriteStartsCommand := by
  intro s acc w rest hidle hs hwf hr
  rw [step_regWrite_idle (r := .ctrl) hidle hs hwf hr, State.writeReg]
  by_cases hstart : w.getLsbD 0 = true
  · rw [State.writeCtrl_start _ hstart, if_pos hstart]
    rfl
  · rw [State.writeCtrl_enable _ hstart, if_neg hstart]

/-- Settles O15: a write of the window is lost while BUSY = 1, and a read changes only what the host has seen. -/
theorem busyWindowIsReadOnly : Obligations.BusyWindowIsReadOnly := by
  intro s acc rest hwf
  refine ⟨fun w hbusy hs => ?_, fun hs => ⟨_, step_regRead hs hwf⟩⟩
  rw [step_regWrite hs hwf, State.writeWindow_busy]
  exact hbusy

/-- Settles O16: a write of STATUS is the host's acknowledgement. -/
theorem statusBitsClearWhenWrittenWithOne : Obligations.StatusBitsClearWhenWrittenWithOne := by
  intro s acc w rest hidle hs hwf hr
  exact ⟨_, step_regWrite_idle (r := .status) hidle hs hwf hr, by simp [State.writeReg], by simp [State.writeReg], rfl⟩

/-- Settles O18: each register is shown at its offset, and none stands at 0x40 or above. -/
theorem windowReadsAndUnusedOffsets : Obligations.WindowReadsAndUnusedOffsets := by
  intro s acc rest hwf
  refine ⟨fun r hr hs => ?_, fun hunused hs => ?_, fun w hunused hs => ?_⟩
  · rw [step_regRead hs hwf, hr, s.windowValue_regOffset, State.hostSaw, s.regValue_showsDone]
  · have hstatus : acc.offset s.platform ≠ regOffset .status := by
      have := regOffset_lt .status
      omega
    rw [step_regRead hs hwf, s.windowValue_unused hunused, State.hostSaw, decide_eq_false hstatus, Bool.false_and,
      Bool.or_false]
  · rw [step_regWrite hs hwf, State.writeWindow_unused _ hunused]

/-- Settles O19: such an access is not well-formed. -/
theorem otherRegisterAccessRefused : Obligations.OtherRegisterAccessRefused := by
  intro s acc rest hin hform
  have hwf : ¬ acc.WellFormed s.platform := fun ⟨_, hwidth, haligned⟩ =>
    hform.elim (absurd hwidth) (absurd haligned)
  exact ⟨fun hs => step_regRead_refused hs hin hwf, fun w hs => step_regWrite_refused hs hin hwf⟩
end

section
/-!
SUPPORT. The flags BUSY, DONE and ERR: everything one step can do to them (10_state.md R21, 40_command.md R100, R101).
-/

namespace Sys2Proof.Machine

/-- What a step from `s` to `t` does to the flags, with the move that does it: it keeps them, or it is the completion of
the running command (R101), a START (R100), the host's acknowledgement of `w` (R206), or the reset input (R216). -/
inductive State.FlagEvent (s t : State) : Prop where
  | kept (busy : t.busy = s.busy) (done : t.done = s.done) (err : t.err = s.err)
  | completed (next : s.NextIsEngine) (running : s.busy = true)
      (busy : t.busy = false) (done : t.done = true) (err : t.err = (t.errCode != 0))
  | started (next : s.NextSetsBit 0x00 0) (busy : t.busy = true) (done : t.done = false) (err : t.err = false)
  | acknowledged (w : Word) (next : ∀ bit, w.getLsbD bit = true → s.NextSetsBit 0x04 bit)
      (busy : t.busy = s.busy) (done : t.done = (s.done && !w.getLsbD 1)) (err : t.err = (s.err && !w.getLsbD 2))
  | reset (next : s.schedule.head? = some .reset) (busy : t.busy = false) (done : t.done = false) (err : t.err = false)

/-- The reset input clears the flags (R216). -/
theorem State.applyReset_flags (s : State) :
    s.applyReset.busy = false ∧ s.applyReset.done = false ∧ s.applyReset.err = false := by
  rw [applyReset]; split <;> exact ⟨rfl, rfl, rfl⟩

/-- A poll of WAIT sets no flag (R85). -/
theorem pollStatus_flags (s : State) :
    (pollStatus s).busy = s.busy ∧ (pollStatus s).done = s.done ∧ (pollStatus s).err = s.err := by
  rw [pollStatus]; split <;> exact ⟨rfl, rfl, rfl⟩

section
variable {s t : State} {rest : List Action}

/-- The engine's turn changes the flags only by a completion (R101). -/
theorem State.FlagEvent.of_engineTurn (hnext : s.NextIsEngine)
    (ht : engineTurn { s with schedule := rest } = .next t) : s.FlagEvent t := by
  rcases engineTurn_cases ht with ⟨-, rfl⟩ | ⟨hrun, i, -, rfl⟩ | ⟨hrun, -, rfl⟩
  · exact .kept rfl rfl rfl
  · exact .completed hnext hrun rfl rfl rfl
  · exact .completed hnext hrun rfl rfl rfl

/-- A write of the window changes the flags only at CTRL and at STATUS, while BUSY = 0 (R20, R21, R31). -/
theorem State.FlagEvent.of_regWrite {acc : BusAccess} {w : Word} (hs : s.schedule = .regWrite acc w :: rest)
    (ht : hostRegWrite acc w { s with schedule := rest } = .next t) : s.FlagEvent t := by
  obtain ⟨hwf, rfl⟩ := hostRegWrite_cases ht
  rcases ({ s with schedule := rest } : State).writeWindow_cases (acc.offset s.platform) w with
    hlost | ⟨hidle, r, hr, hwrite⟩
  · rw [hlost]
    exact .kept rfl rfl rfl
  · have hnext (bit : Nat) (hbit : w.getLsbD bit = true) : s.NextSetsBit (regOffset r) bit :=
      ⟨hidle, acc, w, rest, hs, hwf, hr, hbit⟩
    rw [hwrite]
    cases r with
    | ctrl =>
      rw [State.writeReg]
      by_cases hstart : w.getLsbD 0 = true
      · rw [State.writeCtrl_start _ hstart]
        exact .started (hnext 0 hstart) rfl rfl rfl
      · rw [State.writeCtrl_enable _ hstart]
        exact .kept rfl rfl rfl
    | status => exact .acknowledged w hnext rfl rfl rfl
    | _ => exact .kept rfl rfl rfl

/-- A move of any agent, taken off the schedule, makes one of the flag events. -/
theorem State.FlagEvent.of_perform {a : Action} (hs : s.schedule = a :: rest)
    (ht : perform a { s with schedule := rest } = .next t) : s.FlagEvent t := by
  have hhead : s.schedule.head? = some a := by rw [hs, List.head?_cons]
  rcases perform_cases ht with ⟨rfl, ht⟩ | ⟨rfl, rfl⟩ | ⟨b, -, ht⟩ | ⟨b, w, rfl, ht⟩ | ⟨x, -, ht⟩ | ⟨x, b, -, ht⟩ |
    ⟨-, rfl⟩
  · exact .of_engineTurn (.inr hhead) ht
  · obtain ⟨hbusy, hdone, herr⟩ := ({ s with schedule := rest } : State).applyReset_flags
    exact .reset hhead hbusy hdone herr
  · obtain ⟨-, rfl⟩ := hostRegRead_cases ht
    exact .kept rfl rfl rfl
  · exact .of_regWrite hs ht
  · rcases hostMemRead_cases ht with ⟨-, ⟨-, -, rfl⟩ | ⟨-, rfl⟩⟩
    · exact .kept rfl rfl rfl
    · exact .kept rfl rfl rfl
  · obtain ⟨-, -, rfl⟩ := hostMemWrite_cases ht
    exact .kept rfl rfl rfl
  · obtain ⟨hbusy, hdone, herr⟩ := pollStatus_flags { s with schedule := rest }
    exact .kept hbusy hdone herr

/-- Everything one step can do to the flags. -/
theorem State.FlagEvent.of_step (ht : Machine.step s = .next t) : s.FlagEvent t := by
  rcases step_cases s with ⟨hs, he⟩ | ⟨a, rest, hs, he⟩ <;> rw [he] at ht
  · exact .of_engineTurn (.inl hs) ht
  · exact .of_perform hs ht

end

end Sys2Proof.Machine

open Sys2Proof Sys2Proof.Machine

/-- Settles O29: of the flag events only a START raises BUSY, only a completion raises DONE or ERR, and the invariant
leaves a completion no ERR to clear. -/
theorem flagTransitions : Obligations.FlagTransitions := by
  intro s t ht
  cases State.FlagEvent.of_step ht with
  | kept busy done err => simp +contextual [busy, done, err]
  | completed next running busy done err =>
    have hnoErr (h : s.Inv) : s.err = false := (h.running running).2.1
    simp +contextual [busy, done, err, running, next, hnoErr]
  | started next busy done err => simp [busy, done, err, next]
  | acknowledged w next busy done err => simp +contextual [busy, done, err, next]
  | reset next busy done err => simp [busy, done, err, next]
end

section
/-!
SUPPORT. What a completed command leaves unchanged (20_memory.md R40, 40_command.md R104).
-/

namespace Sys2Proof.Machine

theorem State.SameMemoryOutside.mono {s t : State} {a n m : Nat} (h : s.SameMemoryOutside t a n) (hnm : n ≤ m) :
    s.SameMemoryOutside t a m :=
  fun x hx => h x (by omega)

/-- The errors that leave all of buffer memory are those of the first three codes (R204). -/
theorem leavesMemory_iff_errorByte (e : ErrCode) :
    leavesMemory e = true ↔ errorByte e = 0x01 ∨ errorByte e = 0x02 ∨ errorByte e = 0x03 := by
  cases e <;> decide

/-- A success writes the output and no other byte of memory (R104). -/
theorem State.complete_ok_sameMemoryOutside (s : State) (o : Output) :
    s.SameMemoryOutside (s.complete (.ok o)) s.dst.start o.out.length :=
  fun _ hx => Memory.read_writeBytes_outside hx

/-- An output that fits the destination has its length in RESULT_LEN (R9, R28). -/
theorem State.complete_ok_resultLen {s : State} {o : Output} (h : o.out.length ≤ s.dst.len) :
    (s.complete (.ok o)).resultLen.toNat = o.out.length := by
  have hfits : o.out.length < 2 ^ 32 := h.trans_lt s.dstCap.isLt
  exact (BitVec.toNat_ofNat ..).trans (Nat.mod_eq_of_lt hfits)

end Sys2Proof.Machine

open Sys2Proof Sys2Proof.Machine

/-- Settles O8: a success writes an output that fits, an error at most the destination buffer. -/
theorem commandFrame : Obligations.CommandFrame := by
  intro i s t ht
  obtain rfl := exec_eq_next.1 ht
  refine ⟨s.complete_sameOperands _, ?_⟩
  cases hrun : s.run (usesTree i) (commandFunction i) with
  | ok o =>
    obtain ⟨-, -, hfits⟩ := State.run_eq_ok.1 hrun
    have hout := s.complete_ok_sameMemoryOutside o
    have hcode : (s.complete (.ok o)).errCode = 0 := rfl
    refine ⟨hout.mono hfits, fun _ => ?_, fun hearly => ?_⟩
    · rw [State.complete_ok_resultLen hfits]
      exact ⟨hfits, hout⟩
    · rw [hcode] at hearly
      exact absurd hearly (by decide)
  | error e =>
    obtain ⟨-, -, -, hcode, -, -, -, hearly, hout, -⟩ := s.complete_error e
    rw [hcode]
    exact ⟨hout, fun hnone => absurd hnone (errorByte_ne_zero e),
      fun hfirst => hearly ((leavesMemory_iff_errorByte e).2 hfirst)⟩
end

section
/-!
SUPPORT. The word that selects a command (30_encoding.md R70, R71).
-/

namespace Sys2Proof

theorem joinCommand_splitCommand (w : Word) : joinCommand (splitCommand w) = w :=
  BitVec.extractLsb'_append_extractLsb' (w := 24) (len := 8)

/-- The opcode map gives a command only for its own OPCODE (R71). -/
theorem opcodeOf_of_lookup {op : BitVec 8} {i : Instr} (h : opcodeMap.lookup op = some i) : op = opcodeOf i := by
  obtain ⟨_, _, hmap, -⟩ := List.lookup_eq_some_iff.1 h
  have hmem : (op, i) ∈ opcodeMap := by simp [hmap]
  have hall : ∀ p ∈ opcodeMap, p.1 = opcodeOf p.2 := by decide
  exact hall _ hmem

theorem decode_encode (i : Instr) : decode (encode i) = .ok i := by cases i <;> decide

/-- A word selects a command exactly if it is the command's word (R71). -/
theorem decode_eq_ok {w : Word} {i : Instr} : decode w = .ok i ↔ w = encode i := by
  refine ⟨fun h => ?_, fun h => h ▸ decode_encode i⟩
  rw [decode] at h
  split at h
  · next hreserved =>
    split at h
    · next hlookup =>
      cases h
      rw [encode, ← opcodeOf_of_lookup hlookup, ← hreserved]
      exact (joinCommand_splitCommand w).symm
    · cases h
  · cases h

end Sys2Proof
end

section
/-!
SUPPORT. Buffer memory beside a running command and between commands: the locked buffers, the memory accesses, and what
the moves on an idle block keep (20_memory.md R38, R45, R51; 70_reset_and_hazards.md R222, R223).
-/

namespace Sys2Proof.Machine

/-! ### The locked buffers -/

/-- The words of the two commands that use the tree buffer (R26, R71). -/
theorem State.cmdUsesTree_iff {s : State} : s.cmdUsesTree = true ↔ s.cmd = 0x13 ∨ s.cmd = 0x14 := by
  rw [State.cmdUsesTree]
  split
  · next i hd =>
    rw [decode_eq_ok.1 hd]
    cases i <;> decide
  · next e hd =>
    refine ⟨nofun, fun hword => ?_⟩
    rcases hword with hword | hword <;> rw [hword] at hd <;> cases hd

/-! ### The engine's turn and the memory accesses -/

theorem step_unscheduled {s : State} (h : s.schedule = []) : step s = engineTurn s := by
  rw [step, moveNext, h]

section
variable {s : State} {a : Word} {b : Byte}

/-- A write of a locked byte is a fault (R222). -/
theorem hostMemWrite_locked (ha : a.toNat < s.platform.memSize) (h : s.Locked a.toNat) :
    hostMemWrite a b s = .fault (.lockedBufferWrite a) := by
  rw [hostMemWrite, if_neg (not_le.2 ha), if_pos h]

/-- A write of a byte that is not locked changes that byte (R223). -/
theorem hostMemWrite_unlocked (ha : a.toNat < s.platform.memSize) (h : ¬ s.Locked a.toNat) :
    hostMemWrite a b s = .next { s with mem := s.mem.writeBytes a.toNat [b] } := by
  rw [hostMemWrite, if_neg (not_le.2 ha), if_neg h]

/-- A read of a destination byte while BUSY is a draw (R222). -/
theorem hostMemRead_draw (ha : a.toNat < s.platform.memSize) (hbusy : s.busy = true) (hdst : s.dst.Contains a.toNat) :
    hostMemRead a s =
      .next { s with readback := .byte a (Config.freeByte s.drawCount), drawCount := s.drawCount + 1 } := by
  rw [hostMemRead, if_neg (not_le.2 ha), if_pos ⟨hbusy, hdst⟩]

/-- Any other read of memory returns the content (R45). -/
theorem hostMemRead_content (ha : a.toNat < s.platform.memSize) (h : ¬ (s.busy = true ∧ s.dst.Contains a.toNat)) :
    hostMemRead a s = .next { s with readback := .byte a (s.mem.read a.toNat) } := by
  rw [hostMemRead, if_neg (not_le.2 ha), if_neg h]

end

/-! ### What the moves on an idle block keep -/

/-- What the host finds after a completion, the results and buffer memory, is the same (R51). -/
abbrev State.SameOutcome (s t : State) : Prop := s.SameResults t ∧ t.mem = s.mem

theorem State.hostSaw_sameOutcome (s : State) (k : Nat) (w : Word) : s.SameOutcome (s.hostSaw k w) :=
  ⟨⟨rfl, rfl, rfl, rfl, rfl⟩, rfl⟩

theorem pollStatus_sameOutcome (s : State) : s.SameOutcome (pollStatus s) := by
  rw [pollStatus]
  split
  · exact s.hostSaw_sameOutcome _ _
  · exact State.hostSaw_sameOutcome { s with schedule := .engine :: .wait :: s.schedule } _ _

/-- The result registers are read-only, so of the register writes only a START touches them (R28 to R30, R100). -/
theorem State.writeReg_sameOutcome (s : State) {w : Word} {r : Reg} (h : r = .ctrl → ¬ w.getLsbD 0 = true) :
    s.SameOutcome (s.writeReg w r) := by
  cases r with
  | ctrl =>
    rw [writeReg, writeCtrl_enable _ (h rfl)]
    exact ⟨⟨rfl, rfl, rfl, rfl, rfl⟩, rfl⟩
  | _ => exact ⟨⟨rfl, rfl, rfl, rfl, rfl⟩, rfl⟩

theorem State.writeWindow_sameOutcome (s : State) {k : Nat} {w : Word} (h : ¬ (k = 0x00 ∧ w.getLsbD 0 = true)) :
    s.SameOutcome (s.writeWindow k w) := by
  rcases s.writeWindow_cases k w with hlost | ⟨-, r, rfl, hwrite⟩
  · rw [hlost]
    exact ⟨⟨rfl, rfl, rfl, rfl, rfl⟩, rfl⟩
  · rw [hwrite]
    exact s.writeReg_sameOutcome fun hctrl hstart => h ⟨by rw [hctrl]; rfl, hstart⟩

theorem engineTurn_sameOutcome {s t : State} (hidle : s.busy = false) (ht : engineTurn s = .next t) :
    s.SameOutcome t := by
  rw [engineTurn_idle hidle] at ht
  cases ht
  exact ⟨⟨rfl, rfl, rfl, rfl, rfl⟩, rfl⟩

theorem hostMemRead_sameOutcome {a : Word} {s t : State} (h : hostMemRead a s = .next t) : s.SameOutcome t := by
  rcases hostMemRead_cases h with ⟨-, ⟨-, -, rfl⟩ | ⟨-, rfl⟩⟩
  · exact ⟨⟨rfl, rfl, rfl, rfl, rfl⟩, rfl⟩
  · exact ⟨⟨rfl, rfl, rfl, rfl, rfl⟩, rfl⟩

/-- While BUSY = 0, a move that is neither a START nor the reset input keeps the results, and memory unless it is a
memory write (R51). -/
theorem perform_idle_cases {a : Action} {s t : State} (hidle : s.busy = false) (ht : perform a s = .next t)
    (hstart : ∀ acc w, a = .regWrite acc w → ¬ (acc.offset s.platform = 0x00 ∧ w.getLsbD 0 = true))
    (hreset : a ≠ .reset) :
    s.SameOutcome t ∨ (s.SameResults t ∧ ∃ x b, a = .memWrite x b) := by
  rcases perform_cases ht with ⟨-, ht⟩ | ⟨rfl, -⟩ | ⟨acc, -, ht⟩ | ⟨acc, w, rfl, ht⟩ | ⟨x, -, ht⟩ | ⟨x, b, rfl, ht⟩ |
    ⟨-, rfl⟩
  · exact .inl (engineTurn_sameOutcome hidle ht)
  · exact absurd rfl hreset
  · obtain ⟨-, rfl⟩ := hostRegRead_cases ht
    exact .inl (s.hostSaw_sameOutcome _ _)
  · obtain ⟨-, rfl⟩ := hostRegWrite_cases ht
    exact .inl (s.writeWindow_sameOutcome (hstart acc w rfl))
  · exact .inl (hostMemRead_sameOutcome ht)
  · obtain ⟨-, -, rfl⟩ := hostMemWrite_cases ht
    exact .inr ⟨⟨rfl, rfl, rfl, rfl, rfl⟩, x, b, rfl⟩
  · exact .inl (pollStatus_sameOutcome s)

end Sys2Proof.Machine

open Sys2Proof Sys2Proof.Machine

/-- Settles O22: the locked bytes are those of the buffers that the word in CMD makes the running command's. -/
theorem memoryWriteFaultsExactlyWhereLocked : Obligations.MemoryWriteFaultsExactlyWhereLocked := by
  intro s a b rest hs ha
  rw [step_scheduled hs, ← State.cmdUsesTree_iff]
  refine ⟨fun hbusy hbuffer => hostMemWrite_locked ha ⟨hbusy, hbuffer⟩, fun hfree => ?_⟩
  have hunlocked : ¬ s.Locked a.toNat := by
    rintro ⟨hbusy, hbuffer⟩
    rcases hfree with hidle | ⟨hsrc, hdst, htree⟩
    · exact absurd hbusy (by simp [hidle])
    · exact hbuffer.elim hsrc (·.elim hdst htree)
  have hread : (s.mem.writeBytes a.toNat [b]).read a.toNat = b :=
    Memory.read_writeBytes_inside (i := 0) (bytes := [b]) Nat.one_pos
  exact ⟨_, hostMemWrite_unlocked ha hunlocked, hread, fun x hx => Memory.read_writeBytes_outside hx, rfl⟩

/-- Settles O28: with BUSY = 0 the engine's turn changes nothing, and no other agent's move touches the results. -/
theorem resultsStableUntilNextStart : Obligations.ResultsStableUntilNextStart := by
  intro s t hidle ht hstart hreset
  rcases step_cases s with ⟨-, he⟩ | ⟨a, rest, hs, he⟩ <;> rw [he] at ht
  · obtain ⟨hresults, hmem⟩ := engineTurn_sameOutcome hidle ht
    exact ⟨hresults, fun _ => hmem⟩
  · have hhead : s.schedule.head? = some a := by rw [hs, List.head?_cons]
    rcases perform_idle_cases (s := { s with schedule := rest }) hidle ht
      (fun acc w hwrite => hstart acc w rest (hwrite ▸ hs)) (fun ha => hreset (ha ▸ hhead)) with
      ⟨hresults, hmem⟩ | ⟨hresults, x, b, rfl⟩
    · exact ⟨hresults, fun _ => hmem⟩
    · exact ⟨hresults, fun hother => absurd hhead (hother x b)⟩

/-- Settles O4: the step is the engine's turn, which runs the command that CMD selects. -/
theorem stepRunsDecodedCommand : Obligations.StepRunsDecodedCommand := by
  intro s i hbusy hd _
  refine ⟨fun hs => ?_, fun rest hs => ?_⟩
  · rw [step_unscheduled hs]
    exact engineTurn_command hbusy hd
  · rw [step_scheduled hs, perform]
    exact engineTurn_command hbusy hd

/-- Settles O23: the two clauses are the two answers to a host read of memory. -/
theorem memoryReadReturnsContent : Obligations.MemoryReadReturnsContent := by
  intro s a rest hs ha
  rw [step_scheduled hs]
  refine ⟨fun hplain => hostMemRead_content ha ?_, fun hbusy hdst => ⟨_, hostMemRead_draw ha hbusy hdst⟩⟩
  rintro ⟨hbusy, hdst⟩
  exact hplain.elim (fun hidle => absurd hbusy (by simp [hidle])) (absurd hdst)
end

section
/-!
SUPPORT. The engine's turn on a word that selects no command (30_encoding.md R72), and `WAIT` with the engine's step
pending (30_encoding.md R85, 70_reset_and_hazards.md R225).
-/

namespace Sys2Proof

/-- A word that is no command's word selects none (R72). -/
theorem decode_eq_error {w : Word} (h : ∀ i : Instr, w ≠ encode i) : ∃ e, decode w = .error e := by
  cases hd : decode w with
  | ok i => exact absurd (decode_eq_ok.1 hd) (h i)
  | error e => exact ⟨e, rfl⟩

end Sys2Proof

namespace Sys2Proof.Machine

/-- The engine's turn comes when it is scheduled, and when nothing is (R101, R225). -/
theorem step_engineTurn {s : State} {rest : List Action}
    (h : s.schedule = .engine :: rest ∨ (s.schedule = [] ∧ rest = [])) :
    step s = engineTurn { s with schedule := rest } := by
  rcases h with hs | ⟨hs, rfl⟩
  · exact step_scheduled hs
  · rw [step_unscheduled hs]
    obtain ⟨⟩ := s
    cases hs
    rfl

/-- A run of one more step takes it from the state that the run has reached. -/
theorem core_run_succ (M : Host.Core) {s t u : M.State} {k : Nat} (hrun : M.run k s = .next t)
    (hstep : M.step t = .next u) : M.run (k + 1) s = .next u := by
  induction k generalizing s with
  | zero =>
    cases hrun
    simp only [Host.Core.run, hstep]
  | succ k ih =>
    rw [Host.Core.run] at hrun ⊢
    cases hfirst : M.step s with
    | next s' => rw [hfirst] at hrun; exact ih hrun
    | fault r => rw [hfirst] at hrun; cases hrun
    | refused r => rw [hfirst] at hrun; cases hrun

/-! ### The outcome of a running word -/

/-- What the word in CMD comes to on the operands of a state: the outcome of its command, or E_BAD_CMD (R72, R102). -/
def State.outcome (s : State) : Result :=
  match decode s.cmd with
  | .ok i => s.run (usesTree i) (commandFunction i)
  | .error _ => .error .badCmd

/-- While BUSY the engine's turn completes with the outcome of the word in CMD (R101). -/
theorem engineTurn_running {s : State} (h : s.busy = true) : engineTurn s = .next (s.complete s.outcome) := by
  rw [State.outcome]
  cases hd : decode s.cmd with
  | ok i => rw [engineTurn_command h hd, exec_eq]
  | error e => exact engineTurn_bad h hd

theorem State.outcome_command {s : State} {i : Instr} (h : decode s.cmd = .ok i) :
    s.outcome = s.run (usesTree i) (commandFunction i) := by
  rw [outcome, h]

@[simp] theorem State.hostSaw_outcome (s : State) (k : Nat) (w : Word) : (s.hostSaw k w).outcome = s.outcome := rfl

/-- What the host has read and the schedule are no part of a completion (R101). -/
theorem State.complete_hostSaw (s : State) (k : Nat) (w : Word) (r : Result) :
    (s.hostSaw k w).complete r = (s.complete r).hostSaw k w := by
  cases r with
  | ok o => rfl
  | error e => simp only [complete, commit, commitErr]; split <;> rfl

theorem State.complete_schedule (s : State) (l : List Action) (r : Result) :
    ({ s with schedule := l } : State).complete r = { s.complete r with schedule := l } := by
  cases r with
  | ok o => rfl
  | error e => simp only [complete, commit, commitErr]; split <;> rfl

theorem State.observe_schedule (s : State) (l : List Action) :
    ({ s with schedule := l } : State).observe = s.observe := rfl

/-! ### `WAIT` -/

section
variable {s : State} {rest : List Action}

/-- A poll that reads DONE = 1 ends `WAIT` (R85). -/
theorem step_wait_done (hdone : s.done = true) (hs : s.schedule = .wait :: rest) :
    step s = .next (({ s with schedule := rest } : State).hostSaw (regOffset .status) s.statusWord) := by
  rw [step_scheduled hs, perform, pollStatus, if_pos (by exact hdone)]
  rfl

/-- After a poll that reads DONE = 0 come the engine's turn and another poll (R85, R225). -/
theorem step_wait_pending (hdone : s.done = false) (hs : s.schedule = .wait :: rest) :
    step s = .next
      (({ s with schedule := .engine :: .wait :: rest } : State).hostSaw (regOffset .status) s.statusWord) := by
  rw [step_scheduled hs, perform, pollStatus, if_neg (by simpa using hdone)]
  rfl

/-- A state in `WAIT` after a first poll that reads DONE = 0, with the moves `l` to come. -/
def State.polled (s : State) (l : List Action) : State :=
  ({ s with schedule := l } : State).hostSaw (regOffset .status) s.statusWord

theorem State.polled_seenDone (hdone : s.done = false) (l : List Action) : (s.polled l).seenDone = s.seenDone := by
  rw [polled, hostSaw_seenDone, s.statusWord_done, hdone, Bool.and_false, Bool.or_false]

theorem State.complete_polled (s : State) (l : List Action) (r : Result) :
    (s.polled l).complete r =
      ({ s.complete r with schedule := l } : State).hostSaw (regOffset .status) s.statusWord := by
  rw [polled, complete_hostSaw, complete_schedule]

/-- The first poll of `WAIT` (R85). -/
theorem run_wait_poll (hdone : s.done = false) (hs : s.schedule = .wait :: rest) :
    Sys2Proof.core.run 1 s = .next (s.polled (.engine :: .wait :: rest)) :=
  core_run_succ core (k := 0) rfl (step_wait_pending hdone hs)

/-- The first poll of `WAIT` and the engine's step complete the running command (R85, R101, R225). -/
theorem run_wait_engine (hbusy : s.busy = true) (hdone : s.done = false) (hs : s.schedule = .wait :: rest) :
    Sys2Proof.core.run 2 s = .next ((s.polled (.wait :: rest)).complete s.outcome) :=
  core_run_succ core (run_wait_poll hdone hs)
    ((step_engineTurn (s := s.polled (.engine :: .wait :: rest)) (.inl rfl)).trans (engineTurn_running hbusy))

/-- The second poll of `WAIT` reads DONE = 1 (R85). -/
theorem run_wait_end (hbusy : s.busy = true) (hdone : s.done = false) (hs : s.schedule = .wait :: rest) :
    Sys2Proof.core.run 3 s = .next
      (({ (s.polled (.wait :: rest)).complete s.outcome with schedule := rest } : State).hostSaw (regOffset .status)
        ((s.polled (.wait :: rest)).complete s.outcome).statusWord) :=
  core_run_succ core (run_wait_engine hbusy hdone hs) (step_wait_done rfl (by rw [State.complete_polled]; rfl))

end

end Sys2Proof.Machine

open Sys2Proof Sys2Proof.Machine

/-- Settles O1, by the encoding law of the codec. -/
theorem encodedCommandDecodes : Obligations.EncodedCommandDecodes :=
  fun i _ => decode_encode i

/-- Settles O2: the words of the map are the commands' own words. -/
theorem wordSelectsCommandIffInMap : Obligations.WordSelectsCommandIffInMap := by
  intro w i
  rw [decode_eq_ok]
  constructor
  · rintro rfl
    cases i <;> decide
  · have hmap : ∀ p ∈ opcodeMap.map fun x => (joinCommand ⟨0, x.1⟩, x.2), p.1 = encode p.2 := by decide
    exact hmap (w, i)

/-- Settles O3, by the decoding of each word. -/
theorem mapWordsDecodeByFamily : Obligations.MapWordsDecodeByFamily :=
  ⟨decode_rleEnc, decode_hufUnpack, decode_hufDec, decode_lzwDec, by decide, by decide⟩

/-- Settles O6: the engine's turn is the completion with E_BAD_CMD, which keeps memory. -/
theorem illegalWordCompletesWithBadCmd : Obligations.IllegalWordCompletesWithBadCmd := by
  intro s rest hbusy hword hs
  obtain ⟨e, hd⟩ := decode_eq_error hword
  have hstep (m : Memory) : step { s with mem := m } =
      .next (({ s with mem := m, schedule := rest } : State).complete (.error .badCmd)) :=
    (step_engineTurn (s := { s with mem := m }) hs).trans (engineTurn_bad hbusy hd)
  exact ⟨_, hstep s.mem, State.complete_error _ _, rfl, rfl, rfl, hstep⟩

/-- Settles O21: the poll, the engine's step and the poll that reads DONE = 1. -/
theorem waitEndsAfterEngineStep : Obligations.WaitEndsAfterEngineStep := by
  intro s rest hbusy hdone hs
  refine ⟨_, _, run_wait_end hbusy hdone hs, rfl, rfl, rfl, rfl, State.statusWord_done _, ?_⟩
  rw [State.hostSaw_seenDone, State.statusWord_done]
  simp
end

section
/-!
SUPPORT. The end of a run (70_reset_and_hazards.md R227): which moves record that the host has observed a completion.
-/

namespace Sys2Proof.Machine

@[simp] theorem State.complete_seenDone (s : State) (r : Result) : (s.complete r).seenDone = s.seenDone := by
  obtain ⟨-, -, -, -, -, -, -, -, -, -, -, -, -, hseen⟩ := s.complete_sameOperands r
  exact hseen

/-- A step leaves the record of the host's observation, takes it back, or is a read of STATUS while DONE is 1 (R227). -/
inductive State.ObservationEvent (s t : State) : Prop where
  | kept (seen : t.seenDone = s.seenDone)
  | takenBack (seen : t.seenDone = false)
  | observed (done : s.done = true) (read : t.readback = .register (regOffset .status) s.statusWord)

/-- Only a read of STATUS with DONE = 1 is an observation (R21, R227). -/
theorem State.ObservationEvent.of_hostSaw {s u : State} {k : Nat} {w : Word} (hseen : u.seenDone = s.seenDone)
    (hw : k = regOffset .status → w = s.statusWord) : s.ObservationEvent (u.hostSaw k w) := by
  by_cases hobserved : k = regOffset .status ∧ s.done = true
  · obtain ⟨rfl, hdone⟩ := hobserved
    exact .observed hdone (by rw [State.hostSaw_readback, hw rfl])
  · refine .kept ?_
    have hnot : (decide (k = regOffset .status) && w.getLsbD 1) = false := by
      by_cases hk : k = regOffset .status
      · rw [hw hk, s.statusWord_done, Bool.eq_false_iff.2 fun hdone => hobserved ⟨hk, hdone⟩, Bool.and_false]
      · rw [decide_eq_false hk, Bool.false_and]
    rw [State.hostSaw_seenDone, hseen, hnot, Bool.or_false]

theorem State.ObservationEvent.of_engineTurn {s t : State} (ht : engineTurn s = .next t) : s.ObservationEvent t := by
  rcases engineTurn_cases ht with ⟨-, rfl⟩ | ⟨-, i, -, rfl⟩ | ⟨-, -, rfl⟩
  · exact .kept rfl
  · exact .kept (s.complete_seenDone _)
  · exact .kept (s.complete_seenDone _)

/-- Of the register writes only a START touches the record (R100, R227). -/
theorem State.ObservationEvent.of_writeWindow (s : State) (k : Nat) (w : Word) :
    s.ObservationEvent (s.writeWindow k w) := by
  rcases s.writeWindow_cases k w with hlost | ⟨-, r, rfl, hwrite⟩
  · rw [hlost]; exact .kept rfl
  · rw [hwrite]
    by_cases hctrl : r = .ctrl
    · subst hctrl
      rw [State.writeReg]
      by_cases hstart : w.getLsbD 0 = true
      · rw [State.writeCtrl_start _ hstart]; exact .takenBack rfl
      · rw [State.writeCtrl_enable _ hstart]; exact .kept rfl
    · obtain ⟨-, -, -, -, -, hseen, -⟩ := s.writeReg_frame w hctrl
      exact .kept hseen

theorem State.ObservationEvent.of_perform {a : Action} {s t : State} (ht : perform a s = .next t) :
    s.ObservationEvent t := by
  rcases perform_cases ht with ⟨-, ht⟩ | ⟨-, rfl⟩ | ⟨b, -, ht⟩ | ⟨b, w, -, ht⟩ | ⟨x, -, ht⟩ | ⟨x, b, -, ht⟩ | ⟨-, rfl⟩
  · exact .of_engineTurn ht
  · rw [State.applyReset]
    split
    · exact .kept rfl
    · exact .kept rfl
  · obtain ⟨-, rfl⟩ := hostRegRead_cases ht
    exact .of_hostSaw rfl fun hk => by rw [hk]; exact s.windowValue_regOffset .status
  · obtain ⟨-, rfl⟩ := hostRegWrite_cases ht
    exact .of_writeWindow s _ w
  · rcases hostMemRead_cases ht with ⟨-, ⟨-, -, rfl⟩ | ⟨-, rfl⟩⟩
    · exact .kept rfl
    · exact .kept rfl
  · obtain ⟨-, -, rfl⟩ := hostMemWrite_cases ht
    exact .kept rfl
  · rw [pollStatus]
    split
    · exact .of_hostSaw rfl fun _ => rfl
    · exact .of_hostSaw (u := { s with schedule := .engine :: .wait :: s.schedule }) rfl fun _ => rfl

theorem State.ObservationEvent.of_step {s t : State} (ht : step s = .next t) : s.ObservationEvent t := by
  rcases step_cases s with ⟨-, he⟩ | ⟨a, rest, -, he⟩ <;> rw [he] at ht
  · exact .of_engineTurn ht
  · cases State.ObservationEvent.of_perform ht with
    | kept seen => exact .kept seen
    | takenBack seen => exact .takenBack seen
    | observed done read => exact .observed done read

/-- A run in which `WAIT` has not yet seen the completion has not ended (R227). -/
theorem not_runEnded {s : State} (h : s.seenDone = false) : ¬ s.RunEnded :=
  fun ⟨hseen, _⟩ => Bool.false_ne_true (h.symm.trans hseen)

/-- Reading STATUS with DONE = 1 ends a run in which no START follows (R227). -/
theorem runEnded_hostSaw_status {s : State} {w : Word} (hw : w.getLsbD 1 = true)
    (hrest : ∀ a ∈ s.schedule, a.isStart s.platform = false) : (s.hostSaw (regOffset .status) w).RunEnded := by
  refine ⟨?_, hrest⟩
  rw [State.hostSaw_seenDone, hw]
  simp

/-- `WAIT` with a command running and no START to follow: the run ends with what the command leaves (R85, R227). -/
theorem runEndsWith_wait {s : State} {rest : List Action} (hbusy : s.busy = true) (hdone : s.done = false)
    (hseen : s.seenDone = false) (hs : s.schedule = .wait :: rest)
    (hrest : ∀ a ∈ rest, a.isStart s.platform = false) : s.RunEndsWith (s.complete s.outcome).observe := by
  have hpolled (l : List Action) : (s.polled l).seenDone = false := (State.polled_seenDone hdone l).trans hseen
  refine ⟨3, _, run_wait_end hbusy hdone hs, runEnded_hostSaw_status (State.statusWord_done _) fun a ha => ?_, ?_,
    fun j hj u hu => ?_⟩
  · have hplatform := (s.polled (.wait :: rest)).complete_platform s.outcome
    exact (congrArg a.isStart hplatform).trans (hrest a ha)
  · rw [State.hostSaw_observe, State.observe_schedule, State.complete_polled, State.hostSaw_observe,
      State.observe_schedule]
  · match j, hj with
    | 0, _ => cases hu; exact not_runEnded hseen
    | 1, _ => cases (run_wait_poll hdone hs).symm.trans hu; exact not_runEnded (hpolled _)
    | 2, _ =>
      cases (run_wait_engine hbusy hdone hs).symm.trans hu
      exact not_runEnded ((State.complete_seenDone _ _).trans (hpolled _))

end Sys2Proof.Machine

open Sys2Proof Sys2Proof.Machine

/-- Settles O60: a read of STATUS with DONE = 1 is the only move that records an observation, a START takes it back, and
`WAIT` makes one such read after the engine's step. -/
theorem runEndsAtObservedCompletion : Obligations.RunEndsAtObservedCompletion := by
  refine ⟨fun s t ht hunseen hseen => ?_, fun s t ht hstart => ?_, fun s acc rest hdone hs hwf hr hrest => ?_,
    fun s t i rest hbusy hdone hseen hd hs hrest ht => ?_⟩
  · cases State.ObservationEvent.of_step ht with
    | kept seen => rw [seen, hunseen] at hseen; cases hseen
    | takenBack seen => rw [seen] at hseen; cases hseen
    | observed done read => exact ⟨done, read⟩
  · obtain ⟨hidle, acc, w, rest, hs, hwf, hr, hbit⟩ := hstart
    rw [step_regWrite_idle (r := .ctrl) hidle hs hwf hr, State.writeReg, State.writeCtrl_start _ hbit] at ht
    cases ht
    exact ⟨rfl, not_runEnded rfl⟩
  · have hstatus : (s.windowValue (acc.offset s.platform)).getLsbD 1 = true := by
      rw [hr]
      exact s.statusWord_done.trans hdone
    refine ⟨_, step_regRead hs hwf, ?_, ?_⟩
    · rw [hr] at hstatus ⊢
      exact runEnded_hostSaw_status hstatus hrest
    · rw [State.hostSaw_observe, State.observe_schedule]
  · rw [exec_eq_next.1 ht, ← State.outcome_command hd]
    exact runEndsWith_wait hbusy hdone hseen hs hrest
end

section
/-!
SUPPORT. What the checking deserializer accepts (43_tree_serializer.md R162, R170).
-/

namespace Sys2Proof.Machine

/-- Reading one tree takes the deserializer from `d` to `d'`: the bytes read are the tree's, its symbols are distinct
and new, and they are what is seen in addition (R162). -/
structure DeserState.ReadsTree (d : DeserState) (t : Tree) (d' : DeserState) : Prop where
  bytes : d.rest = ser t ++ d'.rest
  distinct : (treeSymbols t).Nodup
  fresh : ∀ x ∈ treeSymbols t, x ∉ d.seen
  seen : ∀ x, x ∈ d'.seen ↔ x ∈ treeSymbols t ∨ x ∈ d.seen

theorem DeserState.ReadsTree.leaf {d : DeserState} {s : Byte} {rest : List Byte} (hrest : d.rest = 0x01 :: s :: rest)
    (hs : s ∉ d.seen) : d.ReadsTree (.leaf s) { d with rest := rest, seen := s :: d.seen } where
  bytes := hrest
  distinct := List.nodup_singleton s
  fresh := fun x hx => by rwa [List.mem_singleton.1 hx]
  seen := fun x => by simp [treeSymbols]

/-- After an internal marker come two trees, and the second one's symbols are new to the first one. -/
theorem DeserState.ReadsTree.node {d dl dr : DeserState} {n : Nat} {rest : List Byte} {l r : Tree}
    (hrest : d.rest = 0x02 :: rest) (hl : ({ d with rest := rest, internals := n } : DeserState).ReadsTree l dl)
    (hr : dl.ReadsTree r dr) : d.ReadsTree (.node l r) dr where
  bytes := by
    have hbytes : rest = ser l ++ dl.rest := hl.bytes
    rw [hrest, hbytes, hr.bytes, ser, List.cons_append, List.append_assoc]
  distinct := List.nodup_append.2 ⟨hl.distinct, hr.distinct, fun x hx y hy hxy =>
    hr.fresh y hy ((hl.seen y).2 (.inl (hxy ▸ hx)))⟩
  fresh := fun x hx => (List.mem_append.1 hx).elim (hl.fresh x) fun hxr hxd =>
    hr.fresh x hxr ((hl.seen x).2 (.inr hxd))
  seen := fun x => by
    have hseen : x ∈ dl.seen ↔ x ∈ treeSymbols l ∨ x ∈ d.seen := hl.seen x
    rw [hr.seen, hseen, treeSymbols, List.mem_append]
    tauto

/-- `Node()` answers only where it has read a tree (R162). -/
theorem deserNode_readsTree {fuel : Nat} {d d' : DeserState} {t : Tree} (h : deserNode fuel d = .ok (t, d')) :
    d.ReadsTree t d' := by
  induction fuel generalizing d d' t with
  | zero => cases h
  | succ fuel ih =>
    rw [deserNode] at h
    split at h
    · cases h
    · next m rest hrest =>
      by_cases hleaf : m = 0x01
      · rw [if_pos hleaf] at h
        subst hleaf
        split at h
        · cases h
        · next s rest =>
          split at h
          · cases h
          · next hs => cases h; exact .leaf hrest hs
      · rw [if_neg hleaf] at h
        by_cases hnode : m = 0x02
        · rw [if_pos hnode] at h
          subst hnode
          split at h
          · cases h
          · split at h
            · cases h
            · next l dl hl =>
              split at h
              · cases h
              · next r dr hr => cases h; exact .node hrest (ih hl) (ih hr)
        · rw [if_neg hnode] at h
          split at h <;> cases h

/-- An accepted string is the serialization of a tree with distinct symbols (R170). -/
theorem deser_sound {T : List Byte} {t : Tree} (h : deser T = .ok t) : ser t = T ∧ (treeSymbols t).Nodup := by
  rw [deser] at h
  split at h
  · cases h
  · next t' d hnode =>
    split at h
    · next hend =>
      cases h
      have hread := deserNode_readsTree hnode
      refine ⟨?_, hread.distinct⟩
      have hbytes : T = ser t ++ d.rest := hread.bytes
      rw [hbytes, hend, List.append_nil]
    · cases h

/-- A loaded tree has distinct symbols (R170, R171). -/
theorem loadTree_nodup {T : List Byte} {t : Tree} (h : loadTree T = .ok (some t)) : (treeSymbols t).Nodup := by
  cases T with
  | nil => cases h
  | cons b bs =>
    rw [loadTree] at h
    split at h
    · cases h
    · next hd => cases h; exact (deser_sound hd).2

end Sys2Proof.Machine

open Sys2Proof Sys2Proof.Machine

/-- Settles O42: distinct symbols bound the number of leaves, and so everything else. -/
theorem acceptedTreesAreLegal : Obligations.AcceptedTreesAreLegal := by
  intro T t h
  obtain ⟨hser, hnodup⟩ := deser_sound h
  exact ⟨hser, hnodup, internalCount_le hnodup, leafCount_le hnodup, leafCount_eq t,
    (treeDepth_le t).trans (internalCount_le hnodup)⟩
end

section
/-!
SUPPORT. The layout of packed bits (30_encoding.md R79).
-/

namespace Sys2Proof.Machine

theorem getD_bitsOfByte (p : Byte) {k : Nat} (h : k < 8) : (bitsOfByte p).getD k false = p.getLsbD (7 - k) := by
  simp [bitsOfByte, h]

/-- Bit `i` of the bits of a byte string is bit `7 - (i mod 8)` of byte `i div 8` (R79). -/
theorem getD_flatMap_bitsOfByte (p : List Byte) (i : Nat) :
    (p.flatMap bitsOfByte).getD i false = (p.getD (i / 8) 0).getLsbD (7 - i % 8) := by
  induction p generalizing i with
  | nil => simp
  | cons b p ih =>
    rw [List.flatMap_cons]
    by_cases hi : i < 8
    · rw [List.getD_append _ _ _ _ (by rwa [bitsOfByte_length]), getD_bitsOfByte b hi, Nat.div_eq_of_lt hi,
        Nat.mod_eq_of_lt hi, List.getD_cons_zero]
    · rw [List.getD_append_right _ _ _ _ (by rw [bitsOfByte_length]; omega), bitsOfByte_length, ih,
        show i / 8 = (i - 8) / 8 + 1 by omega, show i % 8 = (i - 8) % 8 by omega, List.getD_cons_succ]

theorem getD_append_zeros (b : Bits) (n i : Nat) : (b ++ List.replicate n false).getD i false = b.getD i false := by
  by_cases hi : i < b.length
  · rw [List.getD_append _ _ _ _ hi]
  · rw [List.getD_append_right _ _ _ _ (by omega), List.getD_eq_getElem?_getD,
      List.getElem?_getD_replicate_default_eq, List.getD_eq_default _ _ (by omega)]

/-- The bits of a packed bit string, padding bits 0 (R79). -/
theorem flatMap_packBits (b : Bits) :
    (packBits b).flatMap bitsOfByte = b ++ List.replicate (8 * ((b.length + 7) / 8) - b.length) false :=
  flatMap_packGroups (by omega)

end Sys2Proof.Machine

open Sys2Proof Sys2Proof.Machine

/-- Settles O45, by the bits of a byte string, which a packed one has in the order of the bit string. -/
theorem packedBitsLayout : Obligations.PackedBitsLayout := by
  refine ⟨fun b => ⟨packBits_length b, fun j k _ hk => ?_, unpackBits_packBits b⟩,
    fun p n i hn => ⟨unpackBits_length hn, fun hi => ?_⟩⟩
  · have hbit := getD_flatMap_bitsOfByte (packBits b) (8 * j + k)
    rw [flatMap_packBits, getD_append_zeros, show (8 * j + k) / 8 = j by omega,
      show (8 * j + k) % 8 = k by omega] at hbit
    exact hbit.symm
  · rw [unpackBits, ← getD_flatMap_bitsOfByte]
    simp [List.getD_eq_getElem?_getD, hi]
end

section
/-!
SUPPORT. Every command's results fit their registers (30_encoding.md R75), so a command with room succeeds; and its
outcome is a function of its operands (30_encoding.md R74, 40_command.md R106).
-/

namespace Sys2Proof.Machine

/-! ### Bounds of the results -/

/-- RESULT_AUX and OUT_BITS can hold the results (R29, R30, R75). -/
def Output.FitsRegisters (o : Output) : Prop := o.aux < 2 ^ 32 ∧ o.bits < 2 ^ 64

theorem Output.fitsRegisters_zero (out : List Byte) : (⟨out, 0, 0⟩ : Output).FitsRegisters :=
  ⟨Nat.two_pow_pos 32, Nat.two_pow_pos 64⟩

theorem distinct_le (S : List Byte) : distinct S ≤ 256 := by
  have h := List.length_filter_le (fun s => decide (0 < freq S s)) allSymbols
  simpa [distinct, allSymbols] using h

/-- The bits of a message that the registers can describe, under a tree with distinct symbols (R9, R138). -/
theorem messageBits_length_lt {t : Tree} {msg : List Byte} (ht : (treeSymbols t).Nodup) (h : AllCoded t msg)
    (hmsg : msg.length < 2 ^ 32) : (messageBits t msg).length < 2 ^ 64 := by
  have hdepth : max 1 (treeDepth t) ≤ 255 := by
    have := internalCount_le ht
    have := treeDepth_le t
    omega
  calc (messageBits t msg).length
      ≤ msg.length * max 1 (treeDepth t) := messageBits_length_le h
    _ ≤ msg.length * 255 := Nat.mul_le_mul_left _ hdepth
    _ < 2 ^ 64 := by omega

/-- A message is encoded only if each of its bytes has a code (R139). -/
theorem allCoded_of_encodeBits {t : Tree} {msg : List Byte} {bits : Bits} (h : encodeBits t msg = some bits) :
    AllCoded t msg := by
  induction msg generalizing bits with
  | nil => exact fun b hb => absurd hb List.not_mem_nil
  | cons b msg ih =>
    rw [encodeBits] at h
    split at h
    · next hb hmsg => exact List.forall_mem_cons.2 ⟨fun hnone => (by rw [hnone] at hb; cases hb), ih hmsg⟩
    · cases h

theorem nextCode_insertPhrase_le {d : Dict} (p : List Byte) (h : nextCode d ≤ 65536) :
    nextCode (insertPhrase d p) ≤ 65536 := by
  have hcap : Config.lzwDictCap = 65536 := rfl
  rw [nextCode_insertPhrase]
  split
  · omega
  · exact h

/-- The encoder's dictionary stays within the cap (R186). -/
theorem nextCode_lzwEncodeFrom_le {d : Dict} (cur bs : List Byte) (h : nextCode d ≤ 65536) :
    nextCode (lzwEncodeFrom d cur bs).2 ≤ 65536 := by
  induction bs generalizing d cur with
  | nil => exact h
  | cons b bs ih =>
    rw [lzwEncodeFrom]
    split
    · exact ih _ h
    · exact ih _ (nextCode_insertPhrase_le _ h)

/-- The decoder's dictionary stays within the cap (R186). -/
theorem nextCode_decoderInsert_le {d : Dict} (prev cur : List Byte) (h : nextCode d ≤ 65536) :
    nextCode (decoderInsert d prev cur) ≤ 65536 := by
  rw [decoderInsert]
  split
  · exact h
  · exact nextCode_insertPhrase_le _ h

theorem nextCode_lzwDecodeFrom_le {d d' : Dict} {prev S out : List Byte} (hd : nextCode d ≤ 65536)
    (h : lzwDecodeFrom d prev S = .ok (out, d')) : nextCode d' ≤ 65536 := by
  induction S using List.twoStepInduction generalizing d prev out with
  | nil => cases h; exact hd
  | singleton x => cases h; exact hd
  | cons_cons lo hi rest ih =>
    rw [lzwDecodeFrom] at h
    split at h
    · cases h
    · split at h
      · cases h
      · next hrest => cases h; exact ih (nextCode_decoderInsert_le _ _ hd) hrest

/-! ### Each command's results -/

section
variable {S : List Byte} {o : Output}

theorem fnHufBuild_fits (h : fnHufBuild S = .ok o) : o.FitsRegisters := by
  rw [fnHufBuild] at h
  split at h
  · cases h; exact Output.fitsRegisters_zero _
  · next t ht =>
    cases h
    have hleaves := leafCount_le (treeSymbols_build_nodup ht)
    exact ⟨by simp only; omega, Nat.two_pow_pos 64⟩

theorem fnHufCodegen_fits (h : fnHufCodegen S = .ok o) : o.FitsRegisters := by
  rw [fnHufCodegen] at h
  split at h
  · cases h
  · cases h; exact Output.fitsRegisters_zero _
  · next t ht =>
    cases h
    have hleaves := leafCount_le (loadTree_nodup ht)
    exact ⟨by simp only; omega, Nat.two_pow_pos 64⟩

theorem fnHufPack_fits {TB : List Byte} (hS : S.length < 2 ^ 32) (h : fnHufPack S TB = .ok o) : o.FitsRegisters := by
  rw [fnHufPack] at h
  split at h
  · cases h
  · next t? ht =>
    split at h
    · cases h; exact Output.fitsRegisters_zero _
    · split at h
      · cases h
      · split at h
        · cases h
        · next bits hbits =>
          cases h
          have hcoded := allCoded_of_encodeBits hbits
          obtain rfl := Option.some.inj ((encodeBits_messageBits hcoded).symm.trans hbits)
          exact ⟨Nat.two_pow_pos 32, messageBits_length_lt (loadTree_nodup ht) hcoded hS⟩

theorem fnHufUnpack_fits {TB : List Byte} {NB : Nat} (h : fnHufUnpack S TB NB = .ok o) : o.FitsRegisters := by
  rw [fnHufUnpack] at h
  split at h
  · cases h
  · cases h; exact Output.fitsRegisters_zero _

theorem fnHufEnc_fits (hS : S.length < 2 ^ 32) (h : fnHufEnc S = .ok o) : o.FitsRegisters := by
  cases hbuild : build S with
  | none => rw [fnHufEnc, hbuild] at h; cases h; exact Output.fitsRegisters_zero _
  | some t =>
    rw [fnHufEnc_build hbuild] at h
    cases h
    have hsize := ser_length_le (treeSymbols_build_nodup hbuild)
    exact ⟨by simp only; omega, messageBits_build_length_lt hbuild hS⟩

/-- The header gives a tree size within the source and a bit count of eight bytes (R177, R178). -/
theorem fnHufDec_fits (hS : S.length < 2 ^ 32) (h : fnHufDec S = .ok o) : o.FitsRegisters := by
  rw [fnHufDec] at h
  split at h
  · cases h; exact Output.fitsRegisters_zero _
  · split at h
    · cases h
    · next hheader =>
      have hw : Config.hufHdrBytes = 8 := rfl
      have hbits := leValue_lt (S.take Config.hufHdrBytes)
      rw [List.length_take_of_le (by omega), hw] at hbits
      dsimp only at h
      split at h
      · cases h
      · next hsize =>
        split at h
        · cases h
        · cases h
          exact ⟨by simp only; omega, by simp only [hw]; omega⟩

theorem fnLzwEnc_fits (h : fnLzwEnc S = .ok o) : o.FitsRegisters := by
  have hnext := nextCode_lzwEncodeFrom_le [] S (d := []) (by decide)
  cases h
  exact ⟨by simp only; omega, Nat.two_pow_pos 64⟩

theorem fnLzwDec_fits (h : fnLzwDec S = .ok o) : o.FitsRegisters := by
  rw [fnLzwDec] at h
  split at h
  · cases h
  · split at h
    · cases h
    · next hdec =>
      cases h
      have hnext := nextCode_lzwDecodeFrom_le (d := []) (by decide) hdec
      exact ⟨by simp only; omega, Nat.two_pow_pos 64⟩

end

/-- The results of every command on a source that SRC_LEN can describe fit their registers (R75). -/
theorem commandFunction_fits {i : Instr} {S TB : List Byte} {NB : Nat} {o : Output} (hS : S.length < 2 ^ 32)
    (h : commandFunction i S TB NB = .ok o) : o.FitsRegisters := by
  cases i with
  | rleEnc => cases h; exact Output.fitsRegisters_zero _
  | rleDec =>
    rw [commandFunction, fnRleDec] at h
    split at h
    · cases h
    · cases h; exact Output.fitsRegisters_zero _
  | hufFreq =>
    cases h
    have hdistinct := distinct_le S
    exact ⟨by simp only; omega, Nat.two_pow_pos 64⟩
  | hufBuild => exact fnHufBuild_fits h
  | hufCodegen => exact fnHufCodegen_fits h
  | hufPack => exact fnHufPack_fits hS h
  | hufUnpack => exact fnHufUnpack_fits h
  | hufEnc => exact fnHufEnc_fits hS h
  | hufDec => exact fnHufDec_fits hS h
  | lzwEnc => exact fnLzwEnc_fits h
  | lzwDec => exact fnLzwDec_fits h

/-! ### The command on the block -/

@[simp] theorem State.srcBytes_length (s : State) : s.srcBytes.length = s.src.len := Memory.readBytes_length _ _ _

theorem State.src_len_lt (s : State) : s.src.len < 2 ^ 32 := s.srcLen.isLt

theorem State.dst_len_lt (s : State) : s.dst.len < 2 ^ 32 := s.dstCap.isLt

/-- A command whose function succeeds with an output that fits completes with it (R102, R104). -/
theorem exec_succeeds {i : Instr} {s : State} {o : Output} (hpass : s.BuffersPass i) (hf : s.functionResult i = .ok o)
    (hfit : o.out.length ≤ s.dst.len) : ∃ t, exec i s = .next t ∧ s.CompletedWith t o := by
  obtain ⟨haux, hbits⟩ := commandFunction_fits (by rw [s.srcBytes_length]; exact s.src_len_lt) hf
  have hrun := State.run_eq_ok.2 ⟨hpass, hf, hfit⟩
  exact ⟨_, exec_eq i s, hrun ▸ s.complete_ok (hfit.trans_lt s.dst_len_lt) haux hbits⟩

/-- A command whose function fails reports the function's error (R102, R103). -/
theorem exec_fails {i : Instr} {s : State} {e : ErrCode} (hpass : s.BuffersPass i)
    (hf : s.functionResult i = .error e) :
    ∃ t, exec i s = .next t ∧ s.FailedWith t e := by
  have hrun : s.run (usesTree i) (commandFunction i) = .error e := by
    rcases s.run_cases i with ⟨hrange, -⟩ | ⟨-, hapart, -⟩ | ⟨-, e', hf', hrun⟩ | ⟨-, o, hf', -⟩ | ⟨-, o, hf', -⟩
    · exact absurd hpass.1 hrange
    · exact absurd hpass.2 hapart
    · rw [hf] at hf'; cases hf'; exact hrun
    · rw [hf] at hf'; cases hf'
    · rw [hf] at hf'; cases hf'
  exact ⟨_, exec_eq i s, hrun ▸ s.complete_error e⟩

/-! ### The operands of an outcome -/

/-- Only HUF_UNPACK reads IN_BITS (R27, R74). -/
theorem commandFunction_inBits {i : Instr} {n m : Nat} (h : i = .hufUnpack → n = m) (S TB : List Byte) :
    commandFunction i S TB n = commandFunction i S TB m := by
  cases i with
  | hufUnpack => rw [h rfl]
  | _ => rfl

/-- States with the same platform, the same places and bytes of a command's buffers and, for HUF_UNPACK, the same
IN_BITS run it alike (R74, R106). -/
theorem State.run_congr {i : Instr} {s t : State} (hplatform : s.platform = t.platform) (hsrc : s.src = t.src)
    (hdst : s.dst = t.dst) (hbytes : s.srcBytes = t.srcBytes)
    (htree : usesTree i = true → s.tree = t.tree ∧ s.treeBytes = t.treeBytes)
    (hbits : i = .hufUnpack → s.inBits = t.inBits) :
    s.run (usesTree i) (commandFunction i) = t.run (usesTree i) (commandFunction i) := by
  simp only [srcBytes, treeBytes] at hbytes htree
  simp only [run]
  rw [hbytes, commandFunction_inBits hbits, hplatform, hsrc, hdst]
  cases huses : usesTree i with
  | false => simp
  | true =>
    obtain ⟨hplace, hcontent⟩ := htree huses
    rw [hcontent, hplace]

/-- The results and ERR that a completion leaves are those of the outcome (R104). -/
theorem State.complete_sameResults (s t : State) (r : Result) :
    (s.complete r).SameResults (t.complete r) ∧ (s.complete r).err = (t.complete r).err := by
  cases r with
  | ok o => exact ⟨⟨rfl, rfl, rfl, rfl, rfl⟩, rfl⟩
  | error e =>
    simp only [complete, commit, commitErr]
    split <;> exact ⟨⟨rfl, rfl, rfl, rfl, rfl⟩, rfl⟩

/-- After a success the destination holds the output (R104). -/
theorem State.complete_ok_readBytes (s : State) (o : Output) :
    (s.complete (.ok o)).mem.readBytes s.dst.start o.out.length = o.out :=
  Memory.readBytes_writeBytes_same _ _ _

end Sys2Proof.Machine

open Sys2Proof Sys2Proof.Machine

/-- Settles O10: the results of every command fit their registers. -/
theorem commandSucceeds : Obligations.CommandSucceeds :=
  fun _ _ _ hpass hf hfit => exec_succeeds hpass hf hfit

/-- Settles O12: the two runs come to one outcome, which fixes the results and, after a success, the output. -/
theorem outcomeDependsOnOperandsOnly : Obligations.OutcomeDependsOnOperandsOnly := by
  intro i s t s' t' hplatform hsrc hdst hbytes htree hbits hs ht
  obtain rfl := exec_eq_next.1 hs
  obtain rfl := exec_eq_next.1 ht
  rw [← State.run_congr hplatform hsrc hdst hbytes htree hbits]
  obtain ⟨hresults, herr⟩ := s.complete_sameResults t (s.run (usesTree i) (commandFunction i))
  refine ⟨hresults, herr, fun hcode => ?_⟩
  cases hrun : s.run (usesTree i) (commandFunction i) with
  | ok o =>
    obtain ⟨-, -, hfit⟩ := State.run_eq_ok.1 hrun
    rw [State.complete_ok_resultLen hfit, s.complete_ok_readBytes, hdst, t.complete_ok_readBytes]
  | error e =>
    obtain ⟨-, -, -, hcode', -⟩ := s.complete_error e
    rw [hrun, hcode'] at hcode
    exact absurd hcode (errorByte_ne_zero e)
end

section
/-!
SUPPORT. The record stream that the RLE encoder writes (41_rle.md R120).
-/

namespace Sys2Proof.Machine

/-- The records of a run of `n` bytes `v` in progress: the first one has value `v`, none has count 0, and only a count
of 255 is followed by a record of the same value (R77, R120). -/
theorem rleRecords_rleEncodeFrom (v : Byte) (bs : List Byte) {n : Nat} (hpos : 0 < n) (hn : n ≤ 255) :
    ∃ c rs, rleRecords (rleEncodeFrom v n bs) = (c, v) :: rs ∧ (∀ r ∈ (c, v) :: rs, r.1 ≠ 0) ∧
      ((c, v) :: rs).IsChain fun r q => r.2 = q.2 → r.1 = 255 := by
  have hcount : BitVec.ofNat 8 n ≠ 0 := by bv_omega
  induction bs generalizing v n with
  | nil => exact ⟨_, [], rfl, by simpa using hcount, List.isChain_singleton _⟩
  | cons b bs ih =>
    rw [rleEncodeFrom]
    split
    · next hrun =>
      have hlt : n < 255 := hrun.2
      exact ih v (by omega) (by omega) (by bv_omega)
    · next hend =>
      obtain ⟨c, rs, hrs, hnz, hchain⟩ := ih b (n := 1) (by omega) (by omega) (by decide)
      have hfull (hvalue : v = b) : BitVec.ofNat 8 n = 255 := by
        have hcap : ¬ n < 255 := fun hlt => hend ⟨hvalue.symm, hlt⟩
        obtain rfl : n = 255 := by omega
        rfl
      exact ⟨BitVec.ofNat 8 n, _, by rw [rleRecords, hrs], List.forall_mem_cons.2 ⟨hcount, hnz⟩, hchain.cons_cons hfull⟩

/-- The encoder writes a maximal stream (R120). -/
theorem rleEncode_maximal (S : List Byte) : RleMaximal (rleEncode S) := by
  cases S with
  | nil => exact ⟨rfl, nofun, List.isChain_nil⟩
  | cons v bs =>
    obtain ⟨c, rs, hrs, hnz, hchain⟩ := rleRecords_rleEncodeFrom v bs (n := 1) (by omega) (by omega)
    refine ⟨(rleEncodeFrom_length v bs 1).1, ?_, ?_⟩ <;> rw [rleEncode, hrs]
    · exact hnz
    · exact hchain

/-- The records of an input stand for it (R120, R121). -/
theorem expandRecords_rleEncode (S : List Byte) : expandRecords (rleEncode S) = S := by
  cases S with
  | nil => rfl
  | cons v bs => exact expandRecords_rleEncodeFrom v bs (by omega)

theorem rleEncode_length_le (S : List Byte) : (rleEncode S).length ≤ 2 * S.length := by
  cases S with
  | nil => exact le_rfl
  | cons v bs => exact (rleEncodeFrom_length v bs 1).2

end Sys2Proof.Machine

open Sys2Proof Sys2Proof.Machine

/-- Settles O31: the encoder's stream is maximal, stands for the input and has at most one record per byte. -/
theorem rleEncWritesMaximalRecords : Obligations.RleEncWritesMaximalRecords := by
  intro s hpass hroom
  have hlen := rleEncode_length_le s.srcBytes
  rw [s.srcBytes_length] at hlen
  obtain ⟨t, ht, hdone⟩ := exec_succeeds (o := ⟨rleEncode s.srcBytes, 0, 0⟩) hpass rfl (hlen.trans hroom)
  exact ⟨t, _, ht, hdone, rfl, rleEncode_maximal _, expandRecords_rleEncode _, hlen⟩
end

section
/-!
SUPPORT. Tables and streams of entries of one size: the entry at a position (30_encoding.md R82, R83), and the code
table of a tree (42_huffman.md R136, R137).
-/

namespace Sys2Proof.Machine

/-! ### Tables -/

section
variable {α β : Type} {f : α → List β} {n : Nat}

theorem length_flatMap_of_length_eq {l : List α} (hf : ∀ x ∈ l, (f x).length = n) :
    (l.flatMap f).length = n * l.length := by
  induction l with
  | nil => simp
  | cons x l ih =>
    rw [List.flatMap_cons, List.length_append, hf x List.mem_cons_self, ih fun y hy => hf y (List.mem_cons_of_mem x hy),
      List.length_cons, Nat.mul_succ, Nat.add_comm]

/-- Entry `k` of a table whose entries have `n` bytes each. -/
theorem take_drop_flatMap {l : List α} (hf : ∀ x ∈ l, (f x).length = n) {k : Nat} {x : α} (hk : l[k]? = some x) :
    ((l.flatMap f).drop (n * k)).take n = f x := by
  induction l generalizing k with
  | nil => cases hk
  | cons y l ih =>
    have hy := hf y List.mem_cons_self
    rw [List.flatMap_cons]
    cases k with
    | zero =>
      cases hk
      rw [Nat.mul_zero, List.drop_zero, List.take_left' hy]
    | succ k =>
      rw [Nat.mul_succ, Nat.add_comm, ← List.drop_drop, List.drop_left' hy]
      exact ih (fun z hz => hf z (List.mem_cons_of_mem y hz)) hk

end

theorem allSymbols_length : allSymbols.length = 256 := by simp [allSymbols]

theorem getElem?_allSymbols {k : Nat} (h : k < 256) : allSymbols[k]? = some (BitVec.ofNat 8 k) := by
  simp [allSymbols, h]

/-! ### The code table -/

theorem mem_treeSymbols_of_leafAt {t : Tree} {p : Bits} {x : Byte} (h : leafAt t p = some x) : x ∈ treeSymbols t := by
  have hmem : (x, p) ∈ walkCodes t [] := mem_walkCodes.2 ⟨p, rfl, h⟩
  rw [← walkCodes_symbols t []]
  exact List.mem_map_of_mem hmem

/-- Distinct symbols have one leaf each, and so one path (R137). -/
theorem leafAt_inj {t : Tree} (ht : (treeSymbols t).Nodup) {p q : Bits} {x : Byte} (hp : leafAt t p = some x)
    (hq : leafAt t q = some x) : p = q := by
  induction t generalizing p q with
  | leaf y =>
    match p, q, hp, hq with
    | [], [], _, _ => rfl
  | node l r hl hr =>
    obtain ⟨hnl, hnr, hapart⟩ := List.nodup_append.1 ht
    match p, q, hp, hq with
    | false :: p, false :: q, hp, hq => rw [hl hnl hp hq]
    | true :: p, true :: q, hp, hq => rw [hr hnr hp hq]
    | false :: p, true :: q, hp, hq =>
      exact absurd rfl (hapart x (mem_treeSymbols_of_leafAt hp) x (mem_treeSymbols_of_leafAt hq))
    | true :: p, false :: q, hp, hq =>
      exact absurd rfl (hapart x (mem_treeSymbols_of_leafAt hq) x (mem_treeSymbols_of_leafAt hp))

/-- A code is the path to the symbol's leaf (R137). -/
theorem codeOf_node_iff {l r : Tree} (ht : (treeSymbols (.node l r)).Nodup) {x : Byte} {p : Bits} :
    codeOf (.node l r) x = some p ↔ leafAt (.node l r) p = some x := by
  refine ⟨leafAt_of_codeOf, fun hleaf => ?_⟩
  obtain ⟨q, hq⟩ := Option.ne_none_iff_exists'.1 (codeOf_ne_none.2 (mem_treeSymbols_of_leafAt hleaf))
  rw [hq, leafAt_inj ht (leafAt_of_codeOf hq) hleaf]

/-- Every entry of a code table has 33 bytes (R83). -/
theorem codeEntry_length {c : Option Bits} (h : ∀ p, c = some p → p.length ≤ 255) : (codeEntry c).length = 33 := by
  cases c with
  | none => exact List.length_replicate
  | some p =>
    have hp := h p rfl
    simp only [codeEntry, List.length_cons, List.length_append, packBits_length, List.length_replicate]
    omega

theorem codeOf_length_le_of_nodup {t : Tree} (ht : (treeSymbols t).Nodup) {s : Byte} {p : Bits}
    (h : codeOf t s = some p) : p.length ≤ 255 := by
  have hcode := codeOf_length_le h
  have := treeDepth_le t
  have := internalCount_le ht
  omega

/-- The table of a tree, or of no tree (R83, R136). -/
def codeTable (t? : Option Tree) : List Byte :=
  allSymbols.flatMap fun s => codeEntry (t?.bind fun t => codeOf t s)

theorem codeEntry_codeOf_length {t? : Option Tree} (ht : ∀ t, t? = some t → (treeSymbols t).Nodup) (s : Byte) :
    (codeEntry (t?.bind fun t => codeOf t s)).length = 33 := by
  refine codeEntry_length fun p hp => ?_
  obtain ⟨t, rfl, hcode⟩ := Option.bind_eq_some_iff.1 hp
  exact codeOf_length_le_of_nodup (ht t rfl) hcode

theorem codeTable_length {t? : Option Tree} (ht : ∀ t, t? = some t → (treeSymbols t).Nodup) :
    (codeTable t?).length = 8448 := by
  rw [codeTable, length_flatMap_of_length_eq fun s _ => codeEntry_codeOf_length ht s, allSymbols_length]

/-- HUF_CODEGEN gives the table of the tree it loads (R136). -/
theorem fnHufCodegen_ok {S : List Byte} {t? : Option Tree} (h : loadTree S = .ok t?) :
    fnHufCodegen S = .ok ⟨codeTable t?, leafCountOpt t?, 0⟩ := by
  rw [fnHufCodegen, h]
  cases t? with
  | none =>
    have hzeros : codeTable none = List.replicate 8448 0 :=
      List.eq_replicate_iff.2 ⟨codeTable_length nofun, by simp [codeTable, codeEntry]⟩
    rw [hzeros]
    rfl
  | some t => rfl

end Sys2Proof.Machine

open Sys2Proof Sys2Proof.Machine

/-- Settles O35: the table has an entry of four bytes for every byte value, and no count exceeds SRC_LEN. -/
theorem hufFreqWritesCounts : Obligations.HufFreqWritesCounts := by
  intro s hpass hroom
  have hentry : ∀ x ∈ allSymbols, (toLE 4 (freq s.srcBytes x)).length = 4 := fun x _ => toLE_length _ _
  have hlen := length_flatMap_of_length_eq hentry
  rw [allSymbols_length] at hlen
  obtain ⟨t, ht, hdone⟩ := exec_succeeds hpass rfl (hlen.le.trans hroom)
  refine ⟨t, _, ht, hdone, hlen, fun k hk => ?_⟩
  have hcount : freq s.srcBytes (BitVec.ofNat 8 k) < 256 ^ 4 :=
    List.count_le_length.trans_lt (by rw [s.srcBytes_length]; exact s.src_len_lt)
  rw [take_drop_flatMap hentry (getElem?_allSymbols hk), leValue_toLE hcount, freq]

/-- Settles O40: a code is the path to its leaf, and the table has an entry of 33 bytes for every byte value. -/
theorem hufCodegenWritesCodeTable : Obligations.HufCodegenWritesCodeTable := by
  refine ⟨codeOf_leaf, fun l r x p h => codeOf_node_iff h, fun s hpass => ⟨fun e he => ?_, fun t? ht? hroom => ?_⟩⟩
  · refine exec_fails hpass ?_
    show fnHufCodegen s.srcBytes = _
    rw [fnHufCodegen, he]
  · have hnodup : ∀ t, t? = some t → (treeSymbols t).Nodup := fun t ht => loadTree_nodup (ht ▸ ht?)
    have hlen := codeTable_length hnodup
    obtain ⟨t, ht, hdone⟩ := exec_succeeds hpass (fnHufCodegen_ok ht?) (hlen.le.trans hroom)
    refine ⟨t, _, ht, hdone, hlen, fun k hk => ?_⟩
    rw [codeTable, take_drop_flatMap (fun s _ => codeEntry_codeOf_length hnodup s) (getElem?_allSymbols hk)]
    cases t?.bind fun t => codeOf t (BitVec.ofNat 8 k) with
    | none => rfl
    | some c => rw [codeEntry, packBits_length]
end

section
/-!
SUPPORT. HUF_ENC on the block (44_huffman_container.md R176).
-/

namespace Sys2Proof.Machine

theorem State.srcBytes_eq_nil {s : State} : s.srcBytes = [] ↔ s.src.len = 0 := by
  rw [← s.srcBytes_length, List.length_eq_zero_iff]

end Sys2Proof.Machine

open Sys2Proof Sys2Proof.Machine

/-- Settles O49: empty input has no tree, and any other has one with a code for each of its bytes. -/
theorem hufEncWritesContainer : Obligations.HufEncWritesContainer := by
  refine fun s hpass => ⟨fun hempty => ?_, fun hne => ?_⟩
  · have hnone : s.functionResult .hufEnc = .ok ⟨[], 0, 0⟩ := by
      show fnHufEnc s.srcBytes = _
      rw [State.srcBytes_eq_nil.2 hempty, fnHufEnc, build_nil]
    exact exec_succeeds hpass hnone (Nat.zero_le _)
  · obtain ⟨tr, htr, -⟩ := build_some (mt State.srcBytes_eq_nil.1 hne)
    refine ⟨tr, htr, allCoded_build htr, fun hroom => exec_succeeds hpass (fnHufEnc_build htr) ?_⟩
    simp only [List.length_append, toLE_length, packBits_length]
    exact hroom
end

section
/-!
SUPPORT. The greedy code stream of the LZW encoder (45_lzw.md R185, R186, R188).
-/

namespace Sys2Proof.Machine

/-! ### Codes of phrases -/

theorem codeOfPhrase_byte (d : Dict) (v : Byte) : codeOfPhrase d [v] = some v.toNat := rfl

/-- The code of a phrase that is no single byte is that of its entry (R185). -/
theorem codeOfPhrase_eq_of_ne {d : Dict} {p : List Byte} (h : ∀ v, p ≠ [v]) :
    codeOfPhrase d p = (d.idxOf? p).map (256 + ·) := by
  match p, h with
  | [], _ => rfl
  | [v], h => exact absurd rfl (h v)
  | _ :: _ :: _, _ => rfl

/-- A phrase that has a code is the dictionary's entry under it (R185). -/
theorem isLzwEntry_of_codeOfPhrase {d : Dict} {p : List Byte} {c : Nat} (h : codeOfPhrase d p = some c) :
    IsLzwEntry d c p := by
  by_cases hbyte : ∃ v, p = [v]
  · obtain ⟨v, rfl⟩ := hbyte
    cases h
    exact .inl ⟨v, rfl, rfl⟩
  · rw [codeOfPhrase_eq_of_ne fun v hv => hbyte ⟨v, hv⟩] at h
    obtain ⟨k, hk, rfl⟩ := Option.map_eq_some_iff.1 h
    obtain ⟨hlt, hp, -⟩ := List.idxOf?_eq_some_iff.1 hk
    refine .inr ⟨Nat.le_add_right _ _, ?_⟩
    rw [Nat.add_sub_cancel_left, List.getElem?_eq_getElem hlt, hp]

/-- A phrase without a code is no entry of the dictionary (R185). -/
theorem not_isLzwEntry_of_codeOfPhrase {d : Dict} {p : List Byte} (h : codeOfPhrase d p = none) (c : Nat) :
    ¬ IsLzwEntry d c p := by
  rintro (⟨v, rfl, -⟩ | ⟨-, hp⟩)
  · cases h
  · have hlong : ∀ v, p ≠ [v] := fun v hv => by rw [hv] at h; cases h
    rw [codeOfPhrase_eq_of_ne hlong, Option.map_eq_none_iff, List.idxOf?_eq_none_iff] at h
    exact h (List.mem_of_getElem? hp)

/-! ### What the encoder emits -/

/-- From dictionary `d` the codes of the phrases are emitted: each is the dictionary's code of its phrase, the phrase
with the next one's first byte has none, and is inserted (R186, R188). -/
inductive LzwEmits : Dict → List (List Byte) → List Nat → Prop where
  | none (d : Dict) : LzwEmits d [] []
  | last {d : Dict} {p : List Byte} {c : Nat} (code : codeOfPhrase d p = some c) : LzwEmits d [p] [c]
  | next {d : Dict} {p q : List Byte} {c : Nat} {b : Byte} {ps : List (List Byte)} {cs : List Nat}
      (code : codeOfPhrase d p = some c) (longest : codeOfPhrase d (p ++ [b]) = none)
      (rest : LzwEmits (insertPhrase d (p ++ [b])) ((b :: q) :: ps) cs) : LzwEmits d (p :: (b :: q) :: ps) (c :: cs)

/-- The encoder's loop emits phrases that make up the current one and the rest of the input (R188). -/
theorem lzwEncodeFrom_emits (bs : List Byte) {d : Dict} {cur : List Byte} {c : Nat} (hne : cur ≠ [])
    (hcode : codeOfPhrase d cur = some c) :
    ∃ q ps, LzwEmits d ((cur ++ q) :: ps) (lzwEncodeFrom d cur bs).1 ∧ ((cur ++ q) :: ps).flatten = cur ++ bs := by
  induction bs generalizing d cur c with
  | nil =>
    refine ⟨[], [], ?_, by simp⟩
    rw [lzwEncodeFrom, if_neg hne, hcode, List.append_nil]
    exact .last hcode
  | cons b bs ih =>
    rw [lzwEncodeFrom]
    cases hlonger : codeOfPhrase d (cur ++ [b]) with
    | some c' =>
      obtain ⟨q, ps, hemits, hflat⟩ := ih (by simp) hlonger
      refine ⟨b :: q, ps, ?_, ?_⟩
      · simpa using hemits
      · simpa using hflat
    | none =>
      obtain ⟨q, ps, hemits, hflat⟩ := ih (cur := [b]) (by simp) (codeOfPhrase_byte (insertPhrase d (cur ++ [b])) b)
      refine ⟨[], (b :: q) :: ps, ?_, ?_⟩
      · rw [if_neg (by simp), hcode, List.append_nil]
        exact .next hcode hlonger hemits
      · simpa using hflat

/-- One phrase more has been inserted when one code more has been emitted, up to the cap (R186). -/
theorem lzwInserted_succ (ps : List (List Byte)) (j : Nat) :
    lzwInserted ps (j + 1) = insertPhrase (lzwInserted ps j) (ps.getD j [] ++ (ps.getD (j + 1) []).take 1) := by
  have hnext : nextCode (lzwInserted ps j) = 256 + min j (65536 - 256) := by simp [nextCode, lzwInserted]
  rw [insertPhrase, hnext]
  by_cases hj : j < 65536 - 256
  · rw [if_pos (by rw [Config.lzwDictCap]; omega), lzwInserted, lzwInserted, min_eq_left (by omega),
      min_eq_left (by omega), List.range_succ, List.map_append]
    rfl
  · rw [if_neg (by rw [Config.lzwDictCap]; omega), lzwInserted, lzwInserted, min_eq_right (by omega),
      min_eq_right (by omega)]

theorem nextCode_lzwInserted_le (ps : List (List Byte)) (j : Nat) : nextCode (lzwInserted ps j) ≤ 65536 := by
  simp only [nextCode, lzwInserted, List.length_map, List.length_range]
  omega

/-- At position `j` of the phrases `ps` the code `c` is the greedy one (R188). -/
def LzwGreedyAt (ps : List (List Byte)) (j c : Nat) : Prop :=
  codeOfPhrase (lzwInserted ps j) (ps.getD j []) = some c ∧
    (j + 1 < ps.length → codeOfPhrase (lzwInserted ps j) (ps.getD j [] ++ (ps.getD (j + 1) []).take 1) = none)

/-- The emitted codes are as many as the phrases and greedy at every position; `before` are the phrases emitted
earlier. -/
theorem LzwEmits.greedyAt {d : Dict} {ps : List (List Byte)} {cs : List Nat} (h : LzwEmits d ps cs)
    (before : List (List Byte)) (hd : d = lzwInserted (before ++ ps) before.length) :
    cs.length = ps.length ∧ ∀ j c, cs[j]? = some c → LzwGreedyAt (before ++ ps) (before.length + j) c := by
  induction h generalizing before with
  | none d => exact ⟨rfl, nofun⟩
  | @last d p c code =>
    refine ⟨rfl, fun j c' hc => ?_⟩
    match j, hc with
    | 0, hc =>
      cases hc
      subst hd
      exact ⟨by simpa using code, fun hlast => by simp at hlast⟩
  | @next d p q c b ps cs code longest rest ih =>
    have hsucc : insertPhrase d (p ++ [b]) =
        lzwInserted ((before ++ [p]) ++ (b :: q) :: ps) (before ++ [p]).length := by
      rw [List.length_append, List.length_singleton, lzwInserted_succ, List.append_assoc, List.singleton_append, ← hd]
      simp
    obtain ⟨hlen, hgreedy⟩ := ih (before ++ [p]) hsucc
    refine ⟨by simp [hlen], fun j c' hc => ?_⟩
    cases j with
    | zero =>
      cases hc
      subst hd
      exact ⟨by simpa using code, fun _ => by simpa using longest⟩
    | succ j =>
      have hj := hgreedy j c' hc
      rwa [List.append_assoc, List.singleton_append, List.length_append, List.length_singleton, Nat.add_assoc,
        Nat.add_comm 1 j] at hj

/-- The first byte of an input has a code, so it becomes the current phrase (R188). -/
theorem lzwEncodeFrom_first (b : Byte) (bs : List Byte) : lzwEncodeFrom [] [] (b :: bs) = lzwEncodeFrom [] [b] bs := rfl

/-- The encoder's codes are the greedy codes of phrases that make up the input (R188). -/
theorem lzwEncode_greedyAt (S : List Byte) :
    ∃ ps : List (List Byte), ps.flatten = S ∧ (lzwEncodeFrom [] [] S).1.length = ps.length ∧
      ∀ j c, (lzwEncodeFrom [] [] S).1[j]? = some c → LzwGreedyAt ps j c := by
  cases S with
  | nil => exact ⟨[], rfl, rfl, nofun⟩
  | cons b bs =>
    obtain ⟨q, ps, hemits, hflat⟩ := lzwEncodeFrom_emits bs (cur := [b]) (by simp) (codeOfPhrase_byte [] b)
    obtain ⟨hlen, hgreedy⟩ := hemits.greedyAt [] rfl
    rw [lzwEncodeFrom_first]
    refine ⟨([b] ++ q) :: ps, hflat, hlen, fun j c hc => ?_⟩
    simpa using hgreedy j c hc

/-- The codes of a greedy stream, two bytes each (R81, R188). -/
theorem lzwGreedy_of_greedyAt {S : List Byte} {ps : List (List Byte)} {cs : List Nat} (hflat : ps.flatten = S)
    (hlen : cs.length = ps.length) (h : ∀ j c, cs[j]? = some c → LzwGreedyAt ps j c) :
    LzwGreedy S (cs.flatMap (toLE 2)) := by
  have hcode : ∀ x ∈ cs, (toLE 2 x).length = 2 := fun x _ => toLE_length 2 x
  refine ⟨ps, hflat, by rw [length_flatMap_of_length_eq hcode, hlen], fun j hj => ?_⟩
  have hc : cs[j]? = some (cs[j]'(by omega)) := List.getElem?_eq_getElem _
  generalize cs[j]'(by omega) = c at hc
  obtain ⟨hentry, hlongest⟩ := h j c hc
  have hfits : c < 256 ^ 2 := (codeOfPhrase_lt hentry).trans_le (nextCode_lzwInserted_le ps j)
  rw [take_drop_flatMap hcode hc, leValue_toLE hfits]
  exact ⟨isLzwEntry_of_codeOfPhrase hentry, fun hnext => not_isLzwEntry_of_codeOfPhrase (hlongest hnext)⟩

/-- The encoder emits at most one code per byte (R188). -/
theorem lzwEncodeFrom_length_le (d : Dict) {cur : List Byte} (hne : cur ≠ []) (bs : List Byte) :
    (lzwEncodeFrom d cur bs).1.length ≤ bs.length + 1 := by
  induction bs generalizing d cur with
  | nil => simp [lzwEncodeFrom, hne]
  | cons b bs ih =>
    rw [lzwEncodeFrom]
    split
    · exact (ih d (by simp)).trans (Nat.le_succ _)
    · exact Nat.succ_le_succ (ih _ (by simp))

theorem lzwEncode_length_le (S : List Byte) : (lzwEncodeFrom [] [] S).1.length ≤ S.length := by
  cases S with
  | nil => exact le_rfl
  | cons b bs =>
    rw [lzwEncodeFrom_first]
    exact lzwEncodeFrom_length_le [] (by simp) bs

theorem nextCode_ge (d : Dict) : 256 ≤ nextCode d := Nat.le_add_right _ _

end Sys2Proof.Machine

open Sys2Proof Sys2Proof.Machine

/-- Settles O53: the phrases that the encoder emits make up the input, and none can be longer when its code is
emitted. -/
theorem lzwEncWritesCodes : Obligations.LzwEncWritesCodes := by
  intro s hpass hroom
  obtain ⟨ps, hflat, hcodes, hgreedy⟩ := lzwEncode_greedyAt s.srcBytes
  have hle := lzwEncode_length_le s.srcBytes
  have hnext := nextCode_lzwEncodeFrom_le [] s.srcBytes (d := []) (by decide)
  have hlen := length_flatMap_of_length_eq (l := (lzwEncodeFrom [] [] s.srcBytes).1) fun x _ => toLE_length 2 x
  rw [s.srcBytes_length] at hle
  have hsize : ((lzwEncodeFrom [] [] s.srcBytes).1.flatMap (toLE 2)).length ≤ 2 * s.src.len := by omega
  obtain ⟨t, ht, hdone⟩ := exec_succeeds hpass rfl (hsize.trans hroom)
  exact ⟨t, _, _, rfl, ht, hdone, by omega, hsize, nextCode_ge _, hnext, lzwGreedy_of_greedyAt hflat hcodes hgreedy⟩
end

section
/-!
SUPPORT. Which error a command reports (40_command.md R102, R103; 60_exceptions.md R203): the outcomes of `Run()` that
are errors, the error record they leave, and that no command's own function reports E_DST_FULL.
-/

namespace Sys2Proof.Machine

/-! ### The errors of `Run()` -/

/-- Where `Run()` reports an error (R102, R203). -/
theorem State.run_eq_error {s : State} {i : Instr} {e : ErrCode} :
    s.run (usesTree i) (commandFunction i) = .error e ↔
      (¬ s.BuffersInRange i ∧ e = .range) ∨ (s.BuffersInRange i ∧ ¬ s.DestinationApart i ∧ e = .overlap) ∨
      (s.BuffersPass i ∧ s.functionResult i = .error e) ∨
      (s.BuffersPass i ∧ (∃ o, s.functionResult i = .ok o ∧ s.dst.len < o.out.length) ∧ e = .dstFull) := by
  rcases s.run_cases i with ⟨hrange, hrun⟩ | ⟨hrange, hapart, hrun⟩ | ⟨hpass, e', hf, hrun⟩ |
    ⟨hpass, o, hf, hlong, hrun⟩ | ⟨hpass, o, hf, hfit, hrun⟩ <;> rw [hrun]
  · simp [eq_false hrange, eq_false fun hpass : s.BuffersPass i => hrange hpass.1, eq_comm (a := e)]
  · simp [eq_true hrange, eq_false hapart, eq_false fun hpass : s.BuffersPass i => hapart hpass.2, eq_comm (a := e)]
  · simp [eq_true hpass, eq_true hpass.1, eq_true hpass.2, hf]
  · simp [eq_true hpass, eq_true hpass.1, eq_true hpass.2, hf, hlong, eq_comm (a := e)]
  · simp [eq_true hpass, eq_true hpass.1, eq_true hpass.2, hf, hfit]

/-! ### The error record -/

/-- A completion leaves an error's code exactly if the outcome is that error (R104, R200). -/
theorem State.complete_errCode_eq {s : State} {r : Result} {e : ErrCode} :
    (s.complete r).errCode = errorByte e ↔ r = .error e := by
  cases r with
  | ok o => exact ⟨fun h => absurd h.symm (errorByte_ne_zero e), nofun⟩
  | error e' =>
    obtain ⟨-, -, -, hcode, -⟩ := s.complete_error e'
    rw [hcode, Except.error.injEq]
    exact ⟨errorByte_injective, congrArg errorByte⟩

/-- An error commits no result (R104, R204). -/
theorem State.complete_noResult {s : State} {r : Result} (h : (s.complete r).errCode ≠ 0) :
    (s.complete r).NoResult := by
  cases r with
  | ok o => exact absurd rfl h
  | error e =>
    simp only [complete, commit, commitErr]
    split <;> exact ⟨rfl, rfl, rfl, rfl⟩

/-- ERR is set exactly with an error code (R101). -/
theorem State.complete_err {s : State} {r : Result} : (s.complete r).err = true ↔ (s.complete r).errCode ≠ 0 :=
  bne_iff_ne

/-! ### No function reports E_DST_FULL -/

theorem deserNode_ne_dstFull (fuel : Nat) (d : DeserState) : deserNode fuel d ≠ .error .dstFull := by
  induction fuel generalizing d with
  | zero => nofun
  | succ fuel ih =>
    intro h
    rw [deserNode] at h
    split at h
    · cases h
    · split at h
      · split at h
        · cases h
        · split at h <;> cases h
      · split at h
        · split at h
          · cases h
          · split at h
            · next hl => cases h; exact ih _ hl
            · split at h
              · next hr => cases h; exact ih _ hr
              · cases h
        · split at h <;> cases h

theorem deser_ne_dstFull (T : List Byte) : deser T ≠ .error .dstFull := by
  intro h
  rw [deser] at h
  split at h
  · next hnode => cases h; exact deserNode_ne_dstFull _ _ hnode
  · split at h <;> cases h

theorem loadTree_ne_dstFull (T : List Byte) : loadTree T ≠ .error .dstFull := by
  intro h
  cases T with
  | nil => cases h
  | cons b bs =>
    rw [loadTree] at h
    split at h
    · next hd => cases h; exact deser_ne_dstFull _ hd
    · cases h

theorem decodeLeafBits_ne_dstFull (x : Byte) (bits : Bits) : decodeLeafBits x bits ≠ .error .dstFull := by
  induction bits with
  | nil => nofun
  | cons b bits ih =>
    cases b with
    | true => nofun
    | false =>
      intro h
      rw [decodeLeafBits] at h
      split at h
      · next hrest => cases h; exact ih hrest
      · cases h

theorem decodeWalk_ne_dstFull (l r n : Tree) (atRoot : Bool) (bits : Bits) :
    decodeWalk l r n atRoot bits ≠ .error .dstFull := by
  induction bits generalizing n atRoot with
  | nil => cases atRoot <;> nofun
  | cons b bits ih =>
    intro h
    simp only [decodeWalk] at h
    split at h
    · split at h
      · next hrest => cases h; exact ih _ _ hrest
      · cases h
    · exact ih _ _ h

theorem decodeBits_ne_dstFull (t : Tree) (bits : Bits) : decodeBits t bits ≠ .error .dstFull := by
  cases t with
  | leaf x => exact decodeLeafBits_ne_dstFull x bits
  | node l r => exact decodeWalk_ne_dstFull l r _ true bits

theorem decodePayload_ne_dstFull (P T : List Byte) (n : Nat) : decodePayload P T n ≠ .error .dstFull := by
  intro h
  rw [decodePayload] at h
  split at h
  · next ht => cases h; exact loadTree_ne_dstFull _ ht
  · split at h <;> cases h
  · split at h
    · cases h
    · exact decodeBits_ne_dstFull _ _ h

theorem fnHufCodegen_ne_dstFull (S : List Byte) : fnHufCodegen S ≠ .error .dstFull := by
  cases ht : loadTree S with
  | ok t? => rw [fnHufCodegen_ok ht]; nofun
  | error e =>
    intro h
    rw [fnHufCodegen, ht] at h
    cases h
    exact loadTree_ne_dstFull S ht

theorem fnHufPack_ne_dstFull (S TB : List Byte) : fnHufPack S TB ≠ .error .dstFull := by
  intro h
  rw [fnHufPack] at h
  split at h
  · next ht => cases h; exact loadTree_ne_dstFull _ ht
  · split at h
    · cases h
    · split at h
      · cases h
      · split at h <;> cases h

theorem fnHufUnpack_ne_dstFull (S TB : List Byte) (NB : Nat) : fnHufUnpack S TB NB ≠ .error .dstFull := by
  intro h
  rw [fnHufUnpack] at h
  split at h
  · next hp => cases h; exact decodePayload_ne_dstFull _ _ _ hp
  · cases h

theorem fnHufDec_ne_dstFull (S : List Byte) : fnHufDec S ≠ .error .dstFull := by
  intro h
  rw [fnHufDec] at h
  split at h
  · cases h
  · split at h
    · cases h
    · dsimp only at h
      split at h
      · cases h
      · split at h
        · next hp => cases h; exact decodePayload_ne_dstFull _ _ _ hp
        · cases h

theorem currentPhrase_ne_dstFull (d : Dict) (prev : List Byte) (c : Nat) :
    currentPhrase d prev c ≠ .error .dstFull := by
  intro h
  simp only [currentPhrase] at h
  split at h
  · cases h
  · cases h
  · split at h <;> cases h

theorem lzwDecodeFrom_ne_dstFull (d : Dict) (prev S : List Byte) : lzwDecodeFrom d prev S ≠ .error .dstFull := by
  induction S using List.twoStepInduction generalizing d prev with
  | nil => nofun
  | singleton x => nofun
  | cons_cons lo hi rest ih =>
    intro h
    rw [lzwDecodeFrom] at h
    split at h
    · next hcur => cases h; exact currentPhrase_ne_dstFull _ _ _ hcur
    · split at h
      · next hrest => cases h; exact ih _ _ hrest
      · cases h

theorem fnLzwDec_ne_dstFull (S : List Byte) : fnLzwDec S ≠ .error .dstFull := by
  intro h
  rw [fnLzwDec] at h
  split at h
  · cases h
  · split at h
    · next hdec => cases h; exact lzwDecodeFrom_ne_dstFull _ _ _ hdec
    · cases h

/-- E_DST_FULL comes only from the capacity check, never from a command's own function (R103). -/
theorem commandFunction_ne_dstFull (i : Instr) (S TB : List Byte) (NB : Nat) :
    commandFunction i S TB NB ≠ .error .dstFull := by
  cases i with
  | rleEnc | hufFreq | lzwEnc => nofun
  | rleDec => rw [commandFunction, fnRleDec]; split <;> nofun
  | hufBuild => rw [commandFunction, fnHufBuild]; split <;> nofun
  | hufEnc =>
    rw [commandFunction, fnHufEnc]
    split
    · nofun
    · split <;> nofun
  | hufCodegen => exact fnHufCodegen_ne_dstFull S
  | hufPack => exact fnHufPack_ne_dstFull S TB
  | hufUnpack => exact fnHufUnpack_ne_dstFull S TB NB
  | hufDec => exact fnHufDec_ne_dstFull S
  | lzwDec => exact fnLzwDec_ne_dstFull S

/-- `Run()` reports E_DST_FULL exactly for an output that is correct but too long (R103). -/
theorem State.run_eq_dstFull {s : State} {i : Instr} :
    s.run (usesTree i) (commandFunction i) = .error .dstFull ↔
      s.BuffersPass i ∧ ∃ o, s.functionResult i = .ok o ∧ s.dst.len < o.out.length := by
  have hown : s.functionResult i ≠ .error .dstFull := commandFunction_ne_dstFull i _ _ _
  simp only [State.run_eq_error, hown, reduceCtorEq, and_false, false_or, and_true]

end Sys2Proof.Machine

open Sys2Proof Sys2Proof.Machine

/-- Settles O7: every outcome is completed, and the flags follow the code it leaves. -/
theorem everyCommandCompletes : Obligations.EveryCommandCompletes :=
  fun i s => ⟨_, exec_eq i s, rfl, rfl, State.complete_err, State.complete_noResult⟩

/-- Settles O9: each clause is one of the errors of `Run()`, and the completion records it. -/
theorem errorPriority : Obligations.ErrorPriority := by
  intro i s
  have hfailed {e : ErrCode} (h : s.run (usesTree i) (commandFunction i) = .error e) :
      s.FailedWith (s.complete (s.run (usesTree i) (commandFunction i))) e := h ▸ s.complete_error e
  exact ⟨_, exec_eq i s,
    fun hrange => hfailed (State.run_eq_error.2 (.inl ⟨hrange, rfl⟩)),
    fun hrange hapart => hfailed (State.run_eq_error.2 (.inr (.inl ⟨hrange, hapart, rfl⟩))),
    fun hpass e hf => hfailed (State.run_eq_error.2 (.inr (.inr (.inl ⟨hpass, hf⟩)))),
    fun hpass o hf hlong => hfailed (State.run_eq_dstFull.2 ⟨hpass, o, hf, hlong⟩)⟩

/-- Settles O11: a completion has E_DST_FULL exactly where `Run()` reports it, and no command's function does. -/
theorem dstFullOnlyForCorrectOutput : Obligations.DstFullOnlyForCorrectOutput := by
  intro i s t ht
  obtain rfl := exec_eq_next.1 ht
  have hcode := State.complete_errCode_eq (s := s) (r := s.run (usesTree i) (commandFunction i)) (e := .dstFull)
  refine ⟨hcode.trans State.run_eq_dstFull, fun hfull => State.complete_noResult ?_, fun hpass e hf => ?_⟩
  · rw [hfull]
    decide
  · exact State.complete_errCode_eq.2 (State.run_eq_error.2 (.inr (.inr (.inl ⟨hpass, hf⟩))))
end

section
/-!
SUPPORT. The engine's turn on an idle block, and after a START (40_command.md R100, R101).
-/

namespace Sys2Proof.Machine

/-- The host's access of a register has the one form the block gives a meaning (R18, R84). -/
theorem regAccess_wellFormed (p : Platform) (r : Reg) : (regAccess p r).WellFormed p := by
  have hoffset : (regAccess p r).offset p = regOffset r := Nat.add_sub_cancel_left _ _
  have hlt : regOffset r < Config.windowBytes := (regOffset_lt r).trans (by decide)
  refine ⟨⟨Nat.le_add_right _ _, Nat.add_lt_add_left hlt _⟩, rfl, ?_⟩
  rw [hoffset]
  cases r <;> rfl

/-- A START of the block while BUSY = 0 (R20, R100). -/
theorem step_start {s : State} {w : Word} {later : List Action} (hidle : s.busy = false) (hw : w.getLsbD 0 = true)
    (hs : s.schedule = wrAction s.platform .ctrl w :: later) :
    step s = .next ({ s with schedule := later, ie := w.getLsbD 1 } : State).start := by
  rw [step_regWrite_idle (r := .ctrl) hidle hs (regAccess_wellFormed _ _) (Nat.add_sub_cancel_left _ _),
    State.writeReg, State.writeCtrl_start _ hw]

/-- The engine's turn that follows a START runs the command in CMD (R101). -/
theorem run_start_engine {s : State} {i : Instr} {w : Word} {rest later : List Action} (hidle : s.busy = false)
    (hd : decode s.cmd = .ok i) (hw : w.getLsbD 0 = true) (hs : s.schedule = wrAction s.platform .ctrl w :: later)
    (hengine : later = .engine :: rest ∨ (later = [] ∧ rest = [])) :
    Sys2Proof.core.run 2 s = exec i ({ s with schedule := rest, ie := w.getLsbD 1 } : State).start := by
  have hturn : step ({ s with schedule := later, ie := w.getLsbD 1 } : State).start =
      exec i ({ s with schedule := rest, ie := w.getLsbD 1 } : State).start :=
    (step_engineTurn hengine).trans (engineTurn_command rfl hd)
  rw [exec_eq] at hturn ⊢
  exact core_run_succ core (core_run_succ core (k := 0) rfl (step_start hidle hw hs)) hturn

end Sys2Proof.Machine

open Sys2Proof Sys2Proof.Machine

/-- Settles O14: the START leaves CMD and the operands, and the next step is the engine's turn. -/
theorem startedCommandRuns : Obligations.StartedCommandRuns := by
  rintro s i w rest hidle hd hw (hs | ⟨hs, hrest⟩)
  · exact run_start_engine hidle hd hw hs (.inl rfl)
  · exact run_start_engine hidle hd hw hs (.inr ⟨rfl, hrest⟩)

/-- Settles O5: with BUSY = 0 the engine's step is not enabled. -/
theorem engineDisabledWhileIdle : Obligations.EngineDisabledWhileIdle := by
  refine fun s hidle => ⟨fun hs => ?_, fun rest hs => ?_⟩
  · rw [step_unscheduled hs, engineTurn_idle hidle]
  · rw [step_engineTurn (.inl hs)]
    exact engineTurn_idle hidle
end

section
/-!
SUPPORT. The commands on an empty source (40_command.md R109).
-/

namespace Sys2Proof.Machine

/-! ### The functions on no bytes -/

theorem toLE_zero (n : Nat) : toLE n 0 = List.replicate n 0 := by
  induction n with
  | zero => rfl
  | succ n ih => rw [toLE, Nat.zero_div, ih]; rfl

/-- No byte value is present: the table is 256 entries of four zero bytes (R130). -/
theorem fnHufFreq_nil : fnHufFreq [] = .ok ⟨List.replicate 1024 0, 0, 0⟩ := by
  have hdistinct : distinct [] = 0 := by simp [distinct, freq]
  have htable : (allSymbols.flatMap fun x => toLE 4 (freq [] x)) = List.replicate 1024 0 := by
    refine List.eq_replicate_iff.2 ⟨?_, ?_⟩
    · rw [length_flatMap_of_length_eq fun _ _ => toLE_length 4 _, allSymbols_length]
    · simp [freq, toLE_zero]
  rw [fnHufFreq, hdistinct, htable]

theorem fnHufBuild_nil : fnHufBuild [] = .ok ⟨[], 0, 0⟩ := by rw [fnHufBuild, build_nil]

theorem fnHufEnc_nil : fnHufEnc [] = .ok ⟨[], 0, 0⟩ := by rw [fnHufEnc, build_nil]

/-- HUF_PACK loads the tree also for no bytes (R139). -/
theorem fnHufPack_nil {TB : List Byte} {t? : Option Tree} (h : loadTree TB = .ok t?) :
    fnHufPack [] TB = .ok ⟨[], 0, 0⟩ := by
  rw [fnHufPack, h]
  exact if_pos rfl

/-- No bits are no symbols, whatever the tree (R141, R142). -/
theorem decodePayload_no_bits {P T : List Byte} {t? : Option Tree} (h : loadTree T = .ok t?) :
    decodePayload P T 0 = .ok [] := by
  rw [decodePayload, h]
  cases t? with
  | none => rfl
  | some t =>
    simp only [Nat.not_lt_zero, if_false]
    exact decodeBits_nil t

/-- Bits with no payload are missing (R142). -/
theorem decodePayload_nil_fails {T : List Byte} {n : Nat} (hn : 0 < n) : ∃ e, decodePayload [] T n = .error e := by
  rw [decodePayload]
  split
  · exact ⟨_, rfl⟩
  · exact ⟨_, if_neg hn.ne'⟩
  · exact ⟨_, if_pos hn⟩

/-- The commands whose output and results are all empty or 0 for no bytes (R109). -/
theorem commandFunction_nil (TB : List Byte) (NB : Nat) :
    ∀ i ∈ [Instr.rleEnc, .rleDec, .hufBuild, .hufEnc, .hufDec], commandFunction i [] TB NB = .ok ⟨[], 0, 0⟩ := by
  simp only [List.forall_mem_cons]
  exact ⟨rfl, rfl, fnHufBuild_nil, fnHufEnc_nil, rfl, List.forall_mem_nil _⟩

/-- The LZW commands leave the next code of an empty dictionary (R188, R190). -/
theorem commandFunction_nil_lzw (TB : List Byte) (NB : Nat) :
    ∀ i ∈ [Instr.lzwEnc, .lzwDec], commandFunction i [] TB NB = .ok ⟨[], 256, 0⟩ := by
  simp only [List.forall_mem_cons]
  exact ⟨rfl, rfl, List.forall_mem_nil _⟩

/-! ### An empty source on the block -/

theorem State.functionResult_empty {s : State} (h : s.src.len = 0) (i : Instr) :
    s.functionResult i = commandFunction i [] (if usesTree i then s.treeBytes else []) s.inBits := by
  rw [functionResult, srcBytes_eq_nil.2 h]

end Sys2Proof.Machine

open Sys2Proof Sys2Proof.Machine

/-- Settles O30, by each command's function on no bytes. -/
theorem emptyInputSucceeds : Obligations.EmptyInputSucceeds := by
  intro s hempty
  have hf := State.functionResult_empty hempty
  refine ⟨fun i hi hpass => ?_, fun i hi hpass => ?_, fun hpass hroom => ?_, fun hpass hroom => ?_, fun hpass => ?_,
    fun hpass => ?_⟩
  · exact exec_succeeds hpass ((hf i).trans (commandFunction_nil _ _ i hi)) (Nat.zero_le _)
  · exact exec_succeeds hpass ((hf i).trans (commandFunction_nil_lzw _ _ i hi)) (Nat.zero_le _)
  · exact exec_succeeds hpass ((hf _).trans fnHufFreq_nil) (by rwa [List.length_replicate])
  · exact exec_succeeds hpass (hf _) (by rwa [List.length_replicate])
  · refine ⟨fun t? ht => exec_succeeds hpass ((hf _).trans (fnHufPack_nil ht)) (Nat.zero_le _), fun e he => ?_⟩
    refine exec_fails hpass ((hf _).trans ?_)
    show fnHufPack [] s.treeBytes = _
    rw [fnHufPack, he]
  · have hunpack : s.functionResult .hufUnpack = fnHufUnpack [] s.treeBytes s.inBits := hf _
    rw [fnHufUnpack] at hunpack
    refine ⟨fun t? ht hbits => exec_succeeds hpass ?_ (Nat.zero_le _), fun e he => exec_fails hpass ?_, fun hbits => ?_⟩
    · rw [hunpack, hbits, decodePayload_no_bits ht]
    · rw [hunpack, decodePayload, he]
    · obtain ⟨e, he⟩ := decodePayload_nil_fails (T := s.treeBytes) hbits
      obtain ⟨t, ht, hfailed⟩ := exec_fails (e := e) hpass (by rw [hunpack, he])
      exact ⟨t, e, ht, hfailed⟩
end

section
/-!
SUPPORT. The RLE decoder, and the streams that the encoder gives back (41_rle.md R120 to R122).
-/

namespace Sys2Proof.Machine

/-! ### The decoder -/

/-- The decoder repeats each record's value (R121). -/
theorem expandRecords_eq_flatMap (stream : List Byte) :
    expandRecords stream = (rleRecords stream).flatMap fun r => List.replicate r.1.toNat r.2 := by
  induction stream using expandRecords.induct with
  | case1 n v rest ih => rw [expandRecords, rleRecords, List.flatMap_cons, ih]
  | case2 stream hshort => rw [expandRecords.eq_2 _ hshort, rleRecords.eq_2 _ hshort, List.flatMap_nil]

theorem fnRleDec_odd {stream : List Byte} (h : stream.length % 2 = 1) : fnRleDec stream = .error .rleOdd :=
  if_pos h

theorem fnRleDec_even {stream : List Byte} (h : stream.length % 2 = 0) :
    fnRleDec stream = .ok ⟨expandRecords stream, 0, 0⟩ :=
  if_neg (by omega)

theorem expandRecords_of_fnRleDec {stream : List Byte} {o : Output} (h : fnRleDec stream = .ok o) :
    expandRecords stream = o.out := by
  rw [fnRleDec] at h
  split at h <;> cases h
  rfl

theorem fnRleEnc_eq_ok {S out : List Byte} : fnRleEnc S = .ok ⟨out, 0, 0⟩ ↔ rleEncode S = out := by
  simp [fnRleEnc]

/-- The decoder restores an encoded string (R122). -/
theorem fnRleDec_rleEncode (S : List Byte) : fnRleDec (rleEncode S) = .ok ⟨S, 0, 0⟩ := by
  obtain ⟨heven, -⟩ := rleEncode_maximal S
  rw [fnRleDec_even heven, expandRecords_rleEncode]

/-! ### The encoder on a run -/

/-- Bytes that continue a run are counted, as long as the count fits its record (R120). -/
theorem rleEncodeFrom_replicate_append (v : Byte) (bs : List Byte) {n m : Nat} (h : n + m ≤ 255) :
    rleEncodeFrom v n (List.replicate m v ++ bs) = rleEncodeFrom v (n + m) bs := by
  induction m generalizing n with
  | zero => rfl
  | succ m ih =>
    have hroom : n < Config.rleMaxRun := by rw [Config.rleMaxRun]; omega
    rw [List.replicate_succ, List.cons_append, rleEncodeFrom, if_pos ⟨rfl, hroom⟩, ih (by omega), Nat.add_right_comm,
      Nat.add_assoc]

/-- A run ends at another byte or at a count of 255 (R120). -/
theorem rleEncodeFrom_run_ends {v : Byte} {n : Nat} {bs : List Byte} (h : bs.head? = some v → n = 255) :
    rleEncodeFrom v n bs = BitVec.ofNat 8 n :: v :: rleEncode bs := by
  cases bs with
  | nil => rfl
  | cons b bs =>
    have hend : ¬ (b = v ∧ n < Config.rleMaxRun) := by
      rintro ⟨rfl, hlt⟩
      rw [h rfl] at hlt
      exact absurd hlt (by decide)
    rw [rleEncodeFrom, if_neg hend, rleEncode]

/-- A run of at most 255 bytes that cannot be continued is one record (R120). -/
theorem rleEncode_replicate_append {v : Byte} {n : Nat} {bs : List Byte} (hpos : 0 < n) (hn : n ≤ 255)
    (hend : bs.head? = some v → n = 255) :
    rleEncode (List.replicate n v ++ bs) = BitVec.ofNat 8 n :: v :: rleEncode bs := by
  obtain ⟨m, rfl⟩ := Nat.exists_eq_add_of_le' hpos
  rw [List.replicate_succ, List.cons_append, rleEncode, rleEncodeFrom_replicate_append v bs (by omega),
    Nat.add_comm 1 m, rleEncodeFrom_run_ends hend]

/-- A run of `q` times 255 bytes and `r` more (R120). -/
theorem rleEncode_replicate (v : Byte) (q : Nat) {r : Nat} (hr : r < 255) :
    rleEncode (List.replicate (255 * q + r) v) =
      (List.replicate q [(255 : Byte), v]).flatten ++ if r = 0 then [] else [BitVec.ofNat 8 r, v] := by
  induction q with
  | zero =>
    rw [Nat.mul_zero, Nat.zero_add]
    split
    · next hzero => rw [hzero]; rfl
    · next hpos =>
      rw [← List.append_nil (List.replicate r v), rleEncode_replicate_append (Nat.pos_of_ne_zero hpos) hr.le (by simp)]
      rfl
  | succ q ih =>
    rw [show 255 * (q + 1) + r = 255 + (255 * q + r) by omega, List.replicate_add,
      rleEncode_replicate_append (by decide) le_rfl (fun _ => rfl), ih]
    rfl

/-! ### Maximal streams -/

/-- The first record of a maximal stream is as R77 asks, and the others are a maximal stream. -/
theorem rleMaximal_cons {n v : Byte} {rest : List Byte} (h : RleMaximal (n :: v :: rest)) :
    0 < n.toNat ∧ (∀ r ∈ (rleRecords rest).head?, v = r.2 → n = 255) ∧ RleMaximal rest := by
  obtain ⟨heven, hcounts, hchain⟩ := h
  rw [rleRecords] at hcounts hchain
  obtain ⟨hn, hcounts⟩ := List.forall_mem_cons.1 hcounts
  obtain ⟨hfirst, hchain⟩ := List.isChain_cons.1 hchain
  rw [List.length_cons, List.length_cons, Nat.add_assoc, Nat.add_mod_right] at heven
  exact ⟨Nat.pos_of_ne_zero fun hzero => hn (BitVec.eq_of_toNat_eq hzero), hfirst, heven, hcounts, hchain⟩

/-- The bytes of a maximal stream begin with its first record's value (R121). -/
theorem head?_expandRecords {stream : List Byte} (h : RleMaximal stream) :
    (expandRecords stream).head? = (rleRecords stream).head?.map Prod.snd := by
  match stream, h with
  | [], _ => rfl
  | [_], h => exact absurd h.1 Nat.one_ne_zero
  | n :: v :: rest, h =>
    obtain ⟨hpos, -, -⟩ := rleMaximal_cons h
    obtain ⟨m, hm⟩ := Nat.exists_eq_add_of_le' hpos
    rw [expandRecords, hm]
    rfl

/-- The encoder gives a maximal stream back from the bytes it stands for (R122). -/
theorem rleEncode_expandRecords {stream : List Byte} (h : RleMaximal stream) :
    rleEncode (expandRecords stream) = stream := by
  match stream, h with
  | [], _ => rfl
  | [_], h => exact absurd h.1 Nat.one_ne_zero
  | n :: v :: rest, h =>
    obtain ⟨hpos, hnext, hrest⟩ := rleMaximal_cons h
    have hend : (expandRecords rest).head? = some v → n.toNat = 255 := by
      rw [head?_expandRecords hrest, Option.map_eq_some_iff]
      rintro ⟨r, hr, hv⟩
      rw [hnext r hr hv.symm]
      rfl
    rw [expandRecords, rleEncode_replicate_append hpos (Nat.le_of_lt_succ n.isLt) hend, rleEncode_expandRecords hrest,
      BitVec.ofNat_toNat, BitVec.setWidth_eq]

end Sys2Proof.Machine

open Sys2Proof Sys2Proof.Machine

/-- Settles O32, by `n = 255 * (n / 255) + n % 255`. -/
theorem rleRunSplitsAt255 : Obligations.RleRunSplitsAt255 := by
  intro n v
  rw [← rleEncode_replicate v (n / 255) (Nat.mod_lt n (by decide)), Nat.div_add_mod]

/-- Settles O33, by the decoder's function on a stream of odd and of even length. -/
theorem rleDecExpandsRecords : Obligations.RleDecExpandsRecords := by
  intro s hpass
  rw [← s.srcBytes_length, ← expandRecords_eq_flatMap]
  exact ⟨fun hodd => exec_fails hpass (fnRleDec_odd hodd),
    fun heven hfit => exec_succeeds hpass (fnRleDec_even heven) hfit⟩

/-- Settles O34: what the encoder writes is maximal, and of a maximal stream each record is the encoder's. -/
theorem rleRoundTrip : Obligations.RleRoundTrip := by
  refine ⟨fun b => ⟨_, rfl, fnRleDec_rleEncode b⟩, fun stream b hdec => ?_⟩
  obtain rfl : expandRecords stream = b := expandRecords_of_fnRleDec hdec
  rw [fnRleEnc_eq_ok]
  exact ⟨fun henc => henc ▸ rleEncode_maximal _, rleEncode_expandRecords⟩
end

section
/-!
SUPPORT. The LZW decoder on the encoder's stream: the two loops run in lockstep (45_lzw.md R189 to R193).
-/

namespace Sys2Proof.Machine

/-! ### One code -/

/-- An entry of the dictionary is the phrase of its code (R185, R190). -/
theorem phraseOfCode_of_isLzwEntry {d : Dict} {c : Nat} {p : List Byte} (h : IsLzwEntry d c p) :
    phraseOfCode d c = some p := by
  rcases h with ⟨v, rfl, rfl⟩ | ⟨hc, hp⟩
  · rw [phraseOfCode, if_pos v.isLt, BitVec.ofNat_toNat, BitVec.setWidth_eq]
  · rw [phraseOfCode, if_neg (by omega), hp]

/-- A decoder's insertion keeps every entry under its code (R186, R190). -/
theorem phraseOfCode_decoderInsert {d : Dict} {c : Nat} {p : List Byte} (prev cur : List Byte)
    (h : phraseOfCode d c = some p) : phraseOfCode (decoderInsert d prev cur) c = some p := by
  rw [decoderInsert]
  split
  · exact h
  · exact phraseOfCode_insertPhrase h

/-- An insertion that assigns a code assigns the next one, to the inserted phrase (R186). -/
theorem eq_of_phraseOfCode_insertPhrase {d : Dict} {p q : List Byte} {c : Nat} (hold : nextCode d ≤ c)
    (hc : phraseOfCode (insertPhrase d p) c = some q) : c = nextCode d ∧ q = p := by
  have hlt : c < nextCode (insertPhrase d p) := (phraseOfCode_isSome _ c).1 (by rw [hc]; rfl)
  rw [insertPhrase] at hc hlt
  split at hc
  · next hroom =>
    rw [if_pos hroom, nextCode, List.length_append, List.length_singleton] at hlt
    obtain rfl : c = nextCode d := by rw [nextCode] at hold ⊢; omega
    rw [phraseOfCode, if_neg (by rw [nextCode]; omega), nextCode, Nat.add_sub_cancel_left,
      List.getElem?_concat_length] at hc
    exact ⟨rfl, (Option.some.inj hc).symm⟩
  · next hfull =>
    rw [if_neg hfull] at hlt
    omega

theorem currentPhrase_of_known {d : Dict} {c : Nat} {p : List Byte} (h : phraseOfCode d c = some p)
    (prev : List Byte) : currentPhrase d prev c = .ok p := by
  cases prev <;> simp only [currentPhrase, h]

/-- The next code stands for the previous phrase and that phrase's first byte (R191). -/
theorem currentPhrase_nextCode (d : Dict) (f : Byte) (fs : List Byte) :
    currentPhrase d (f :: fs) (nextCode d) = .ok (f :: fs ++ [f]) := by
  have hnone : phraseOfCode d (nextCode d) = none := by
    rw [← Option.not_isSome_iff_eq_none, phraseOfCode_isSome]
    exact lt_irrefl _
  simp only [currentPhrase, hnone, if_true]

/-- The decoder, one insertion behind the encoder, reads each code as the encoder's phrase: it has the code's entry, or
the entry is the one it still lacks (R190, R191). -/
theorem currentPhrase_of_decoderInsert {d : Dict} {prev cur : List Byte} {c : Nat} (hne : cur ≠ [])
    (h : phraseOfCode (decoderInsert d prev cur) c = some cur) : currentPhrase d prev c = .ok cur := by
  rcases lt_or_ge c (nextCode d) with hknown | hbeyond
  · obtain ⟨p, hp⟩ := Option.isSome_iff_exists.1 ((phraseOfCode_isSome d c).2 hknown)
    have hkept := phraseOfCode_decoderInsert prev cur hp
    rw [currentPhrase_of_known hp, Option.some.inj (hkept.symm.trans h)]
  · match prev, cur with
    | [], _ => exact absurd ((phraseOfCode_isSome d c).1 (Option.isSome_of_eq_some h)) (not_lt.2 hbeyond)
    | _, [] => exact absurd rfl hne
    | f :: fs, x :: xs =>
      obtain ⟨rfl, hcur⟩ := eq_of_phraseOfCode_insertPhrase hbeyond h
      obtain ⟨rfl, hxs⟩ := List.cons_eq_cons.1 hcur
      rw [currentPhrase_nextCode, hxs]
      rfl

/-! ### The loops -/

/-- A round of the decoder on a code that fits two bytes (R81, R190). -/
theorem lzwDecodeFrom_code {d d' : Dict} {prev cur out rest : List Byte} {c : Nat} (hfits : c < 65536)
    (hcur : currentPhrase d prev c = .ok cur)
    (hrest : lzwDecodeFrom (decoderInsert d prev cur) cur rest = .ok (out, d')) :
    lzwDecodeFrom d prev (toLE 2 c ++ rest) = .ok (cur ++ out, d') := by
  have hvalue : leValue [BitVec.ofNat 8 c, BitVec.ofNat 8 (c / 256)] = c := leValue_toLE (n := 2) hfits
  rw [toLE, toLE, toLE, List.cons_append, List.cons_append, List.nil_append, lzwDecodeFrom, hvalue, hcur]
  simp only
  rw [hrest]

/-- The first byte is all that an insertion takes from the current phrase (R190). -/
theorem decoderInsert_append (d : Dict) (prev : List Byte) {cur : List Byte} (hne : cur ≠ []) (bs : List Byte) :
    decoderInsert d prev (cur ++ bs) = decoderInsert d prev cur := by
  rw [decoderInsert, decoderInsert, List.take_append_of_le_length (List.length_pos_iff.2 hne)]

/-- The decoder's round on a code that the encoder emits, one insertion ahead (R189, R190). -/
theorem lzwDecodeFrom_emitted {d e d' : Dict} {prev cur out rest : List Byte} {c : Nat} (hne : cur ≠ [])
    (hbehind : decoderInsert e prev cur = d) (hcode : codeOfPhrase d cur = some c) (hcap : nextCode d ≤ 65536)
    (hrest : lzwDecodeFrom d cur rest = .ok (out, d')) :
    lzwDecodeFrom e prev (toLE 2 c ++ rest) = .ok (cur ++ out, d') := by
  subst hbehind
  have hphrase := phraseOfCode_of_isLzwEntry (isLzwEntry_of_codeOfPhrase hcode)
  exact lzwDecodeFrom_code ((codeOfPhrase_lt hcode).trans_le hcap) (currentPhrase_of_decoderInsert hne hphrase) hrest

section
variable {d : Dict} {cur : List Byte} {c : Nat}

/-- The encoder's code of the last phrase (R188). -/
theorem lzwEncodeFrom_last (hne : cur ≠ []) (hcode : codeOfPhrase d cur = some c) :
    lzwEncodeFrom d cur [] = ([c], d) := by
  rw [lzwEncodeFrom, if_neg hne, hcode, Option.getD_some]

/-- A phrase that has a code takes the next byte in (R188). -/
theorem lzwEncodeFrom_longer {b : Byte} (hlonger : codeOfPhrase d (cur ++ [b]) = some c) (bs : List Byte) :
    lzwEncodeFrom d cur (b :: bs) = lzwEncodeFrom d (cur ++ [b]) bs := by
  rw [lzwEncodeFrom, hlonger]
  exact if_pos rfl

/-- Where the phrase with the next byte has no code, the phrase's code is emitted (R188). -/
theorem lzwEncodeFrom_emit {b : Byte} (hcode : codeOfPhrase d cur = some c)
    (hlongest : codeOfPhrase d (cur ++ [b]) = none) (bs : List Byte) :
    lzwEncodeFrom d cur (b :: bs) = (c :: (lzwEncodeFrom (insertPhrase d (cur ++ [b])) [b] bs).1,
      (lzwEncodeFrom (insertPhrase d (cur ++ [b])) [b] bs).2) := by
  rw [lzwEncodeFrom, hlongest, if_neg (by simp), hcode, Option.getD_some]

end

/-- The lockstep: a decoder whose dictionary `e` lacks only the encoder's latest insertion decodes the rest of the
encoder's stream to the current phrase and the rest of the input, and ends with the encoder's dictionary (R189,
R193). -/
theorem lzwDecodeFrom_lzwEncodeFrom (bs : List Byte) {d e : Dict} {prev cur : List Byte} {c : Nat} (hne : cur ≠ [])
    (hbehind : decoderInsert e prev cur = d) (hcode : codeOfPhrase d cur = some c) (hcap : nextCode d ≤ 65536) :
    lzwDecodeFrom e prev ((lzwEncodeFrom d cur bs).1.flatMap (toLE 2)) =
      .ok (cur ++ bs, (lzwEncodeFrom d cur bs).2) := by
  induction bs generalizing d e prev cur c with
  | nil =>
    have hround := lzwDecodeFrom_emitted hne hbehind hcode hcap (rest := []) rfl
    rwa [lzwEncodeFrom_last hne hcode]
  | cons b bs ih =>
    cases hlonger : codeOfPhrase d (cur ++ [b]) with
    | some c' =>
      rw [lzwEncodeFrom_longer hlonger, ih (by simp) ((decoderInsert_append e prev hne [b]).trans hbehind) hlonger hcap,
        List.append_assoc, List.singleton_append]
    | none =>
      rw [lzwEncodeFrom_emit hcode hlonger]
      refine lzwDecodeFrom_emitted hne hbehind hcode hcap (ih (by simp) ?_ (codeOfPhrase_byte _ b) ?_)
      · rw [decoderInsert, if_neg hne]
        rfl
      · exact nextCode_insertPhrase_le _ hcap

/-- The decoder restores an encoded string and ends with the encoder's next code (R193). -/
theorem fnLzwDec_of_fnLzwEnc {S : List Byte} {o : Output} (h : fnLzwEnc S = .ok o) :
    fnLzwDec o.out = .ok ⟨S, o.aux, 0⟩ := by
  cases h
  have heven : ((lzwEncodeFrom [] [] S).1.flatMap (toLE 2)).length % 2 = 0 := by
    rw [length_flatMap_of_length_eq fun x _ => toLE_length 2 x]
    omega
  show fnLzwDec ((lzwEncodeFrom [] [] S).1.flatMap (toLE 2)) = _
  rw [fnLzwDec, if_neg (by omega)]
  cases S with
  | nil => rfl
  | cons b bs =>
    rw [lzwEncodeFrom_first, lzwDecodeFrom_lzwEncodeFrom bs (d := []) (by simp) rfl (codeOfPhrase_byte [] b)
      (by decide)]
    rfl

end Sys2Proof.Machine
end

section
/-!
SUPPORT. An encoder's command and then its decoder's command on the block (41_rle.md R122, 44_huffman_container.md R179,
45_lzw.md R193).
-/

namespace Sys2Proof.Machine

/-! ### The functions -/

/-- Each decoder's function restores the input of its encoder's function. -/
theorem commandFunction_restores {enc dec : Instr}
    (hpair : (enc, dec) ∈ [(Instr.rleEnc, Instr.rleDec), (.hufEnc, .hufDec), (.lzwEnc, .lzwDec)]) {S TB : List Byte}
    {NB : Nat} {o : Output} (hS : S.length < 2 ^ 32) (h : commandFunction enc S TB NB = .ok o) (TB' : List Byte)
    (NB' : Nat) : ∃ o', commandFunction dec o.out TB' NB' = .ok o' ∧ o'.out = S := by
  simp only [List.mem_cons, Prod.mk.injEq, List.not_mem_nil, or_false] at hpair
  rcases hpair with ⟨rfl, rfl⟩ | ⟨rfl, rfl⟩ | ⟨rfl, rfl⟩
  · cases h
    exact ⟨_, fnRleDec_rleEncode S, rfl⟩
  · obtain ⟨out, aux, bits, henc, hdec⟩ := containerRoundTrip S hS
    cases henc.symm.trans h
    exact ⟨_, hdec, rfl⟩
  · exact ⟨_, fnLzwDec_of_fnLzwEnc h, rfl⟩

/-! ### The commands -/

/-- A command that leaves no error code has completed with its function's output (R102, R104). -/
theorem exec_completedWith_of_errCode_eq_zero {i : Instr} {s t : State} (ht : exec i s = .next t)
    (hcode : t.errCode = 0) :
    ∃ o, s.functionResult i = .ok o ∧ s.CompletedWith t o := by
  obtain rfl := exec_eq_next.1 ht
  cases hrun : s.run (usesTree i) (commandFunction i) with
  | ok o =>
    obtain ⟨hpass, hf, hfit⟩ := State.run_eq_ok.1 hrun
    obtain ⟨t, ht, hdone⟩ := exec_succeeds hpass hf hfit
    rw [exec_eq, hrun] at ht
    cases ht
    exact ⟨o, hf, hdone⟩
  | error e =>
    rw [hrun] at hcode
    exact absurd (State.complete_errCode_eq.2 rfl) (hcode ▸ (errorByte_ne_zero e).symm)

/-- A source set to the place of a completed command's output holds that output (R24, R28, R104). -/
theorem State.CompletedWith.srcBytes_eq {s t u : State} {o : Output} (h : s.CompletedWith t o) (hmem : u.mem = t.mem)
    (haddr : u.srcAddr = s.dstAddr) (hlen : u.srcLen = t.resultLen) : u.srcBytes = o.out := by
  obtain ⟨-, -, -, -, hresult, -, -, hout, -⟩ := h
  rw [srcBytes, bufferBytes, src, hmem, haddr, hlen, hresult]
  exact hout

end Sys2Proof.Machine

open Sys2Proof Sys2Proof.Machine

/-- Settles O59: the second command's source holds the first one's output, from which its function restores the
input. -/
theorem encodeThenDecodeRestoresSource : Obligations.EncodeThenDecodeRestoresSource := by
  intro enc dec s t a n hpair ht hcode hpass hroom
  obtain ⟨o, hf, hdone⟩ := exec_completedWith_of_errCode_eq_zero ht hcode
  have hS : s.srcBytes.length < 2 ^ 32 := s.srcBytes_length ▸ s.src_len_lt
  obtain ⟨o', hdec, hout⟩ := commandFunction_restores hpair hS hf _ _
  have hsrc := hdone.srcBytes_eq
    (u := { t with srcAddr := s.dstAddr, srcLen := t.resultLen, dstAddr := a, dstCap := n }) rfl rfl rfl
  obtain ⟨u, hu, hcompleted⟩ := exec_succeeds hpass (by rw [State.functionResult, hsrc]; exact hdec)
    (by rw [hout, s.srcBytes_length]; exact hroom)
  exact ⟨u, o', hu, hout, hcompleted⟩
end

section
/-!
SUPPORT. HUF_PACK and HUF_UNPACK on a tree that loads (42_huffman.md R139 to R142).
-/

namespace Sys2Proof.Machine

variable {S TB : List Byte} {t : Tree}

/-- An input whose bytes all have codes is packed (R139, R140). -/
theorem fnHufPack_of_allCoded (hTB : loadTree TB = .ok (some t)) (hS : AllCoded t S) :
    fnHufPack S TB = .ok ⟨packBits (messageBits t S), 0, (messageBits t S).length⟩ := by
  by_cases hempty : S = []
  · subst hempty
    have hbits : messageBits t [] = [] := rfl
    rw [fnHufPack_nil hTB, hbits]
    rfl
  · rw [fnHufPack, hTB]
    simp only
    rw [if_neg hempty, encodeBits_messageBits hS]

/-- An input with a byte that has no code is refused (R139). -/
theorem fnHufPack_of_not_allCoded (hTB : loadTree TB = .ok (some t)) (hS : ¬ AllCoded t S) :
    fnHufPack S TB = .error .noCode := by
  have hne : S ≠ [] := fun hempty => hS (hempty ▸ fun _ => nofun)
  have hbits : encodeBits t S = none :=
    Option.eq_none_iff_forall_ne_some.2 fun _ h => hS (allCoded_of_encodeBits h)
  rw [fnHufPack, hTB]
  simp only
  rw [if_neg hne, hbits]

/-- Without a tree no byte has a code (R139). -/
theorem fnHufPack_no_tree (hTB : loadTree TB = .ok none) (hS : S ≠ []) : fnHufPack S TB = .error .noCode := by
  rw [fnHufPack, hTB]
  exact if_neg hS

theorem fnHufPack_malformed {e : ErrCode} (hTB : loadTree TB = .error e) : fnHufPack S TB = .error e := by
  rw [fnHufPack, hTB]

theorem fnHufUnpack_of_ok {n : Nat} {out : List Byte} (h : decodePayload S TB n = .ok out) :
    fnHufUnpack S TB n = .ok ⟨out, 0, 0⟩ := by
  rw [fnHufUnpack, h]

theorem fnHufUnpack_of_error {n : Nat} {e : ErrCode} (h : decodePayload S TB n = .error e) :
    fnHufUnpack S TB n = .error e := by
  rw [fnHufUnpack, h]

end Sys2Proof.Machine

open Sys2Proof Sys2Proof.Machine

/-- Settles O48: a built tree has a code for every byte, and the walk reads a message back from its codes. -/
theorem huffmanPackUnpackRoundTrip : Obligations.HuffmanPackUnpackRoundTrip := by
  intro b hb
  obtain ⟨t, ht, -⟩ := build_some hb
  have hload := loadTree_ser (treeSymbols_build_nodup ht)
  have hcoded := allCoded_build ht
  exact ⟨t, _, _, ht, fnHufPack_of_allCoded hload hcoded, fnHufUnpack_of_ok (decodePayload_messageBits hload hcoded)⟩

/-- Settles O46, by the cases of the loaded tree and the codes of the input. -/
theorem hufPackWritesPayload : Obligations.HufPackWritesPayload := by
  refine fun s hpass => ⟨fun e he => exec_fails hpass (fnHufPack_malformed he), fun tr htr hempty => ?_,
    fun hnone hne => exec_fails hpass (fnHufPack_no_tree hnone (mt State.srcBytes_eq_nil.1 hne)),
    fun tr htr huncoded => exec_fails hpass (fnHufPack_of_not_allCoded htr huncoded), fun tr htr hcoded hroom => ?_⟩
  · exact exec_succeeds hpass ((State.functionResult_empty hempty _).trans (fnHufPack_nil htr)) (Nat.zero_le _)
  · exact exec_succeeds hpass (fnHufPack_of_allCoded htr hcoded) ((packBits_length _).trans_le hroom)
end

section
/-!
SUPPORT. The walk of the bit-unpacker (42_huffman.md R143, R144): it succeeds exactly on the codes of a message, and the
shape of the tree says which error it makes on any other bits.
-/

namespace Sys2Proof.Machine

/-! ### One step of the walk -/

section
variable {l r nl nr : Tree} {b : Bool}

/-- A step to a leaf gives its symbol and goes on at the root. -/
theorem decodeWalk_to_leaf {s : Byte} (h : (if b then nr else nl) = .leaf s) (atRoot : Bool) (bs : Bits) :
    decodeWalk l r (.node nl nr) atRoot (b :: bs) = (decodeWalk l r (.node l r) true bs).map (s :: ·) := by
  rw [decodeWalk, h]
  cases decodeWalk l r (.node l r) true bs <;> rfl

/-- A step to an internal node goes on there. -/
theorem decodeWalk_to_node {nl' nr' : Tree} (h : (if b then nr else nl) = .node nl' nr') (atRoot : Bool) (bs : Bits) :
    decodeWalk l r (.node nl nr) atRoot (b :: bs) = decodeWalk l r (.node nl' nr') false bs := by
  rw [decodeWalk, h]

end

/-! ### The outcome of a symbol and the bits after its code -/

section
variable {s : Byte} {rest : Except ErrCode (List Byte)}

theorem ok_of_map_cons_eq_ok {out : List Byte} (h : rest.map (s :: ·) = .ok out) :
    ∃ out', rest = .ok out' ∧ out = s :: out' := by
  cases rest with
  | ok out' => cases h; exact ⟨out', rfl, rfl⟩
  | error e => cases h

theorem error_of_map_cons_eq_error {e : ErrCode} (h : rest.map (s :: ·) = .error e) : rest = .error e := by
  cases rest with
  | ok out' => cases h
  | error e' => cases h; rfl

end

/-- A symbol's code in front of a message's bits makes a longer message. -/
theorem messageBits_of_code {t : Tree} {s : Byte} {c bits : Bits} {msg : List Byte} (hcode : codeOf t s = some c)
    (hmsg : AllCoded t msg ∧ bits = messageBits t msg) :
    AllCoded t (s :: msg) ∧ c ++ bits = messageBits t (s :: msg) := by
  obtain ⟨hcoded, hbits⟩ := hmsg
  refine ⟨List.forall_mem_cons.2 ⟨?_, hcoded⟩, by rw [messageBits_cons hcode, hbits]⟩
  rw [hcode]
  exact Option.some_ne_none c

/-! ### What the walk accepts -/

/-- A walk that stands where the path `p` has led it and ends at the root has read, from `p` on, the codes of its
output. -/
theorem messageBits_of_decodeWalk {l r nl nr : Tree} {p bits : Bits} {atRoot : Bool} {out : List Byte}
    (ht : (treeSymbols (.node l r)).Nodup) (hp : ∀ q, leafAt (.node l r) (p ++ q) = leafAt (.node nl nr) q)
    (hroot : atRoot = true → p = []) (h : decodeWalk l r (.node nl nr) atRoot bits = .ok out) :
    AllCoded (.node l r) out ∧ p ++ bits = messageBits (.node l r) out := by
  induction bits generalizing nl nr p atRoot out with
  | nil =>
    rw [decodeWalk] at h
    split at h
    · next hr => cases h; exact ⟨nofun, by rw [hroot hr]; rfl⟩
    · cases h
  | cons b bs ih =>
    have hstep (q : Bits) : leafAt (.node l r) (p ++ [b] ++ q) = leafAt (if b then nr else nl) q := by
      rw [List.append_assoc, hp, List.singleton_append, leafAt_node_cons]
    cases hnext : (if b then nr else nl) with
    | leaf s =>
      rw [decodeWalk_to_leaf hnext] at h
      obtain ⟨out', hrest, rfl⟩ := ok_of_map_cons_eq_ok h
      have hcode : codeOf (.node l r) s = some (p ++ [b]) := by
        rw [codeOf_node_iff ht, ← List.append_nil (p ++ [b]), hstep, hnext]
        rfl
      rw [List.append_cons]
      exact messageBits_of_code hcode (ih (p := []) (fun _ => rfl) (fun _ => rfl) hrest)
    | node nl' nr' =>
      rw [decodeWalk_to_node hnext] at h
      rw [List.append_cons]
      exact ih (atRoot := false) (fun q => by rw [hstep, hnext]) nofun h

/-- A one-leaf tree decodes only bits 0, the code of its symbol. -/
theorem messageBits_of_decodeLeafBits {s : Byte} {bits : Bits} {out : List Byte}
    (h : decodeLeafBits s bits = .ok out) : AllCoded (.leaf s) out ∧ bits = messageBits (.leaf s) out := by
  induction bits generalizing out with
  | nil => cases h; exact ⟨nofun, rfl⟩
  | cons b bs ih =>
    cases b with
    | true => cases h
    | false =>
      rw [decodeLeafBits_false] at h
      obtain ⟨out', hrest, rfl⟩ := ok_of_map_cons_eq_ok h
      exact messageBits_of_code (by rw [codeOf_leaf, if_pos rfl]) (ih hrest)

/-- Bits decode to a message exactly where they are its codes (R143, R145). -/
theorem decodeBits_eq_ok_iff {t : Tree} (ht : (treeSymbols t).Nodup) {bits : Bits} {msg : List Byte} :
    decodeBits t bits = .ok msg ↔ AllCoded t msg ∧ bits = messageBits t msg := by
  refine ⟨fun h => ?_, fun ⟨hcoded, hbits⟩ => hbits ▸ decodeBits_messageBits hcoded⟩
  cases t with
  | leaf s => exact messageBits_of_decodeLeafBits h
  | node l r => exact messageBits_of_decodeWalk (p := []) ht (fun _ => rfl) (fun _ => rfl) h

/-! ### The errors of the walk -/

theorem decodeLeafBits_error {s : Byte} {bits : Bits} {e : ErrCode} (h : decodeLeafBits s bits = .error e) :
    e = .pathInvalid := by
  induction bits with
  | nil => cases h
  | cons b bs ih =>
    cases b with
    | true => cases h; rfl
    | false =>
      rw [decodeLeafBits_false] at h
      exact ih (error_of_map_cons_eq_error h)

theorem decodeWalk_error {l r nl nr : Tree} {atRoot : Bool} {bits : Bits} {e : ErrCode}
    (h : decodeWalk l r (.node nl nr) atRoot bits = .error e) : e = .pathIncomplete := by
  induction bits generalizing nl nr atRoot with
  | nil =>
    rw [decodeWalk] at h
    split at h <;> cases h
    rfl
  | cons b bs ih =>
    cases hnext : (if b then nr else nl) with
    | leaf s => rw [decodeWalk_to_leaf hnext] at h; exact ih (error_of_map_cons_eq_error h)
    | node nl' nr' => rw [decodeWalk_to_node hnext] at h; exact ih h

/-- The walk fails with E_PATH_INVALID in a one-leaf tree and with E_PATH_INCOMPLETE in any other (R144). -/
theorem decodeBits_error {t : Tree} {bits : Bits} {e : ErrCode} (h : decodeBits t bits = .error e) :
    e = if leafCount t = 1 then .pathInvalid else .pathIncomplete := by
  cases t with
  | leaf s => exact decodeLeafBits_error h
  | node l r =>
    have hleaves : leafCount (.node l r) ≠ 1 := by
      rw [leafCount_eq, internalCount]; omega
    rw [if_neg hleaves]
    exact decodeWalk_error h

/-! ### The payload -/

section
variable {P T : List Byte} {n : Nat}

theorem decodePayload_malformed {e : ErrCode} (hT : loadTree T = .error e) : decodePayload P T n = .error e := by
  rw [decodePayload, hT]

theorem decodePayload_no_tree (hT : loadTree T = .ok none) (hn : n ≠ 0) : decodePayload P T n = .error .treeEmpty := by
  rw [decodePayload, hT]
  exact if_neg hn

theorem decodePayload_short {t : Tree} (hT : loadTree T = .ok (some t)) (hn : 8 * P.length < n) :
    decodePayload P T n = .error .bitsShort := by
  rw [decodePayload, hT]
  exact if_pos hn

/-- With a tree and enough bits, the walk decides (R141, R142). -/
theorem decodePayload_walk {t : Tree} (hT : loadTree T = .ok (some t)) (hn : n ≤ 8 * P.length) :
    decodePayload P T n = decodeBits t (unpackBits P n) := by
  rw [decodePayload, hT]
  exact if_neg hn.not_gt

end

end Sys2Proof.Machine

open Sys2Proof Sys2Proof.Machine

/-- Settles O47, by the checks in their order; the walk's outcome on the bits is that of the messages they can be. -/
theorem hufUnpackDecodesMessage : Obligations.HufUnpackDecodesMessage := by
  intro s hpass
  have hfail {e : ErrCode} (h : decodePayload s.srcBytes s.treeBytes s.inBits = .error e) :=
    exec_fails hpass (fnHufUnpack_of_error h)
  have hsucceed {out : List Byte} (h : decodePayload s.srcBytes s.treeBytes s.inBits = .ok out) :=
    exec_succeeds hpass (fnHufUnpack_of_ok h)
  have hlen := s.srcBytes_length
  refine ⟨fun e he => hfail (decodePayload_malformed he), fun hnone hbits => ?_,
    fun hnone hbits => hfail (decodePayload_no_tree hnone hbits),
    fun tr htr hshort => hfail (decodePayload_short htr (by rwa [hlen])),
    fun tr msg htr henough hcoded hbits hroom => ?_, fun tr htr henough hnot => ?_⟩
  · exact hsucceed (hbits ▸ decodePayload_no_bits hnone) (Nat.zero_le _)
  · refine hsucceed ?_ hroom
    rw [decodePayload_walk htr (by rwa [hlen]), hbits, decodeBits_messageBits hcoded]
  · refine hfail ?_
    rw [decodePayload_walk htr (by rwa [hlen])]
    cases hwalk : decodeBits tr (unpackBits s.srcBytes s.inBits) with
    | ok msg => exact absurd ⟨msg, (decodeBits_eq_ok_iff (loadTree_nodup htr)).1 hwalk⟩ hnot
    | error e => rw [decodeBits_error hwalk]
end

section
/-!
SUPPORT. HUF_DEC on the block (44_huffman_container.md R177), and the payload bytes that it does not read (42_huffman.md
R142).
-/

namespace Sys2Proof.Machine

/-- The first `n` bits of a byte string do not depend on the bytes after them (R79). -/
theorem unpackBits_append {P : List Byte} {n : Nat} (hn : n ≤ 8 * P.length) (X : List Byte) :
    unpackBits (P ++ X) n = unpackBits P n := by
  rw [unpackBits, List.flatMap_append, List.take_append_of_le_length (by rwa [flatMap_bitsOfByte_length]), unpackBits]

/-- Payload bytes past the bit count do not matter (R142). -/
theorem decodePayload_append {P : List Byte} {n : Nat} (hn : n ≤ 8 * P.length) (X T : List Byte) :
    decodePayload (P ++ X) T n = decodePayload P T n := by
  cases hT : loadTree T with
  | error e => rw [decodePayload_malformed hT, decodePayload_malformed hT]
  | ok t? =>
    cases t? with
    | none => rw [decodePayload, decodePayload, hT]
    | some t =>
      have hn' : n ≤ 8 * (P ++ X).length := by rw [List.length_append]; omega
      rw [decodePayload_walk hT hn', decodePayload_walk hT hn, unpackBits_append hn]

end Sys2Proof.Machine

open Sys2Proof Sys2Proof.Machine

/-- Settles O50: the header's fields give the tree region and the payload back, and no bit past the count is read. -/
theorem hufDecReadsContainer : Obligations.HufDecReadsContainer := by
  refine ⟨fun s n T P hpass hn hsrc => ?_, fun P X T n hn => decodePayload_append hn X T⟩
  have hT : T.length < 2 ^ 64 := by
    have hlen := congrArg List.length hsrc
    have hbound := s.src_len_lt
    simp only [State.srcBytes_length, List.length_append] at hlen
    omega
  have hdec : s.functionResult .hufDec = (decodePayload P T n).map fun out => ⟨out, T.length, n⟩ := by
    show fnHufDec s.srcBytes = _
    rw [hsrc]
    exact fnHufDec_container P hn hT
  refine ⟨fun e he => exec_fails hpass ?_, fun out hout hroom => exec_succeeds hpass ?_ hroom⟩
  · rw [hdec, he]; rfl
  · rw [hdec, hout]; rfl
end

section
/-!
SUPPORT. The codes of a legal tree form a prefix code (42_huffman.md R138).
-/

namespace Sys2Proof.Machine

/-- Every tree that the block uses has distinct symbols (R134, R170). -/
theorem LegalTree.nodup {t : Tree} (h : LegalTree t) : (treeSymbols t).Nodup := by
  obtain ⟨T, hT⟩ | ⟨S, hS⟩ := h
  · exact loadTree_nodup hT
  · exact treeSymbols_build_nodup hS

/-- A leaf has no children: a path to a leaf goes on to no other (R138). -/
theorem leafAt_append {t : Tree} {p q : Bits} {x y : Byte} (hp : leafAt t p = some x)
    (hq : leafAt t (p ++ q) = some y) : x = y := by
  induction p generalizing t with
  | nil =>
    cases t with
    | leaf z =>
      cases q with
      | nil => exact Option.some.inj (hp.symm.trans hq)
      | cons b q => cases hq
    | node l r => cases hp
  | cons b p ih =>
    cases t with
    | leaf z => cases hp
    | node l r =>
      rw [leafAt_node_cons] at hp
      rw [List.cons_append, leafAt_node_cons] at hq
      exact ih hp hq

/-- Only a symbol's own code begins with its code (R138). -/
theorem eq_of_codeOf_prefix {t : Tree} {x y : Byte} {p q : Bits} (hp : codeOf t x = some p) (hq : codeOf t y = some q)
    (hprefix : p <+: q) : x = y := by
  cases t with
  | leaf z =>
    have hmem {w : Byte} {c : Bits} (h : codeOf (.leaf z) w = some c) : w = z :=
      List.mem_singleton.1 (codeOf_ne_none.1 (by rw [h]; exact Option.some_ne_none c))
    rw [hmem hp, hmem hq]
  | node l r =>
    obtain ⟨rest, rfl⟩ := hprefix
    exact leafAt_append (leafAt_of_codeOf hp) (leafAt_of_codeOf hq)

theorem codeOf_ne_nil {t : Tree} {x : Byte} {p : Bits} (h : codeOf t x = some p) : p ≠ [] := by
  rintro rfl
  cases t with
  | leaf z =>
    rw [codeOf_leaf] at h
    split at h <;> cases h
  | node l r => cases leafAt_of_codeOf h

end Sys2Proof.Machine

open Sys2Proof Sys2Proof.Machine

/-- Settles O39: a code is a path to a leaf, and a leaf has no children. -/
theorem codesArePrefixFree : Obligations.CodesArePrefixFree := fun _ ht =>
  ⟨fun _ _ _ _ hne hp hq hprefix => hne (eq_of_codeOf_prefix hp hq hprefix), fun _ _ hp =>
    ⟨List.length_pos_iff.2 (codeOf_ne_nil hp), codeOf_length_le_of_nodup ht.nodup hp⟩⟩
end

section
/-!
SUPPORT. The merges of the tree builder (42_huffman.md R134): the sequence numbers of a pool are distinct, so each round
has one least entry; and the sizes of a built tree.
-/

namespace Sys2Proof.Machine

/-- The entries of a pool have distinct sequence numbers, all below the next one `q` (R134). -/
structure PoolNumbered (q : Nat) (pool : List PoolEntry) : Prop where
  distinct : (pool.map PoolEntry.seq).Nodup
  below : ∀ e ∈ pool, e.seq < q

theorem PoolNumbered.perm {q : Nat} {pool pool' : List PoolEntry} (h : PoolNumbered q pool) (hperm : pool'.Perm pool) :
    PoolNumbered q pool' where
  distinct := (hperm.map _).nodup_iff.2 h.distinct
  below := fun e he => h.below e (hperm.subset he)

/-- A round takes two entries out and numbers the new one `q` (R134). -/
theorem PoolNumbered.round {q : Nat} {a b e : PoolEntry} {others : List PoolEntry}
    (h : PoolNumbered q (a :: b :: others)) (he : e.seq = q) : PoolNumbered (q + 1) (others ++ [e]) := by
  have hothers : ∀ f ∈ others, f.seq < q := fun f hf => h.below f (by simp [hf])
  constructor
  · have hnodup : (others.map PoolEntry.seq).Nodup := h.distinct.of_cons.of_cons
    rw [List.map_append, List.map_singleton, ← List.concat_eq_append, List.nodup_concat]
    refine ⟨fun hmem => ?_, hnodup⟩
    obtain ⟨f, hf, hseq⟩ := List.mem_map.1 hmem
    exact absurd (hothers f hf) (by omega)
  · intro f hf
    rcases List.mem_append.1 hf with hf | hf
    · exact (hothers f hf).trans (Nat.lt_succ_self q)
    · rw [List.mem_singleton.1 hf]; omega

/-- An entry that none of a pool with distinct numbers comes before is less than every one (R134). -/
theorem less_of_before_eq_false {a : PoolEntry} {pool : List PoolEntry}
    (hdistinct : ((a :: pool).map PoolEntry.seq).Nodup) (hleast : ∀ f ∈ pool, f.before a = false) :
    ∀ f ∈ pool, a.Less f := by
  intro f hf
  have hne : f.seq ≠ a.seq := fun heq =>
    (List.nodup_cons.1 hdistinct).1 (heq ▸ List.mem_map_of_mem hf)
  have hbefore := hleast f hf
  simp only [PoolEntry.before, Bool.or_eq_false_iff, Bool.and_eq_false_iff, decide_eq_false_iff_not] at hbefore
  simp only [PoolEntry.Less]
  omega

/-- The builder's loop makes the merges of R134. -/
theorem merges_of_mergePool {rounds q : Nat} {pool : List PoolEntry} {t : Tree} (hpool : PoolNumbered q pool)
    (h : mergePool rounds q pool = some t) : Merges q pool t := by
  induction rounds generalizing q pool with
  | zero =>
    match pool, h with
    | [e], h => cases h; exact .last q e
  | succ rounds ih =>
    match pool, h with
    | [e], h => cases h; exact .last q e
    | e :: f :: fs, h =>
      obtain ⟨a, b, others, hperm, hfirst, hsecond, hround⟩ := mergePool_round rounds q e f fs
      have htaken := hpool.perm hperm
      exact .round a b others hperm (less_of_before_eq_false htaken.distinct hfirst)
        (less_of_before_eq_false htaken.distinct.of_cons hsecond) (ih (htaken.round rfl) (hround ▸ h))

/-- The leaves are numbered from 0 (R134). -/
theorem leafPool_numbered (S : List Byte) : PoolNumbered (leafPool S).length (leafPool S) := by
  have hseq : (leafPool S).map PoolEntry.seq = List.range (leafPool S).length := by
    rw [leafPool, List.map_map, List.length_map, List.length_zipIdx, List.range_eq_range']
    exact List.zipIdx_map_snd 0 _
  refine ⟨hseq ▸ List.nodup_range, fun e he => ?_⟩
  exact List.mem_range.1 (hseq ▸ List.mem_map_of_mem he)

/-- The symbols present stand in ascending order (R134). -/
theorem presentSymbols_ascending (S : List Byte) : (presentSymbols S).Pairwise fun x y => x.toNat < y.toNat := by
  have hall : allSymbols.Pairwise fun x y => x.toNat < y.toNat := by
    refine List.pairwise_map.2 (List.pairwise_lt_range.imp_of_mem fun hx hy hlt => ?_)
    simpa [Nat.mod_eq_of_lt (List.mem_range.1 hx), Nat.mod_eq_of_lt (List.mem_range.1 hy)] using hlt
  exact hall.filter _

theorem build_eq_none_iff {S : List Byte} : build S = none ↔ S = [] := by
  refine ⟨fun h => ?_, fun h => h ▸ build_nil⟩
  by_contra hne
  obtain ⟨t, ht, -⟩ := build_some hne
  cases h.symm.trans ht

/-- A built tree has one leaf per symbol present (R132). -/
theorem leafCount_build {S : List Byte} {t : Tree} (h : build S = some t) : leafCount t = distinct S := by
  rw [← treeSymbols_length, (treeSymbols_build_perm h).length_eq]
  rfl

/-- A tree of `k` leaves is serialized in `3k - 1` bytes (R161). -/
theorem ser_length_leafCount (t : Tree) : (ser t).length = 3 * leafCount t - 1 := by
  have := ser_length t
  have := leafCount_eq t
  omega

end Sys2Proof.Machine

open Sys2Proof Sys2Proof.Machine

/-- Settles O36: the leaves are the symbols present, and the builder's loop makes R134's merges of them. -/
theorem builtTreeLeavesAreSymbols : Obligations.BuiltTreeLeavesAreSymbols := by
  refine fun S => ⟨build_eq_none_iff, fun t ht => ⟨leafCount_build ht, treeSymbols_build_nodup ht,
    mem_treeSymbols_build ht, presentSymbols S, presentSymbols_ascending S, fun b => mem_presentSymbols, ?_⟩⟩
  rw [← leafPool_length]
  exact merges_of_mergePool (leafPool_numbered S) ht

/-- Settles O37, by the built tree and the size of its serialization. -/
theorem hufBuildWritesTree : Obligations.HufBuildWritesTree := by
  refine fun s hpass => ⟨fun hempty => ?_, fun hne hroom => ?_⟩
  · exact exec_succeeds hpass ((State.functionResult_empty hempty _).trans fnHufBuild_nil) (Nat.zero_le _)
  · obtain ⟨tr, htr, -⟩ := build_some (mt State.srcBytes_eq_nil.1 hne)
    have hleaves := leafCount_build htr
    have hsize : (ser tr).length = if distinct s.srcBytes = 1 then 2 else 3 * distinct s.srcBytes - 1 := by
      rw [ser_length_leafCount, hleaves]
      split <;> omega
    have hbuild : s.functionResult .hufBuild = .ok ⟨ser tr, distinct s.srcBytes, 0⟩ := by
      show fnHufBuild s.srcBytes = _
      rw [fnHufBuild, htr, ← hleaves]
    obtain ⟨t, ht, hdone⟩ := exec_succeeds hpass hbuild (hsize.trans_le hroom)
    exact ⟨t, tr, htr, ht, hdone, hsize⟩
end

section
/-!
SUPPORT. How the deserializer stops at the first wrong byte (43_tree_serializer.md R162 to R168, R172).
-/

namespace Sys2Proof.Machine

/-! ### The byte that is wrong -/

/-- `Node()` stops with `e` at `d`, with any fuel that its bytes could use up. -/
def DeserState.Fails (d : DeserState) (e : ErrCode) : Prop :=
  ∀ fuel, d.rest.length ≤ fuel → deserNode fuel d = .error e

section
variable {d : DeserState} {e : ErrCode} {m : Byte} {rest : List Byte}

/-- Where a byte is left, so is fuel for one call. -/
theorem DeserState.Fails.of_cons (hrest : d.rest = m :: rest) (h : ∀ fuel, rest.length ≤ fuel →
    deserNode (fuel + 1) d = .error e) : d.Fails e := by
  intro fuel hfuel
  rw [hrest, List.length_cons] at hfuel
  obtain ⟨fuel, rfl⟩ := Nat.exists_eq_add_of_lt hfuel
  exact h _ (by omega)

/-- R163: a marker is missing. -/
theorem DeserState.fails_of_no_marker (hrest : d.rest = []) : d.Fails .treeTrunc := by
  intro fuel _
  cases fuel with
  | zero => rfl
  | succ fuel => rw [deserNode, hrest]

/-- R163: the symbol of a leaf is missing. -/
theorem DeserState.fails_of_no_symbol (hrest : d.rest = [0x01]) : d.Fails .treeTrunc :=
  .of_cons hrest fun fuel _ => by rw [deserNode, hrest]; rfl

/-- R164: a marker above 2. -/
theorem DeserState.fails_of_marker (hrest : d.rest = m :: rest) (hm : 3 ≤ m.toNat) : d.Fails .treeMarker := by
  have hne (n : Byte) (hn : n.toNat < 3) : m ≠ n := fun h => absurd (h ▸ hm) (by omega)
  refine .of_cons hrest fun fuel _ => ?_
  rw [deserNode, hrest]
  simp only [hne 0x01 (by decide), hne 0x02 (by decide), hne 0x00 (by decide), if_false]

/-- R165: the marker 0. -/
theorem DeserState.fails_of_null (hrest : d.rest = 0x00 :: rest) : d.Fails .treeNull :=
  .of_cons hrest fun fuel _ => by rw [deserNode, hrest]; rfl

/-- R166: a symbol seen before. -/
theorem DeserState.fails_of_seen {x : Byte} (hrest : d.rest = 0x01 :: x :: rest) (hx : x ∈ d.seen) :
    d.Fails .treeDup :=
  .of_cons hrest fun fuel _ => by
    rw [deserNode, hrest]
    exact if_pos hx

/-- R167: an internal marker after the last one allowed. -/
theorem DeserState.fails_of_internals (hrest : d.rest = 0x02 :: rest) (hfull : Config.treeMaxInternal ≤ d.internals) :
    d.Fails .treeLarge :=
  .of_cons hrest fun fuel _ => by
    rw [deserNode, hrest]
    exact if_pos (Nat.lt_succ_of_le hfull)

/-! ### The bytes before it -/

/-- An error in a left subtree is the node's. -/
theorem DeserState.fails_of_left (hrest : d.rest = 0x02 :: rest) (hmore : d.internals < Config.treeMaxInternal)
    (hleft : (⟨rest, d.internals + 1, d.seen⟩ : DeserState).Fails e) : d.Fails e := by
  refine .of_cons hrest fun fuel hfuel => ?_
  rw [deserNode, hrest]
  simp only [if_neg (show (0x02 : Byte) ≠ 0x01 by decide), if_pos, if_neg (Nat.not_lt.2 hmore), hleft fuel hfuel]

/-- An error in a right subtree is the node's. -/
theorem DeserState.fails_of_right {l : Tree} (hrest : d.rest = 0x02 :: (ser l ++ rest))
    (hmore : d.internals + 1 + internalCount l ≤ Config.treeMaxInternal) (hdistinct : (treeSymbols l).Nodup)
    (hfresh : ∀ x ∈ treeSymbols l, x ∉ d.seen)
    (hright : ∀ seen, (∀ x, x ∈ seen ↔ x ∈ treeSymbols l ∨ x ∈ d.seen) →
      (⟨rest, d.internals + 1 + internalCount l, seen⟩ : DeserState).Fails e) : d.Fails e := by
  refine .of_cons hrest fun fuel hfuel => ?_
  rw [List.length_append] at hfuel
  obtain ⟨seen, hl, hseen⟩ := deserNode_ser l ⟨ser l ++ rest, d.internals + 1, d.seen⟩ rest (fuel := fuel)
    (by omega) rfl hmore hdistinct hfresh
  have hr := hright seen hseen fuel (Nat.le_of_add_left_le hfuel)
  rw [deserNode, hrest]
  simp only [if_neg (show (0x02 : Byte) ≠ 0x01 by decide), if_pos,
    if_neg (show ¬ Config.treeMaxInternal < d.internals + 1 by omega), hl, hr]

end

/-- After the bytes `os` that begin a tree, an error at the next marker is the whole tree's. -/
theorem DeserState.fails_of_open {os : List (Option Tree)} {d : DeserState} {tail : List Byte} {e : ErrCode}
    (hrest : d.rest = openBytes os ++ tail) (hmore : d.internals + openInternals os ≤ Config.treeMaxInternal)
    (hdistinct : (openSymbols os).Nodup) (hfresh : ∀ x ∈ openSymbols os, x ∉ d.seen)
    (hnext : ∀ seen, (∀ x, x ∈ seen ↔ x ∈ openSymbols os ∨ x ∈ d.seen) →
      (⟨tail, d.internals + openInternals os, seen⟩ : DeserState).Fails e) : d.Fails e := by
  induction os generalizing d with
  | nil =>
    have hd : d = ⟨tail, d.internals, d.seen⟩ := by rw [← show d.rest = tail from hrest]
    exact hd ▸ hnext d.seen fun x => by simp [openSymbols]
  | cons o os ih =>
    cases o with
    | none =>
      simp only [openInternals, ← Nat.add_assoc] at hmore hnext
      exact fails_of_left hrest (by omega) (ih rfl hmore hdistinct hfresh hnext)
    | some l =>
      rw [openBytes, List.cons_append, List.append_assoc] at hrest
      simp only [openInternals, ← Nat.add_assoc] at hmore hnext
      obtain ⟨hl, hos, hapart⟩ := List.nodup_append.1 hdistinct
      refine fails_of_right hrest (by omega) hl (fun x hx => hfresh x (List.mem_append_left _ hx)) fun seen hseen => ?_
      refine ih rfl hmore hos (fun x hx hxs => ?_) fun seen' hseen' => hnext seen' fun x => ?_
      · rcases (hseen x).1 hxs with hxl | hxd
        · exact hapart x hxl x hx rfl
        · exact hfresh x (List.mem_append_right _ hx) hxd
      · rw [hseen', hseen, openSymbols, List.mem_append]
        tauto

/-! ### A row of internal markers -/

theorem openBytes_replicate_none (n : Nat) : openBytes (List.replicate n none) = List.replicate n 0x02 := by
  induction n with
  | zero => rfl
  | succ n ih => rw [List.replicate_succ, openBytes, ih, List.replicate_succ]

theorem openSymbols_replicate_none (n : Nat) : openSymbols (List.replicate n none) = [] := by
  induction n with
  | zero => rfl
  | succ n ih => rw [List.replicate_succ, openSymbols, ih]

theorem openInternals_replicate_none (n : Nat) : openInternals (List.replicate n none) = n := by
  induction n with
  | zero => rfl
  | succ n ih => rw [List.replicate_succ, openInternals, ih, Nat.add_comm]

/-! ### The whole string -/

theorem deser_of_fails {T : List Byte} {e : ErrCode} (h : (⟨T, 0, []⟩ : DeserState).Fails e) : deser T = .error e := by
  rw [deser, h T.length le_rfl]

section
variable {os : List (Option Tree)} {e : ErrCode} (hdistinct : (openSymbols os).Nodup) (hmore : openInternals os ≤ 255)
include hdistinct hmore

/-- What is wrong at the marker after `os` is wrong with the string. -/
theorem deser_openBytes_append {tail : List Byte}
    (hnext : ∀ seen, openSymbols os ⊆ seen → (⟨tail, openInternals os, seen⟩ : DeserState).Fails e) :
    deser (openBytes os ++ tail) = .error e := by
  refine deser_of_fails (DeserState.fails_of_open rfl ?_ hdistinct (fun _ _ => List.not_mem_nil) fun seen hseen => ?_)
  · rwa [Nat.zero_add]
  · rw [Nat.zero_add]
    exact hnext seen fun x hx => (hseen x).2 (.inl hx)

theorem deser_openBytes_no_symbol : deser (openBytes os ++ [0x01]) = .error .treeTrunc :=
  deser_openBytes_append hdistinct hmore fun _ _ => DeserState.fails_of_no_symbol rfl

theorem deser_openBytes_internal (hfull : openInternals os = 255) (rest : List Byte) :
    deser (openBytes os ++ 0x02 :: rest) = .error .treeLarge :=
  deser_openBytes_append hdistinct hmore fun _ _ => DeserState.fails_of_internals rfl hfull.ge

end

/-- R168: a byte after a whole tree. -/
theorem deser_ser_append {t : Tree} {rest : List Byte} (hdistinct : (treeSymbols t).Nodup)
    (hmore : internalCount t ≤ 255) (hrest : rest ≠ []) : deser (ser t ++ rest) = .error .treeSize := by
  obtain ⟨seen, hnode, -⟩ := deserNode_ser t ⟨ser t ++ rest, 0, []⟩ rest (fuel := (ser t ++ rest).length)
    (by simp) rfl (by rwa [Nat.zero_add]) hdistinct fun _ _ => List.not_mem_nil
  rw [deser, hnode]
  exact if_neg hrest

/-! ### The last leaf -/

/-- The last node of a tree in pre-order is a leaf, and the bytes before it begin the tree (R172). -/
theorem exists_last_leaf (t : Tree) : ∃ os x, ser t = openBytes os ++ [0x01, x] ∧
    treeSymbols t = openSymbols os ++ [x] ∧ internalCount t = openInternals os := by
  induction t with
  | leaf x => exact ⟨[], x, rfl, rfl, rfl⟩
  | node l r _ ihr =>
    obtain ⟨os, x, hbytes, hsymbols, hinternals⟩ := ihr
    refine ⟨some l :: os, x, ?_, ?_, ?_⟩
    · simp [ser, openBytes, hbytes]
    · simp [treeSymbols, openSymbols, hsymbols]
    · rw [internalCount, openInternals, hinternals]; omega

/-- Without the last leaf's symbol a serialization is truncated (R172). -/
theorem deser_ser_dropLast {t : Tree} (hdistinct : (treeSymbols t).Nodup) :
    deser (ser t).dropLast = .error .treeTrunc ∧ (ser t).getLast? = (treeSymbols t).getLast? := by
  obtain ⟨os, x, hbytes, hsymbols, hinternals⟩ := exists_last_leaf t
  have hsplit : ser t = openBytes os ++ [0x01] ++ [x] := by rw [hbytes, List.append_assoc]; rfl
  constructor
  · rw [hsplit, List.dropLast_concat]
    exact deser_openBytes_no_symbol (hsymbols ▸ hdistinct).of_append_left (hinternals ▸ internalCount_le hdistinct)
  · rw [hsplit, hsymbols, List.getLast?_concat, List.getLast?_concat]

end Sys2Proof.Machine

open Sys2Proof Sys2Proof.Machine

/-- Settles O38: the symbols of a built tree are distinct, and they fix the other sizes. -/
theorem builtTreeSize : Obligations.BuiltTreeSize := by
  intro S t ht
  have hdistinct := treeSymbols_build_nodup ht
  have hinternals : internalCount t = leafCount t - 1 := by rw [leafCount_eq, Nat.add_sub_cancel]
  refine ⟨leafCount_build ht, hdistinct, hinternals, ?_, ser_length_le hdistinct⟩
  rw [ser_length_leafCount]
  split <;> omega

/-- Settles O41: a built tree has distinct symbols, and the deserializer gives every such tree back. -/
theorem serializedTreeDeserializes : Obligations.SerializedTreeDeserializes :=
  fun _ _ ht => deser_ser (treeSymbols_build_nodup ht)

/-- Settles O43, by the last leaf of a built tree and the rule's examples. -/
theorem truncatedTreeRefused : Obligations.TruncatedTreeRefused := by
  refine ⟨fun S t ht => deser_ser_dropLast (treeSymbols_build_nodup ht), by decide, by decide, by decide, by decide,
    by decide, by decide, by decide, by decide, by decide, ?_⟩
  have hinternals := openInternals_replicate_none 255
  rw [List.replicate_succ', ← openBytes_replicate_none]
  exact deser_openBytes_internal (by rw [openSymbols_replicate_none]; exact List.nodup_nil) hinternals.le hinternals []

/-- Settles O44: the deserializer reads every byte before the wrong one, and an error inside a node is the node's. -/
theorem deserializerFirstError : Obligations.DeserializerFirstError := by
  refine ⟨fun os rest hdistinct hmore => ⟨fun _ => ?_, deser_openBytes_no_symbol hdistinct hmore, ?_, fun m hm => ?_,
    fun x hx => ?_, fun hfull => deser_openBytes_internal hdistinct hmore hfull rest⟩,
    fun t rest => deser_ser_append⟩
  · rw [← List.append_nil (openBytes os)]
    exact deser_openBytes_append hdistinct hmore fun _ _ => DeserState.fails_of_no_marker rfl
  · exact deser_openBytes_append hdistinct hmore fun _ _ => DeserState.fails_of_null rfl
  · exact deser_openBytes_append hdistinct hmore fun _ _ => DeserState.fails_of_marker rfl hm
  · exact deser_openBytes_append hdistinct hmore fun _ hseen => DeserState.fails_of_seen rfl (hseen hx)
end

section
/-!
SUPPORT. The errors of the deserializer and of the payload decoder, none of which is the header's; and the header checks
of HUF_DEC (44_huffman_container.md R178).
-/

namespace Sys2Proof.Machine

/-! ### The errors of a tree and of a payload -/

/-- The errors of `Deser(T)` (R163 to R168). -/
def treeErrors : List ErrCode := [.treeTrunc, .treeMarker, .treeNull, .treeDup, .treeLarge, .treeSize]

/-- Each error of `Node()` is its own or that of a nested call (R162). -/
theorem deserNode_error {fuel : Nat} {d : DeserState} {e : ErrCode} (h : deserNode fuel d = .error e) :
    e ∈ treeErrors := by
  induction fuel generalizing d e with
  | zero => cases h; decide
  | succ fuel ih =>
    rw [deserNode] at h
    split at h
    · cases h; decide
    · split at h
      · split at h
        · cases h; decide
        · split at h <;> cases h
          decide
      · split at h
        · split at h
          · cases h; decide
          · split at h
            · next hleft => cases h; exact ih hleft
            · split at h
              · next hright => cases h; exact ih hright
              · cases h
        · split at h <;> cases h <;> decide

theorem deser_error {T : List Byte} {e : ErrCode} (h : deser T = .error e) : e ∈ treeErrors := by
  rw [deser] at h
  split at h
  · next hnode => cases h; exact deserNode_error hnode
  · split at h <;> cases h
    decide

theorem loadTree_error {T : List Byte} {e : ErrCode} (h : loadTree T = .error e) : e ∈ treeErrors := by
  cases T with
  | nil => cases h
  | cons b bs =>
    rw [loadTree] at h
    split at h
    · next hdeser => cases h; exact deser_error hdeser
    · cases h

/-- The errors of a payload are those of its tree and the four of R141. -/
theorem decodePayload_error {P T : List Byte} {n : Nat} {e : ErrCode} (h : decodePayload P T n = .error e) :
    e ∈ treeErrors ++ [.treeEmpty, .bitsShort, .pathIncomplete, .pathInvalid] := by
  cases hT : loadTree T with
  | error e' =>
    rw [decodePayload_malformed hT] at h
    cases h
    exact List.mem_append_left _ (loadTree_error hT)
  | ok t? =>
    cases t? with
    | none =>
      by_cases hn : n = 0
      · rw [hn, decodePayload_no_bits hT] at h; cases h
      · rw [decodePayload_no_tree hT hn] at h; cases h; decide
    | some t =>
      by_cases hshort : 8 * P.length < n
      · rw [decodePayload_short hT hshort] at h; cases h; decide
      · rw [decodePayload_walk hT (not_lt.1 hshort)] at h
        rw [decodeBits_error h]
        split <;> decide

/-! ### The header checks -/

section
variable {S : List Byte}

theorem fnHufDec_short (hne : S ≠ [])
    (hshort : S.length < 16 ∨ S.length < 16 + leValue ((S.drop 8).take 8)) : fnHufDec S = .error .hdrShort := by
  have hw : Config.hufHdrBytes = 8 := rfl
  rw [fnHufDec, if_neg hne, hw]
  split
  · rfl
  · exact if_pos (by omega)

/-- A container with its whole header and tree fails only with an error of its payload (R177). -/
theorem fnHufDec_whole_error {e : ErrCode} (hwhole : 16 + leValue ((S.drop 8).take 8) ≤ S.length)
    (h : fnHufDec S = .error e) : ∃ P T n, decodePayload P T n = .error e := by
  have hw : Config.hufHdrBytes = 8 := rfl
  rw [fnHufDec, hw, if_neg (List.ne_nil_of_length_pos (by omega)), if_neg (by omega)] at h
  dsimp only at h
  rw [if_neg (by omega)] at h
  split at h
  · next hpayload => cases h; exact ⟨_, _, _, hpayload⟩
  · cases h

end

end Sys2Proof.Machine

open Sys2Proof Sys2Proof.Machine

/-- Settles O51: a container that passes the header checks fails only with its payload's errors, none of which is
E_HDR_SHORT. -/
theorem shortHeaderRefused : Obligations.ShortHeaderRefused := by
  refine fun S => ⟨fun h => ⟨?_, ?_⟩, fun ⟨hne, hshort⟩ => fnHufDec_short hne hshort⟩
  · rintro rfl; cases h
  · by_contra hwhole
    obtain ⟨P, T, n, hpayload⟩ := fnHufDec_whole_error (by omega) h
    exact absurd (decodePayload_error hpayload) (by decide)
end

section
/-!
SUPPORT. The LZW decoder's phrases, one for each code of its stream: they fix its dictionary and its previous phrase,
and so which code it refuses next (45_lzw.md R186, R189 to R192).
-/

namespace Sys2Proof.Machine

/-! ### The current phrase -/

section
variable {d : Dict} {prev cur : List Byte} {c : Nat}

theorem phraseOfCode_eq_none (h : nextCode d ≤ c) : phraseOfCode d c = none := by
  rw [← Option.not_isSome_iff_eq_none, phraseOfCode_isSome]
  exact not_lt.2 h

theorem currentPhrase_first (h : nextCode d ≤ c) : currentPhrase d [] c = .error .lzwCode := by
  simp only [currentPhrase, phraseOfCode_eq_none h]

theorem currentPhrase_beyond (h : nextCode d < c) (prev : List Byte) : currentPhrase d prev c = .error .lzwCode := by
  cases prev with
  | nil => exact currentPhrase_first h.le
  | cons f fs =>
    simp only [currentPhrase, phraseOfCode_eq_none h.le]
    exact if_neg h.ne'

/-- A code is refused where it is beyond the next one, or is the next one with no phrase before it (R192). -/
theorem currentPhrase_eq_error_iff {e : ErrCode} :
    currentPhrase d prev c = .error e ↔ e = .lzwCode ∧ (nextCode d < c ∨ (c = nextCode d ∧ prev = [])) := by
  rcases lt_trichotomy c (nextCode d) with hknown | rfl | hbeyond
  · obtain ⟨p, hp⟩ := Option.isSome_iff_exists.1 ((phraseOfCode_isSome d c).2 hknown)
    rw [currentPhrase_of_known hp]
    exact iff_of_false nofun fun ⟨_, hrefused⟩ => by omega
  · cases prev with
    | nil => simp [currentPhrase_first, eq_comm]
    | cons f fs => simp [currentPhrase_nextCode]
  · simp [currentPhrase_beyond, hbeyond, eq_comm]

/-- The current phrase is the code's entry or the previous phrase with its first byte again (R190, R191). -/
theorem currentPhrase_eq_ok (h : currentPhrase d prev c = .ok cur) :
    phraseOfCode d c = some cur ∨ ∃ f fs, cur = f :: fs ++ [f] := by
  simp only [currentPhrase] at h
  split at h
  · next hp => cases h; exact .inl hp
  · cases h
  · split at h
    · cases h; exact .inr ⟨_, _, rfl⟩
    · cases h

theorem phraseOfCode_byte (d : Dict) (hc : c < 256) : phraseOfCode d c = some [BitVec.ofNat 8 c] := if_pos hc

end

/-! ### The rounds -/

section
variable {d : Dict} {prev cur : List Byte} {lo hi : Byte}

theorem lzwDecodeFrom_of_ok (h : currentPhrase d prev (leValue [lo, hi]) = .ok cur) (T : List Byte) :
    lzwDecodeFrom d prev (lo :: hi :: T) =
      (lzwDecodeFrom (decoderInsert d prev cur) cur T).map fun r => (cur ++ r.1, r.2) := by
  rw [lzwDecodeFrom, h]
  dsimp only
  cases lzwDecodeFrom (decoderInsert d prev cur) cur T <;> rfl

theorem lzwDecodeFrom_of_error {e : ErrCode} (h : currentPhrase d prev (leValue [lo, hi]) = .error e)
    (T : List Byte) : lzwDecodeFrom d prev (lo :: hi :: T) = .error e := by
  rw [lzwDecodeFrom, h]

end

section
variable {α β : Type} {f : α → β} {x : Except ErrCode α}

theorem exists_ok_of_map_eq_ok {y : β} (h : x.map f = .ok y) : ∃ r, x = .ok r := by
  cases x with
  | ok r => exact ⟨r, rfl⟩
  | error e => cases h

theorem error_of_map_eq_error {e : ErrCode} (h : x.map f = .error e) : x = .error e := by
  cases x with
  | ok r => cases h
  | error e' => cases h; rfl

end

/-- The decoder's rounds fail only with E_LZW_CODE (R190). -/
theorem lzwDecodeFrom_error {d : Dict} {prev S : List Byte} {e : ErrCode} (h : lzwDecodeFrom d prev S = .error e) :
    e = .lzwCode := by
  induction S using List.twoStepInduction generalizing d prev with
  | nil => cases h
  | singleton x => cases h
  | cons_cons lo hi rest ih =>
    cases hcur : currentPhrase d prev (leValue [lo, hi]) with
    | error e' =>
      rw [lzwDecodeFrom_of_error hcur] at h
      cases h
      exact (currentPhrase_eq_error_iff.1 hcur).1
    | ok cur =>
      rw [lzwDecodeFrom_of_ok hcur] at h
      exact ih (error_of_map_eq_error h)

theorem fnLzwDec_odd {S : List Byte} (hodd : S.length % 2 = 1) : fnLzwDec S = .error .lzwOdd := by
  rw [fnLzwDec, if_pos hodd]

theorem fnLzwDec_even {S : List Byte} (heven : S.length % 2 = 0) :
    fnLzwDec S = (lzwDecodeFrom [] [] S).map fun r => ⟨r.1, nextCode r.2, 0⟩ := by
  rw [fnLzwDec, if_neg (by omega)]
  cases lzwDecodeFrom [] [] S <;> rfl

theorem fnLzwDec_even_error {S : List Byte} {e : ErrCode} (heven : S.length % 2 = 0) (h : fnLzwDec S = .error e) :
    e = .lzwCode := by
  rw [fnLzwDec_even heven] at h
  exact lzwDecodeFrom_error (error_of_map_eq_error h)

/-! ### The phrases of a stream -/

/-- The decoder's dictionary after it has decoded codes to the phrases `ps`: it is one insertion behind the encoder's
(R190). -/
def lzwDecoderDict (ps : List (List Byte)) : Dict := lzwInserted ps (ps.length - 1)

/-- The decoder's previous phrase after the phrases `ps`, empty before the first code (R190). -/
def lzwLastPhrase (ps : List (List Byte)) : List Byte := ps.getD (ps.length - 1) []

/-- The codes of the stream decode, one by one, to the phrases (R190). -/
inductive LzwReads : List Byte → List (List Byte) → Prop where
  | nil : LzwReads [] []
  | snoc {S : List Byte} {ps : List (List Byte)} {lo hi : Byte} {cur : List Byte} (before : LzwReads S ps)
      (code : currentPhrase (lzwDecoderDict ps) (lzwLastPhrase ps) (leValue [lo, hi]) = .ok cur) :
      LzwReads (S ++ [lo, hi]) (ps ++ [cur])

theorem nextCode_lzwInserted (ps : List (List Byte)) (j : Nat) :
    nextCode (lzwInserted ps j) = min 65536 (256 + j) := by
  simp only [nextCode, lzwInserted, List.length_map, List.length_range]
  omega

/-- A code assigned after the first 256 stands for a phrase and the first byte of the one after it (R186). -/
theorem phraseOfCode_lzwInserted {ps : List (List Byte)} {j c : Nat} (hc : 256 ≤ c)
    (hlt : c < nextCode (lzwInserted ps j)) :
    phraseOfCode (lzwInserted ps j) c = some (ps.getD (c - 256) [] ++ (ps.getD (c - 256 + 1) []).take 1) := by
  rw [nextCode_lzwInserted] at hlt
  rw [phraseOfCode, if_neg (by omega), lzwInserted, List.getElem?_map, List.getElem?_range (by omega), Option.map_some]

/-- The decoder's dictionary has no empty phrase where those before had a byte each (R187). -/
theorem ne_nil_of_phraseOfCode_lzwDecoderDict {ps : List (List Byte)} {c : Nat} {p : List Byte}
    (hne : ∀ {k}, k < ps.length → ps.getD k [] ≠ []) (h : phraseOfCode (lzwDecoderDict ps) c = some p) : p ≠ [] := by
  rcases lt_or_ge c 256 with hbyte | hlong
  · rw [phraseOfCode_byte _ hbyte] at h
    cases h
    exact List.cons_ne_nil _ _
  · have hlt := (phraseOfCode_isSome _ _).1 (Option.isSome_of_eq_some h)
    rw [lzwDecoderDict, phraseOfCode_lzwInserted hlong hlt] at h
    rw [lzwDecoderDict, nextCode_lzwInserted] at hlt
    rw [← Option.some.inj h]
    exact List.append_ne_nil_of_left_ne_nil (hne (by omega)) _

/-- Later phrases change no earlier insertion. -/
theorem lzwInserted_append {ps : List (List Byte)} {j : Nat} (hj : j ≤ ps.length - 1) (qs : List (List Byte)) :
    lzwInserted (ps ++ qs) j = lzwInserted ps j := by
  refine List.map_congr_left fun i hi => ?_
  rw [List.mem_range] at hi
  rw [List.getD_append _ _ _ _ (by omega), List.getD_append _ _ _ _ (by omega)]

theorem lzwLastPhrase_concat (ps : List (List Byte)) (cur : List Byte) : lzwLastPhrase (ps ++ [cur]) = cur := by
  simp [lzwLastPhrase]

theorem lzwDecoderDict_concat (ps : List (List Byte)) (p q : List Byte) :
    lzwDecoderDict (ps ++ [p] ++ [q]) = insertPhrase (lzwDecoderDict (ps ++ [p])) (p ++ q.take 1) := by
  have hlen : (ps ++ [p] ++ [q]).length - 1 = ps.length + 1 := by simp
  have hlen' : (ps ++ [p]).length - 1 = ps.length := by simp
  rw [lzwDecoderDict, lzwDecoderDict, hlen, hlen', lzwInserted_succ, lzwInserted_append hlen'.ge]
  simp

namespace LzwReads

variable {S : List Byte} {ps : List (List Byte)}

theorem length_eq (h : LzwReads S ps) : S.length = 2 * ps.length := by
  induction h with
  | nil => rfl
  | snoc before code ih => simp [ih]; omega

/-- Every code stands for at least one byte (R187). -/
theorem getD_ne_nil (h : LzwReads S ps) {k : Nat} (hk : k < ps.length) : ps.getD k [] ≠ [] := by
  induction h generalizing k with
  | nil => exact absurd hk (Nat.not_lt_zero k)
  | @snoc S ps lo hi cur before code ih =>
    rw [List.length_append, List.length_singleton] at hk
    rcases Nat.lt_succ_iff_lt_or_eq.1 hk with hearlier | rfl
    · rw [List.getD_append _ _ _ _ hearlier]
      exact ih hearlier
    · have hlast : (ps ++ [cur]).getD ps.length [] = cur := by simp
      rw [hlast]
      rcases currentPhrase_eq_ok code with hp | ⟨f, fs, rfl⟩
      · exact ne_nil_of_phraseOfCode_lzwDecoderDict ih hp
      · exact List.cons_ne_nil _ _

theorem lastPhrase_eq_nil_iff (h : LzwReads S ps) : lzwLastPhrase ps = [] ↔ S = [] := by
  have hlen := h.length_eq
  rw [← List.length_eq_zero_iff (l := S), hlen]
  refine ⟨fun hnil => ?_, fun hzero => ?_⟩
  · by_contra hne
    exact h.getD_ne_nil (k := ps.length - 1) (by omega) hnil
  · rw [List.length_eq_zero_iff.1 (by omega : ps.length = 0)]
    rfl

/-- The decoder's insertion after the phrase of one more code (R190). -/
theorem decoderInsert_eq (h : LzwReads S ps) (cur : List Byte) :
    decoderInsert (lzwDecoderDict ps) (lzwLastPhrase ps) cur = lzwDecoderDict (ps ++ [cur]) := by
  rcases List.eq_nil_or_concat' ps with rfl | ⟨qs, p, rfl⟩
  · rfl
  · have hp : lzwLastPhrase (qs ++ [p]) ≠ [] := h.getD_ne_nil (by simp)
    rw [decoderInsert, if_neg hp, lzwDecoderDict_concat, lzwLastPhrase_concat]

/-- The decoder's loop goes on after the phrases with their dictionary and the last of them. -/
theorem decodeFrom_append (h : LzwReads S ps) (T : List Byte) :
    lzwDecodeFrom [] [] (S ++ T) = (lzwDecodeFrom (lzwDecoderDict ps) (lzwLastPhrase ps) T).map
      fun r => (ps.flatten ++ r.1, r.2) := by
  induction h generalizing T with
  | nil =>
    rw [List.nil_append]
    show _ = (lzwDecodeFrom [] [] T).map id
    cases lzwDecodeFrom [] [] T <;> rfl
  | @snoc S ps lo hi cur before code ih =>
    rw [List.append_assoc, List.cons_append, List.cons_append, List.nil_append, ih, lzwDecodeFrom_of_ok code,
      before.decoderInsert_eq, lzwLastPhrase_concat]
    cases lzwDecodeFrom (lzwDecoderDict (ps ++ [cur])) cur T <;> simp [Except.map]

/-- A stream with phrases decodes to them (R190). -/
theorem fnLzwDec_eq (h : LzwReads S ps) : fnLzwDec S = .ok ⟨ps.flatten, nextCode (lzwDecoderDict ps), 0⟩ := by
  have hdec := h.decodeFrom_append []
  have hlen := h.length_eq
  rw [List.append_nil] at hdec
  rw [fnLzwDec_even (by omega), hdec]
  simp [lzwDecodeFrom, Except.map]

/-- A code that is refused after the phrases is the stream's error (R192). -/
theorem fnLzwDec_concat_error (h : LzwReads S ps) {lo hi : Byte} {e : ErrCode}
    (hcode : currentPhrase (lzwDecoderDict ps) (lzwLastPhrase ps) (leValue [lo, hi]) = .error e) :
    fnLzwDec (S ++ [lo, hi]) = .error e := by
  have hlen := h.length_eq
  rw [fnLzwDec_even (by simp; omega), h.decodeFrom_append, lzwDecodeFrom_of_error hcode]
  rfl

/-- The loop succeeds after the phrases only on codes that each decode to one more. -/
theorem append_of_decodeFrom (h : LzwReads S ps) {T : List Byte} {r : List Byte × Dict} (heven : T.length % 2 = 0)
    (hdec : lzwDecodeFrom (lzwDecoderDict ps) (lzwLastPhrase ps) T = .ok r) : ∃ qs, LzwReads (S ++ T) qs := by
  induction T using List.twoStepInduction generalizing S ps r with
  | nil => exact ⟨ps, by rwa [List.append_nil]⟩
  | singleton x => cases heven
  | cons_cons lo hi rest ih =>
    cases hcur : currentPhrase (lzwDecoderDict ps) (lzwLastPhrase ps) (leValue [lo, hi]) with
    | error e => rw [lzwDecodeFrom_of_error hcur] at hdec; cases hdec
    | ok cur =>
      rw [lzwDecodeFrom_of_ok hcur, h.decoderInsert_eq] at hdec
      obtain ⟨r', hrest⟩ := exists_ok_of_map_eq_ok hdec
      have hreads := ih (h.snoc hcur) (by rw [List.length_cons, List.length_cons] at heven; omega)
        (by rwa [lzwLastPhrase_concat])
      rwa [List.append_assoc] at hreads

/-- Each beginning of the phrases is decoded from the codes at the same positions. -/
theorem take (h : LzwReads S ps) (k : Nat) : LzwReads (S.take (2 * k)) (ps.take k) := by
  induction h with
  | nil => simpa using LzwReads.nil
  | @snoc S ps lo hi cur before code ih =>
    have hlen := before.length_eq
    rcases le_or_gt k ps.length with hk | hk
    · rwa [List.take_append_of_le_length (by omega), List.take_append_of_le_length hk]
    · rw [List.take_of_length_le (by simp; omega), List.take_of_length_le (by simpa using hk)]
      exact before.snoc code

theorem phraseAt (h : LzwReads S ps) {k : Nat} (hk : k < ps.length) : LzwPhraseAt S k (ps.getD k []) := by
  have hlen := h.length_eq
  have hnext : ps.take (k + 1) = ps.take k ++ [ps.getD k []] := by
    rw [List.getD_eq_getElem _ _ hk, List.take_append_getElem]
  have hafter := (h.take (k + 1)).fnLzwDec_eq
  rw [hnext, List.flatten_append, List.flatten_singleton] at hafter
  exact ⟨by omega, _, _, _, (h.take k).fnLzwDec_eq, hafter⟩

end LzwReads

/-- A stream that decodes has phrases (R190). -/
theorem exists_lzwReads {S : List Byte} {o : Output} (h : fnLzwDec S = .ok o) : ∃ ps, LzwReads S ps := by
  rcases Nat.mod_two_eq_zero_or_one S.length with heven | hodd
  · rw [fnLzwDec_even heven] at h
    obtain ⟨r, hdec⟩ := exists_ok_of_map_eq_ok h
    exact LzwReads.nil.append_of_decodeFrom heven hdec
  · rw [fnLzwDec_odd hodd] at h
    cases h

/-- The next code of a stream of one or more codes (R186). -/
theorem nextCode_of_fnLzwDec {S out : List Byte} {next : Nat} (h : fnLzwDec S = .ok ⟨out, next, 0⟩) (hne : S ≠ []) :
    next = min 65536 (256 + S.length / 2 - 1) := by
  obtain ⟨ps, hreads⟩ := exists_lzwReads h
  have hlen := hreads.length_eq
  have hpos := List.length_pos_iff.2 hne
  cases hreads.fnLzwDec_eq.symm.trans h
  rw [lzwDecoderDict, nextCode_lzwInserted]
  omega

/-! ### One more code -/

section
variable {S : List Byte} {ps : List (List Byte)} {lo hi : Byte}

theorem LzwReads.fnLzwDec_concat_eq_error_iff (h : LzwReads S ps) :
    fnLzwDec (S ++ [lo, hi]) = .error .lzwCode ↔ nextCode (lzwDecoderDict ps) < leValue [lo, hi] ∨
      (leValue [lo, hi] = nextCode (lzwDecoderDict ps) ∧ S = []) := by
  rw [← h.lastPhrase_eq_nil_iff]
  cases hcur : currentPhrase (lzwDecoderDict ps) (lzwLastPhrase ps) (leValue [lo, hi]) with
  | error e =>
    obtain ⟨rfl, hrefused⟩ := currentPhrase_eq_error_iff.1 hcur
    exact iff_of_true (h.fnLzwDec_concat_error hcur) hrefused
  | ok cur =>
    refine iff_of_false (by rw [(h.snoc hcur).fnLzwDec_eq]; nofun) fun hrefused => ?_
    rw [currentPhrase_eq_error_iff.2 ⟨rfl, hrefused⟩] at hcur
    cases hcur

theorem LzwReads.fnLzwDec_concat_ok (h : LzwReads S ps) {cur : List Byte}
    (hcode : currentPhrase (lzwDecoderDict ps) (lzwLastPhrase ps) (leValue [lo, hi]) = .ok cur) :
    ∃ next, fnLzwDec (S ++ [lo, hi]) = .ok ⟨ps.flatten ++ cur, next, 0⟩ := by
  have hdec := (h.snoc hcode).fnLzwDec_eq
  rw [List.flatten_append, List.flatten_singleton] at hdec
  exact ⟨_, hdec⟩

/-- A known code after the first 256 stands for the phrase at its position and the first byte of the next phrase
(R186, R190). -/
theorem LzwReads.fnLzwDec_concat_known (h : LzwReads S ps) (hlong : 256 ≤ leValue [lo, hi])
    (hknown : leValue [lo, hi] < nextCode (lzwDecoderDict ps)) :
    ∃ p x r next, LzwPhraseAt S (leValue [lo, hi] - 256) p ∧ LzwPhraseAt S (leValue [lo, hi] - 256 + 1) (x :: r) ∧
      fnLzwDec (S ++ [lo, hi]) = .ok ⟨ps.flatten ++ (p ++ [x]), next, 0⟩ := by
  have hpos : leValue [lo, hi] - 256 + 1 < ps.length := by
    rw [lzwDecoderDict, nextCode_lzwInserted] at hknown
    omega
  obtain ⟨x, r, hnext⟩ := List.exists_cons_of_ne_nil (h.getD_ne_nil hpos)
  have hcur := currentPhrase_of_known (phraseOfCode_lzwInserted hlong hknown) (lzwLastPhrase ps)
  rw [hnext] at hcur
  obtain ⟨next, hdec⟩ := h.fnLzwDec_concat_ok hcur
  exact ⟨_, x, r, next, h.phraseAt (by omega), hnext ▸ h.phraseAt hpos, hdec⟩

/-- The next code stands for the last phrase and its first byte (R191). -/
theorem LzwReads.fnLzwDec_concat_next (h : LzwReads S ps) (hne : S ≠ [])
    (hnext : leValue [lo, hi] = nextCode (lzwDecoderDict ps)) :
    ∃ x r next, LzwPhraseAt S (S.length / 2 - 1) (x :: r) ∧
      fnLzwDec (S ++ [lo, hi]) = .ok ⟨ps.flatten ++ (x :: r ++ [x]), next, 0⟩ := by
  have hlen := h.length_eq
  have hpos := List.length_pos_iff.2 hne
  obtain ⟨x, r, hlast⟩ := List.exists_cons_of_ne_nil (mt h.lastPhrase_eq_nil_iff.1 hne)
  have hphrase : LzwPhraseAt S (ps.length - 1) (lzwLastPhrase ps) := h.phraseAt (by omega)
  obtain ⟨next, hdec⟩ := h.fnLzwDec_concat_ok (by rw [hlast, hnext]; exact currentPhrase_nextCode _ x r)
  rw [hlast] at hphrase
  exact ⟨x, r, next, by rwa [hlen, Nat.mul_div_cancel_left _ Nat.two_pos], hdec⟩

end

/-! ### The encoder's codes -/

theorem IsLzwEntry.lt_nextCode {d : Dict} {c : Nat} {p : List Byte} (h : IsLzwEntry d c p) : c < nextCode d :=
  (phraseOfCode_isSome d c).1 (Option.isSome_of_eq_some (phraseOfCode_of_isLzwEntry h))

theorem lzwGreedy_of_fnLzwEnc {S : List Byte} {o : Output} (h : fnLzwEnc S = .ok o) : LzwGreedy S o.out := by
  obtain ⟨ps, hflat, hlen, hgreedy⟩ := lzwEncode_greedyAt S
  cases h
  exact lzwGreedy_of_greedyAt hflat hlen hgreedy

/-- Before code `j` of a greedy stream the encoder has made at most `j` insertions (R186, R188). -/
theorem LzwGreedy.code_lt {input stream : List Byte} (h : LzwGreedy input stream) {j : Nat}
    (hj : 2 * j < stream.length) : leValue ((stream.drop (2 * j)).take 2) < min 65536 (256 + j) := by
  obtain ⟨ps, -, hlen, hcodes⟩ := h
  have hlt := (hcodes j (by omega)).1.lt_nextCode
  rwa [nextCode_lzwInserted] at hlt

end Sys2Proof.Machine

open Sys2Proof Sys2Proof.Machine

/-- Settles O54: an odd length is the first check, and the rounds of an even one fail only with E_LZW_CODE. -/
theorem lzwDecDecodesCodes : Obligations.LzwDecDecodesCodes := by
  intro s hpass
  rw [← s.srcBytes_length]
  refine ⟨fun hodd => exec_fails hpass (fnLzwDec_odd hodd), fun heven e he => ?_,
    fun o ho hroom => exec_succeeds hpass ho hroom⟩
  obtain rfl := fnLzwDec_even_error heven he
  exact ⟨rfl, exec_fails hpass he⟩

/-- Settles O55: the decoder runs in lockstep with the encoder. -/
theorem lzwRoundTrip : Obligations.LzwRoundTrip :=
  fun _ => ⟨_, _, rfl, fnLzwDec_of_fnLzwEnc rfl⟩

/-- Settles O56: the decoder inserts at every code but the first, and ends with the encoder's next code. -/
theorem lzwNextCodeCountsCodes : Obligations.LzwNextCodeCountsCodes := by
  refine ⟨fun b out next henc hne => ?_, fun S out next => nextCode_of_fnLzwDec⟩
  have hdec := fnLzwDec_of_fnLzwEnc henc
  refine nextCode_of_fnLzwDec hdec fun hempty => hne ?_
  rw [hempty] at hdec
  cases hdec
  rfl

/-- Settles O57: the phrases decoded so far say what one more code stands for. -/
theorem lzwCodeRefusedBeyondNext : Obligations.LzwCodeRefusedBeyondNext := by
  rintro S out next c lo hi hdec rfl
  obtain ⟨ps, hreads⟩ := exists_lzwReads hdec
  cases hreads.fnLzwDec_eq.symm.trans hdec
  exact ⟨hreads.fnLzwDec_concat_eq_error_iff,
    fun hbyte => hreads.fnLzwDec_concat_ok (currentPhrase_of_known (phraseOfCode_byte _ hbyte) _),
    hreads.fnLzwDec_concat_known, fun hnext hne => hreads.fnLzwDec_concat_next hne hnext⟩

/-- Settles O58: the encoder is at most one insertion ahead of the decoder. -/
theorem lzwEncoderCodesWithinNext : Obligations.LzwEncoderCodesWithinNext := by
  intro b out next j henc
  have hdec := fnLzwDec_of_fnLzwEnc henc
  refine ⟨by rw [hdec]; nofun, fun hj => ?_⟩
  obtain ⟨ps, hreads⟩ := exists_lzwReads hdec
  have hcode : leValue ((out.drop (2 * j)).take 2) < _ := (lzwGreedy_of_fnLzwEnc henc).code_lt hj
  have hlen : out.length = _ := hreads.length_eq
  have hnext : nextCode (lzwDecoderDict (ps.take j)) = min 65536 (256 + (j - 1)) := by
    rw [lzwDecoderDict, nextCode_lzwInserted, List.length_take_of_le (by omega)]
  exact ⟨_, _, (hreads.take j).fnLzwDec_eq, by omega, by omega⟩
end

section
/-!
SUPPORT. The interrupt output (60_exceptions.md R207): what it is where IE or DONE is known.
-/

namespace Sys2Proof.Machine

theorem State.irq_iff (s : State) : s.irq = true ↔ s.ie = true ∧ s.done = true := by
  rw [irq, Bool.and_eq_true]

theorem State.irq_of_not_done {s : State} (h : s.done = false) : s.irq = false := by
  rw [irq, h, Bool.and_false]

theorem State.irq_of_not_ie {s : State} (h : s.ie = false) : s.irq = false := by
  rw [irq, h, Bool.false_and]

/-- A completion leaves IE (R101). -/
@[simp] theorem State.complete_ie (s : State) (r : Result) : (s.complete r).ie = s.ie := by
  obtain ⟨-, hie, -⟩ := s.complete_sameOperands r
  exact hie

/-- With DONE set, IRQ shows IE (R101, R207). -/
theorem State.complete_irq (s : State) (r : Result) : (s.complete r).irq = s.ie := by
  rw [irq, complete_done, complete_ie, Bool.and_true]

/-- IE takes bit 1 of a write of CTRL, also of one that starts a command (R20, R100). -/
@[simp] theorem State.writeCtrl_ie (s : State) (w : Word) : (s.writeCtrl w).ie = w.getLsbD 1 := by
  by_cases hstart : w.getLsbD 0 = true
  · rw [writeCtrl_start s hstart, start_ie]
  · rw [writeCtrl_enable s hstart]

end Sys2Proof.Machine

open Sys2Proof Sys2Proof.Machine

/-- Settles O20: a completion sets DONE and leaves IE; a START, the acknowledgement of DONE and a reset clear DONE, and
a write of CTRL with bit 1 clear clears IE. -/
theorem interruptFollowsDoneAndEnable : Obligations.InterruptFollowsDoneAndEnable := by
  refine ⟨State.irq_iff, State.complete_irq, fun s => State.irq_of_not_done s.start_done,
    fun s w hdone => State.irq_of_not_done ?_, fun s w hie => State.irq_of_not_ie ((s.writeCtrl_ie w).trans hie),
    fun s => ?_⟩
  · rw [State.acknowledge_done, hdone, Bool.not_true, Bool.and_false]
  · obtain ⟨-, hdone, -⟩ := s.applyReset_flags
    exact State.irq_of_not_done hdone
end

section
/-!
SUPPORT. The reset input (70_reset_and_hazards.md R215 to R217): the registers it clears, what it leaves, and the memory
of a command it abandons.
-/

namespace Sys2Proof.Machine

theorem State.applyReset_idle {s : State} (hidle : s.busy = false) : s.applyReset = s.resetRegisters := by
  rw [applyReset, hidle, if_neg Bool.false_ne_true]

theorem State.applyReset_running {s : State} (hrun : s.busy = true) :
    s.applyReset = (s.drawInto s.dst.start s.dstBytesInMemory).resetRegisters := by
  rw [applyReset, if_pos hrun]

/-- Every register has the reset value 0 (R216). -/
@[simp] theorem State.resetRegisters_regValue (s : State) (r : Reg) : s.resetRegisters.regValue r = 0 := by
  cases r with
  | status => simp [regValue, statusWord]
  | _ => rfl

@[simp] theorem State.applyReset_regValue (s : State) (r : Reg) : s.applyReset.regValue r = 0 := by
  rw [applyReset]; split <;> exact State.resetRegisters_regValue _ r

@[simp] theorem State.applyReset_ie (s : State) : s.applyReset.ie = false := by
  rw [applyReset]; split <;> rfl

@[simp] theorem State.applyReset_errCode (s : State) : s.applyReset.errCode = 0 := by
  rw [applyReset]; split <;> rfl

theorem State.applyReset_irq (s : State) : s.applyReset.irq = false := irq_of_not_ie s.applyReset_ie

theorem State.applyReset_noResult (s : State) : s.applyReset.NoResult :=
  ⟨s.applyReset_regValue .resultLen, s.applyReset_regValue .resultAux, s.applyReset_regValue .outBitsLo,
    s.applyReset_regValue .outBitsHi⟩

@[simp] theorem State.applyReset_schedule (s : State) : s.applyReset.schedule = s.schedule := by
  rw [applyReset]; split <;> rfl

@[simp] theorem State.applyReset_readback (s : State) : s.applyReset.readback = s.readback := by
  rw [applyReset]; split <;> rfl

@[simp] theorem State.applyReset_seenDone (s : State) : s.applyReset.seenDone = s.seenDone := by
  rw [applyReset]; split <;> rfl

theorem State.dstBytesInMemory_le (s : State) : s.dstBytesInMemory ≤ s.dst.len := Nat.min_le_left ..

theorem State.drawInto_sameMemoryOutside (s : State) (a n : Nat) : s.SameMemoryOutside (s.drawInto a n) a n :=
  fun _ hx => Memory.read_writeBytes_outside (by rwa [drawBytes_length])

/-- A running command that is abandoned leaves its draws in the destination buffer and nowhere else (R217). -/
theorem State.applyReset_sameMemoryOutside {s : State} (hrun : s.busy = true) :
    s.SameMemoryOutside s.applyReset s.dst.start s.dst.len := by
  rw [applyReset_running hrun]
  have hdraws : s.SameMemoryOutside (s.drawInto s.dst.start s.dstBytesInMemory).resetRegisters s.dst.start
      s.dstBytesInMemory := s.drawInto_sameMemoryOutside s.dst.start s.dstBytesInMemory
  exact hdraws.mono s.dstBytesInMemory_le

theorem step_reset {s : State} {rest : List Action} (hs : s.schedule = .reset :: rest) :
    step s = .next ({ s with schedule := rest } : State).applyReset := by
  rw [step_scheduled hs, perform]

end Sys2Proof.Machine

open Sys2Proof Sys2Proof.Machine

/-- Settles O24: running or idle, the reset input clears the registers and leaves the platform and the model's own
fields; in an idle block it does no more. -/
theorem resetClearsRegisters : Obligations.ResetClearsRegisters := by
  intro s rest hs
  refine ⟨_, step_reset hs, State.applyReset_regValue _, State.applyReset_ie _, ?_⟩
  obtain ⟨hbusy, hdone, herr⟩ := ({ s with schedule := rest } : State).applyReset_flags
  refine ⟨hbusy, hdone, herr, State.applyReset_errCode _, State.applyReset_irq _, State.applyReset_platform _,
    State.applyReset_schedule _, State.applyReset_readback _, State.applyReset_seenDone _, fun hidle => ?_⟩
  rw [State.applyReset_idle (s := { s with schedule := rest }) hidle]
  exact ⟨rfl, rfl⟩

/-- Settles O25: the reset input clears the flags and the results, and the draws of the abandoned command stay in its
destination buffer. -/
theorem resetAbandonsRunningCommand : Obligations.ResetAbandonsRunningCommand := by
  intro s rest hrun hs
  obtain ⟨hbusy, hdone, -⟩ := ({ s with schedule := rest } : State).applyReset_flags
  have hmem := State.applyReset_sameMemoryOutside (s := { s with schedule := rest }) hrun
  exact ⟨_, step_reset hs, hbusy, hdone, State.applyReset_irq _, State.applyReset_noResult _, hmem⟩
end
